-- ==== Sys2Proof/Word.lean ====
section
/-! DEFINITION. The word types of the engine: 00_scope R16, R17. -/

namespace Sys2Proof

/-- A byte: 8 bits (R17). -/
abbrev Byte := BitVec 8

/-- A 16-bit quantity: header word, checksum, wide stream field (R16, R26). -/
abbrev Half := BitVec 16

end Sys2Proof
end

