-- ==== Sys2Proof/Config.lean ====
section
/-! DEFINITION. The configuration record `Cfg` (00_scope R8 to R15, 10_state R46) and the one value the spec leaves
without a number. A `Cfg` stands in `State` as data that no step changes, so every claim about all states is a claim
about all configurations. -/

namespace Sys2Proof

/-- Width of a fixed stream-frame field: one byte or two (30_encoding R106, 20_memory R70). -/
inductive FieldWidth where
  | one
  | two
  deriving DecidableEq, Repr

/-- Number of payload bytes a field takes. -/
def FieldWidth.bytes : FieldWidth → Nat
  | .one => 1
  | .two => 2

/-- `SF_OFF_x`, `SF_W_x`, `SF_SIGNED_x` of one stream-frame field (00_scope R15). -/
structure FieldLoc where
  off : Nat
  width : FieldWidth
  signed : Bool
  deriving DecidableEq, Repr

/-- The stream-frame layout constants (00_scope R15); `fixed` is `SF_FIXED`, the payload offset of the first sample. -/
structure Layout where
  alarm : FieldLoc
  pps : FieldLoc
  fwd : FieldLoc
  mv : FieldLoc
  rev : FieldLoc
  total : FieldLoc
  count : FieldLoc
  start : FieldLoc
  fixed : Nat
  deriving DecidableEq, Repr

/-- The table of 30_encoding R106. PRESUMED (from general knowledge, says the spec; log 12). -/
def Layout.r106 : Layout where
  alarm := ⟨1, .one, false⟩
  pps := ⟨2, .two, false⟩
  fwd := ⟨4, .two, true⟩
  mv := ⟨6, .two, true⟩
  rev := ⟨8, .one, false⟩
  total := ⟨9, .two, false⟩
  count := ⟨11, .two, false⟩
  start := ⟨13, .two, false⟩
  fixed := 15

/-- The field lies inside the fixed part of the payload. -/
def FieldLoc.within (f : FieldLoc) (fixed : Nat) : Bool :=
  decide (f.off + f.width.bytes ≤ fixed)

/-- The layouts taken as legal: every fixed field lies inside the fixed part, which holds at least the command identifier.
00_scope R15 and 30_encoding R106 state no constraint on a layout: DESIGN CHOICE (log 27). -/
def Layout.ok (l : Layout) : Bool :=
  decide (1 ≤ l.fixed) && l.alarm.within l.fixed && l.pps.within l.fixed && l.fwd.within l.fixed
    && l.mv.within l.fixed && l.rev.within l.fixed && l.total.within l.fixed && l.count.within l.fixed
    && l.start.within l.fixed

/-- The constant record `Cfg` of 10_state R46. -/
structure Cfg where
  /-- `MAX_RESPONSE_SIZE` (R8). -/
  maxResponseSize : Nat
  /-- `STREAM_CMD_ID` (R9). -/
  streamCmdId : Byte
  /-- `STREAM_MAX_POINTS` (R10). -/
  streamMaxPoints : Nat
  /-- `N_ATTEMPTS` (R11). -/
  nAttempts : Nat
  /-- `T_POLL` (R12): timing only, no rule reads it (log 19). -/
  tPoll : Nat
  /-- `TX_RESERVED` (R13). -/
  txReserved : BitVec 5
  /-- `FLUSH_ON_REQUEST` (R14). -/
  flushOnRequest : Bool
  /-- `SF_OFF_*`, `SF_W_*`, `SF_SIGNED_*` (R15). -/
  layout : Layout
  deriving DecidableEq, Repr

/-- The constraints of R8 and R11, `6 <= MAX_RESPONSE_SIZE` and `1 <= N_ATTEMPTS`, and on the layout, for which the spec states
none, the model's own (`Layout.ok`, log 27). -/
def Cfg.ok (c : Cfg) : Bool :=
  decide (6 ≤ c.maxResponseSize) && decide (1 ≤ c.nAttempts) && c.layout.ok

namespace Config

/-- Test configuration TC0 of 95_test_vectors section 0, with ten attempts. DESIGN CHOICE (log 1): the values of the
OPEN parameters are not in the spec. Only `State.reset` uses it. -/
def tc0 : Cfg where
  maxResponseSize := 1024
  streamCmdId := 0x30
  streamMaxPoints := 200
  nAttempts := 10
  tPoll := 10
  txReserved := 0
  flushOnRequest := false
  layout := Layout.r106

/-- Test configuration TC1 of 95_test_vectors section 0. -/
def tc1 : Cfg where
  maxResponseSize := 32
  streamCmdId := 0x30
  streamMaxPoints := 4
  nAttempts := 10
  tPoll := 10
  txReserved := 0
  flushOnRequest := false
  layout := Layout.r106

/-- Free value: what stands in the 10-bit length field of a request whose payload length exceeds 1023, possible only
when `MAX_RESPONSE_SIZE > 1028` (R8 calls such a value legal; R92 gives the field 10 bits and no rule says what is sent).
DESIGN CHOICE (log 11). -/
opaque oversizePlen : Nat → BitVec 10

end Config

end Sys2Proof
end

