-- ==== Sys2Proof/Machine/Bytes.lean ====
section
/-! DEFINITION. Byte order, sign reading and the header word: 00_scope R17, R18; 30_encoding R90 to R97. -/

namespace Sys2Proof.Machine

/-- `lo8(v) = v[7:0]` (R17). -/
def lo8 (v : Half) : Byte := v.setWidth 8

/-- `hi8(v) = v[15:8]` (R17). -/
def hi8 (v : Half) : Byte := (v >>> 8).setWidth 8

/-- `le16(b0, b1) = b0 | (b1 << 8)`, by bitwise OR (R17). -/
def le16 (b0 b1 : Byte) : Half := b0.setWidth 16 ||| (b1.setWidth 16 <<< 8)

/-- `s16(v)`: the 16-bit pattern read as two's complement (R18; PRESUMED, log 13). -/
def s16 (v : Half) : Int := v.toInt

/-- `StartByte`, the constant at offset 0 of every packet (R91). -/
def startByte : Byte := 0xAA

/-- A header word from its three fields: length in 15:6, reserved in 5:1, read/write flag in 0 (R92). -/
def hdrWord (plen : BitVec 10) (reserved : BitVec 5) (rw : Bool) : Half :=
  (plen.setWidth 16 <<< 6) ||| (reserved.setWidth 16 <<< 1) ||| (if rw then 1 else 0)

/-- `HdrEncode(plen, rw)`: reserved bits are `TX_RESERVED` (R97). -/
def hdrEncode (c : Cfg) (plen : BitVec 10) (rw : Bool) : Half := hdrWord plen c.txReserved rw

/-- `HdrPlen(h) = h[15:6]` (R97). -/
def hdrPlen (h : Half) : BitVec 10 := (h >>> 6).setWidth 10

/-- `HdrRw(h) = h[0]` (R97). -/
def hdrRw (h : Half) : Bool := h.getLsbD 0

/-- The five reserved bits `h[5:1]` (R92, R98). -/
def hdrReserved (h : Half) : BitVec 5 := (h >>> 1).setWidth 5

/-- The 10-bit length field for a payload of `n` bytes (R97). Above 1023 the field cannot hold `n` and the spec gives no
value: a free value (log 11). -/
def plenField (n : Nat) : BitVec 10 := if n < 1024 then BitVec.ofNat 10 n else Config.oversizePlen n

/-- What the checksum of a packet covers: start byte, header low byte, header high byte, payload (R90, R95). -/
def packetHead (hdr : Half) (payload : List Byte) : List Byte :=
  startByte :: lo8 hdr :: hi8 hdr :: payload

/-- A whole packet in wire order, the checksum low byte first (R90, R95). -/
def packetBytes (hdr : Half) (payload : List Byte) (ck : Half) : List Byte :=
  packetHead hdr payload ++ [lo8 ck, hi8 ck]

end Sys2Proof.Machine
end

