-- ==== Sys2Proof/Machine/Checksum.lean ====
section
/-! DEFINITION. CKS, the checksum engine as a pure function: 40_checksum R120 to R124. -/

namespace Sys2Proof.Machine

/-- `CksStep(crc, b)`, line for line the pseudocode of R120; every value 16 bits, every shift truncated. -/
def cksStep (crc : Half) (b : Byte) : Half :=
  let code := crc >>> 8
  let code := code ^^^ b.setWidth 16
  let code := code ^^^ (code >>> 4)
  let crc := crc <<< 8
  let crc := crc ^^^ code
  let code := code <<< 5
  let crc := crc ^^^ code
  let code := code <<< 7
  crc ^^^ code

/-- `Cks(data) = foldl CksStep 0x0000 data` (R121). -/
def cks (data : List Byte) : Half := data.foldl cksStep 0

/-- One bit of the division of R124: shift left, and XOR the generator `0x1021` if bit 15 was set. -/
def crcBit (r : Half) : Half := if r.getLsbD 15 then (r <<< 1) ^^^ 0x1021 else r <<< 1

/-- The bit-serial form of one step (R124): eight bits of the division after XORing the byte into the high byte. -/
def crcByte (crc : Half) (b : Byte) : Half :=
  (crcBit ∘ crcBit ∘ crcBit ∘ crcBit ∘ crcBit ∘ crcBit ∘ crcBit ∘ crcBit) (crc ^^^ (b.setWidth 16 <<< 8))

end Sys2Proof.Machine
end

