-- ==== Sys2Proof/Syntax.lean ====
section
/-! DEFINITION. The instruction set: the thirteen rows of spec/opcode_table.json (00_scope R3; 30_encoding R100 to R102). -/

namespace Sys2Proof

/-- The fields of a packet on the wire (30_encoding R90, R92): `w`, `r`, `nN`, `c`, `d`, `kK` of the table's rows. -/
structure Packet where
  /-- `RW`, header bit 0. -/
  rw : Bool
  /-- Header bits 5:1. -/
  reserved : BitVec 5
  /-- `PLEN`, header bits 15:6. -/
  plen : BitVec 10
  /-- Command identifier, offset 3. -/
  cmd : Byte
  /-- Command data, offsets 4 to PLEN+2. -/
  data : List Byte
  /-- The two checksum bytes read as `le16`. -/
  ck : Half
  deriving DecidableEq, Repr

/-- The fields of a stream frame on the wire in the layout of 30_encoding R106, the row PKT.STREAM. `extra` holds payload
bytes beyond the samples, which the decoder ignores (43_stream_decoder R199). -/
structure StreamPacket where
  rw : Bool
  reserved : BitVec 5
  plen : BitVec 10
  id : Byte
  alarm : Byte
  pps : Half
  fwd : Half
  mv : Half
  rev : Byte
  total : Half
  count : Half
  start : Half
  dist : List Half
  extra : List Byte
  ck : Half
  deriving DecidableEq, Repr

/-- One constructor per row of spec/opcode_table.json. -/
inductive Instr where
  /-- CKS: `compute(data)` (R121). -/
  | cks (data : List Byte)
  /-- RDPKT: `readPacket()` (R140). -/
  | rdpkt
  /-- REQR: `request(cmd, -, false)` (R160). -/
  | reqr (cmd : Byte)
  /-- REQW: `request(cmd, data, true)` (R160). -/
  | reqw (cmd : Byte) (data : List Byte)
  /-- SDEC: `decode(packet in RXBUF)` (R190). -/
  | sdec
  /-- FLUSH: `flushBuffer()` (R210). -/
  | flush
  /-- OP.NONE: no operation presented (R101). -/
  | opNone
  /-- OP.RESERVED: OPC 0b111 (R101). -/
  | opReserved
  /-- PKT: a packet from the device, of no further kind (R90, R102). -/
  | pkt (p : Packet)
  /-- PKT.RDREQ: the packet of a read request, as the PE sends it (R102, R162). -/
  | pktRdreq (cmd : Byte) (ck : Half)
  /-- PKT.WRREQ: the packet of a write request, as the PE sends it (R102, R162). -/
  | pktWrreq (plen : BitVec 10) (cmd : Byte) (data : List Byte) (ck : Half)
  /-- PKT.RESP: a packet from the device whose command is that of the transaction in flight (R102, R170). -/
  | pktResp (p : Packet)
  /-- PKT.STREAM: a packet from the device whose command is `STREAM_CMD_ID` (R102, R194). -/
  | pktStream (f : StreamPacket)
  deriving DecidableEq, Repr

end Sys2Proof
end

