-- ==== Sys2Proof/Machine/WireFields.lean ====
section
/-! DEFINITION. A packet's fields put together: 30_encoding R90 to R97, R106, R107; 42_transactor R162, R163. -/

namespace Sys2Proof

open Machine

/-- The payload of a packet: command identifier, then data (30_encoding R94). -/
def Packet.payload (p : Packet) : List Byte := p.cmd :: p.data

/-- The header word of a packet (R92). -/
def Packet.hdr (p : Packet) : Half := hdrWord p.plen p.reserved p.rw

/-- The bytes of a sequence of samples, each little-endian (R107). -/
def sampleBytes : List Half → List Byte
  | [] => []
  | d :: ds => lo8 d :: hi8 d :: sampleBytes ds

/-- The data bytes of a stream frame after the command identifier, in the layout of R106. -/
def StreamPacket.data (f : StreamPacket) : List Byte :=
  f.alarm :: lo8 f.pps :: hi8 f.pps :: lo8 f.fwd :: hi8 f.fwd :: lo8 f.mv :: hi8 f.mv :: f.rev ::
    lo8 f.total :: hi8 f.total :: lo8 f.count :: hi8 f.count :: lo8 f.start :: hi8 f.start ::
    (sampleBytes f.dist ++ f.extra)

/-- A stream frame as a packet (R102, R106). -/
def StreamPacket.packet (f : StreamPacket) : Packet :=
  ⟨f.rw, f.reserved, f.plen, f.id, f.data, f.ck⟩

/-- The packet a request builds: RW as given, reserved bits `TX_RESERVED`, PLEN the payload length (R162). -/
def requestPacket (c : Cfg) (isWrite : Bool) (cmd : Byte) (data : List Byte) : List Byte :=
  let hdr := hdrEncode c (plenField (1 + data.length)) isWrite
  packetBytes hdr (cmd :: data) (cks (packetHead hdr (cmd :: data)))

end Sys2Proof
end

