-- ==== Sys2Proof/WellFormed.lean ====
section
/-! DEFINITION. Which terms of `Instr` the encodings admit under a configuration: 30_encoding R90, R92, R95, R100, R102,
R106. -/

namespace Sys2Proof

open Machine

/-- PLEN counts the payload bytes (R92). -/
def Packet.lenOk (p : Packet) : Bool := p.plen.toNat == p.payload.length

/-- PLEN is at most `MAX_RESPONSE_SIZE - 5` (R92). -/
def Packet.fits (c : Cfg) (p : Packet) : Bool := decide (p.plen.toNat + 5 ≤ c.maxResponseSize)

/-- The checksum is that of start byte, header and payload (R95). -/
def Packet.ckOk (p : Packet) : Bool := p.ck == cks (packetHead p.hdr p.payload)

/-- A packet the framer accepts (R90, R99). -/
def Packet.wf (c : Cfg) (p : Packet) : Bool := p.lenOk && p.fits c && p.ckOk

/-- SF_COUNT is the number of samples carried (R106). -/
def StreamPacket.countOk (f : StreamPacket) : Bool := f.count.toNat == f.dist.length

/-- The command identifier is `STREAM_CMD_ID` (R102). -/
def StreamPacket.idOk (c : Cfg) (f : StreamPacket) : Bool := f.id == c.streamCmdId

/-- Well-formedness of an instruction under a configuration. The rows PKT.RDREQ and PKT.WRREQ fix the reserved bits at 0, so
they are what the PE sends only where TX_RESERVED is 0: DESIGN CHOICE (log 28). -/
def Instr.wf (c : Cfg) : Instr → Bool
  | .cks _ => true
  | .rdpkt => true
  | .reqr _ => true
  | .reqw _ data => decide (data.length + 6 ≤ c.maxResponseSize)
  | .sdec => true
  | .flush => true
  | .opNone => true
  | .opReserved => true
  | .pkt p => p.wf c
  | .pktRdreq cmd ck => c.txReserved == 0 && (Packet.mk false 0 1 cmd [] ck).wf c
  | .pktWrreq plen cmd data ck => c.txReserved == 0 && (Packet.mk true 0 plen cmd data ck).wf c
  | .pktResp p => p.wf c
  | .pktStream f => f.idOk c && f.countOk && f.packet.wf c

end Sys2Proof
end

