-- ==== Sys2Proof/Decode.lean ====
section
/-! DEFINITION. The decoder, total on any bytes and rejecting by name, and the encoder: 30_encoding R90 to R102, R106.

The table's packet rows share their fixed bits; R102 tells them apart by direction and context, so the decoder is told
from which side the bytes come (log 9). The byte layout of a presented operation (OPC in the low three bits of the first
byte, the operand bytes after it) is the model's (log 6). -/

namespace Sys2Proof

open Machine

/-- Why bytes are no instruction. -/
inductive DecodeError where
  /-- No byte at all, or a first byte above 7 that is not an OPC (R100). -/
  | badOpcode
  /-- Too few bytes for the operation or packet. -/
  | truncated
  /-- More bytes than the operation or packet has. -/
  | trailing
  /-- The first byte of a packet is not 0xAA (R91). -/
  | badStart
  /-- A packet that is neither a read request nor a write request (R102). -/
  | notARequest
  /-- Payload shorter than a stream frame's fields or samples (R106). -/
  | notAFrame
  deriving DecidableEq, Repr

/-- Where the bytes come from (R102). -/
inductive Side where
  /-- Presented by the host as an operation (R100). -/
  | host
  /-- A packet the PE sends (R102). -/
  | tx
  /-- A packet the device sends: the command being awaited, if any, and the stream identifier, if it is to be
  recognised (R102). -/
  | rx (awaited : Option Byte) (stream : Option Byte)
  deriving DecidableEq, Repr

/-- One host operation (R100, R101). -/
def decodeHostOp : List Byte → Except DecodeError Instr
  | [] => .error .badOpcode
  | op :: rest =>
    match op.toNat, rest with
    | 0, [] => .ok .opNone
    | 1, data => .ok (.cks data)
    | 2, [] => .ok .rdpkt
    | 3, [] => .error .truncated
    | 3, [cmd] => .ok (.reqr cmd)
    | 4, [] => .error .truncated
    | 4, cmd :: data => .ok (.reqw cmd data)
    | 5, [] => .ok .sdec
    | 6, [] => .ok .flush
    | 7, [] => .ok .opReserved
    | n, _ => if n < 8 then .error .trailing else .error .badOpcode

/-- The bytes after the command identifier: `n` data bytes and two checksum bytes. -/
def splitTail : Nat → List Byte → Except DecodeError (List Byte × Half)
  | 0, [k0, k1] => .ok ([], le16 k0 k1)
  | 0, [] => .error .truncated
  | 0, [_] => .error .truncated
  | 0, _ => .error .trailing
  | _ + 1, [] => .error .truncated
  | n + 1, b :: bs =>
    match splitTail n bs with
    | .ok (d, k) => .ok (b :: d, k)
    | .error e => .error e

/-- A whole packet from its wire bytes (R90, R92). A length field of 0, which no accepted packet has, is read as a packet
that still has its command identifier, as the table's rows do. -/
def parsePacket : List Byte → Except DecodeError Packet
  | st :: b1 :: b2 :: cmd :: rest =>
    if st = startByte then
      let h := le16 b1 b2
      match splitTail ((hdrPlen h).toNat - 1) rest with
      | .ok (data, ck) => .ok ⟨hdrRw h, hdrReserved h, hdrPlen h, cmd, data, ck⟩
      | .error e => .error e
    else .error .badStart
  | _ => .error .truncated

/-- `k` little-endian samples, then what is left (R107). -/
def splitSamples : Nat → List Byte → Except DecodeError (List Half × List Byte)
  | 0, bs => .ok ([], bs)
  | k + 1, b0 :: b1 :: bs =>
    match splitSamples k bs with
    | .ok (ds, rest) => .ok (le16 b0 b1 :: ds, rest)
    | .error e => .error e
  | _ + 1, _ => .error .notAFrame

/-- A packet read as a stream frame in the layout of R106. -/
def Packet.toStream (p : Packet) : Except DecodeError StreamPacket :=
  match p.data with
  | al :: p0 :: p1 :: f0 :: f1 :: m0 :: m1 :: rv :: t0 :: t1 :: n0 :: n1 :: i0 :: i1 :: rest =>
    match splitSamples (le16 n0 n1).toNat rest with
    | .ok (ds, extra) =>
      .ok ⟨p.rw, p.reserved, p.plen, p.cmd, al, le16 p0 p1, le16 f0 f1, le16 m0 m1, rv, le16 t0 t1, le16 n0 n1,
        le16 i0 i1, ds, extra, p.ck⟩
    | .error e => .error e
  | _ => .error .notAFrame

/-- A packet the PE sends: a read request or a write request (R102). The two rows of the opcode table fix the reserved bits at
0, the default of TX_RESERVED; a packet sent under another TX_RESERVED has no row and is read as neither: DESIGN CHOICE
(log 28). -/
def Packet.toRequest (p : Packet) : Except DecodeError Instr :=
  if p.reserved = 0 then
    if p.rw then .ok (.pktWrreq p.plen p.cmd p.data p.ck)
    else if p.plen = 1 then .ok (.pktRdreq p.cmd p.ck) else .error .notARequest
  else .error .notARequest

/-- A packet the device sends: response first, then stream frame, else a packet of no further kind (R102). A packet with the
stream identifier whose payload does not hold the fields of R106 and its own count is read as PKT, since PKT.STREAM has no
operands for it; the spec does not name its row. DESIGN CHOICE without effect on the machine: both rows are the same
arrival (log 23). -/
def Packet.classify (awaited stream : Option Byte) (p : Packet) : Instr :=
  if awaited = some p.cmd then .pktResp p
  else if stream = some p.cmd then
    match p.toStream with
    | .ok f => .pktStream f
    | .error _ => .pkt p
  else .pkt p

/-- The decoder. -/
def decode (side : Side) (bs : List Byte) : Except DecodeError Instr :=
  match side with
  | .host => decodeHostOp bs
  | .tx =>
    match parsePacket bs with
    | .ok p => p.toRequest
    | .error e => .error e
  | .rx awaited stream =>
    match parsePacket bs with
    | .ok p => .ok (p.classify awaited stream)
    | .error e => .error e

/-- The bytes of a packet (R90). -/
def Packet.bytes (p : Packet) : List Byte := packetBytes p.hdr p.payload p.ck

/-- The encoder: the bytes of an instruction (R90, R100, R106). -/
def encode : Instr → List Byte
  | .cks data => 1 :: data
  | .rdpkt => [2]
  | .reqr cmd => [3, cmd]
  | .reqw cmd data => 4 :: cmd :: data
  | .sdec => [5]
  | .flush => [6]
  | .opNone => [0]
  | .opReserved => [7]
  | .pkt p => p.bytes
  | .pktRdreq cmd ck => (Packet.mk false 0 1 cmd [] ck).bytes
  | .pktWrreq plen cmd data ck => (Packet.mk true 0 plen cmd data ck).bytes
  | .pktResp p => p.bytes
  | .pktStream f => f.packet.bytes

/-- The side an instruction's bytes come from, with the context that names it (R102). -/
def Instr.side : Instr → Side
  | .cks _ => .host
  | .rdpkt => .host
  | .reqr _ => .host
  | .reqw _ _ => .host
  | .sdec => .host
  | .flush => .host
  | .opNone => .host
  | .opReserved => .host
  | .pkt _ => .rx none none
  | .pktRdreq _ _ => .tx
  | .pktWrreq _ _ _ _ => .tx
  | .pktResp p => .rx (some p.cmd) none
  | .pktStream f => .rx none (some f.id)

/-- The first `n` bytes of a number, least significant first: bit 0 of the table's numbering is bit 0 of the first byte. -/
def wordBytes : Nat → Nat → List Byte
  | 0, _ => []
  | n + 1, w => BitVec.ofNat 8 w :: wordBytes n (w / 256)

/-- How many bytes the instruction that starts with these bytes has: an operation with a command operand has two, a
packet has `PLEN + 5` and at least six, any other operation one. -/
def neededBytes : List Byte → Nat
  | [] => 1
  | b :: rest =>
    if b = startByte then
      5 + max 1 (hdrPlen (le16 (rest.getD 0 0) (rest.getD 1 0))).toNat
    else if b = 3 ∨ b = 4 then 2 else 1

/-- A table word as the bytes of a whole instruction, every bit above `nbits` zero. -/
def tableBytes (nbits w : Nat) : List Byte :=
  let bs := wordBytes ((nbits + 7) / 8) w
  bs ++ List.replicate (neededBytes bs - bs.length) 0

/-- Bytes presented at the host port: an operation, or the packet of a request in its wire form (logs 6 and 8). -/
def decodePort (bs : List Byte) : Except DecodeError Instr :=
  match bs with
  | b :: _ => if b = startByte then decode .tx bs else decode .host bs
  | [] => decode .host bs

/-- Bytes of an unknown side, as the opcode table numbers them: an operation, a request, else a packet. -/
def decodeAny (bs : List Byte) : Except DecodeError Instr :=
  match decodePort bs with
  | .ok i => .ok i
  | .error e =>
    match decode (.rx none none) bs with
    | .ok i => .ok i
    | .error _ => .error e

/-- The instruction the decoder reads from a word of spec/opcode_table.json. -/
def decodeTableWord (nbits w : Nat) : Option Instr :=
  match decodeAny (tableBytes nbits w) with
  | .ok i => some i
  | .error _ => none

end Sys2Proof
end

