-- ==== Sys2Proof/Machine/Memory.lean ====
section
/-! DEFINITION. The byte buffers RXBUF and TXBUF as sparse lists of cells in one canonical form: 10_state R22, R23,
20_memory R60, R70, R71. -/

namespace Sys2Proof.Machine

/-- A buffer: (index, byte) cells, indices strictly rising. An index that is not listed holds NO VALUE (10_state R22, R55;
log 3), so no listed cell can equal what an unlisted one reads as. -/
abbrev Mem := List Host.Cell

/-- The byte at an index, if it holds one. -/
def Mem.read : Mem → Nat → Option Byte
  | [], _ => none
  | (k, b) :: m, a => if k = a then some b else Mem.read m a

/-- Store one byte, keeping the indices strictly rising. -/
def Mem.write : Mem → Nat → Byte → Mem
  | [], a, v => [(a, v)]
  | (k, b) :: m, a, v =>
    if a < k then (a, v) :: (k, b) :: m
    else if a = k then (a, v) :: m
    else (k, b) :: Mem.write m a v

/-- Every index of `m` is above `a` and they rise strictly. -/
def Mem.above : Nat → Mem → Bool
  | _, [] => true
  | a, (k, _) :: m => decide (a < k) && Mem.above k m

/-- The canonical form: indices strictly rising. -/
def Mem.wf : Mem → Bool
  | [] => true
  | (k, _) :: m => Mem.above k m

/-- Every listed index is below `n`. -/
def Mem.below (n : Nat) : Mem → Bool
  | [] => true
  | (k, _) :: m => decide (k < n) && Mem.below n m

/-- Consecutive bytes from index `a` on. -/
def Mem.cellsFrom : Nat → List Byte → Mem
  | _, [] => []
  | a, b :: bs => (a, b) :: Mem.cellsFrom (a + 1) bs

/-- A buffer that holds exactly these bytes, from index 0. -/
def Mem.ofBytes (bs : List Byte) : Mem := Mem.cellsFrom 0 bs

end Sys2Proof.Machine
end

