-- ==== Sys2Proof/Machine/State.lean ====
section
/-! DEFINITION. The state of the engine: 10_state R20 to R55, with the channel's two sequences (R50, R51) and the model's
two scripts for what the environment does (logs 5 and 6). Plain data. -/

namespace Sys2Proof.Machine

/-- FRM's phase `FSTATE` (R31). -/
inductive FState where
  | idle
  | head
  | body
  deriving DecidableEq, Repr

/-- `FSTATUS`, the outcome of the last framing attempt (R40). -/
inductive FStatus where
  | none
  | ok
  | badStartByte
  | invalidLength
  | checksumMismatch
  deriving DecidableEq, Repr

/-- TXN's state `TSTATE` (R33). -/
inductive TState where
  | idle
  | await
  | success
  | timeout
  deriving DecidableEq, Repr

/-- `TRESULT`, the outcome of the last transaction (R41). -/
inductive TResult where
  | none
  | success
  | timeout
  deriving DecidableEq, Repr

/-- `SSTATUS`, the outcome of the last SDEC (R42). -/
inductive SStatus where
  | none
  | ok
  | notStreamData
  deriving DecidableEq, Repr

/-- `OP`, the operation in progress (R36, R100); `none` is OPC 0b000. -/
inductive Op where
  | none
  | cks
  | rdpkt
  | reqr
  | reqw
  | sdec
  | flush
  deriving DecidableEq, Repr

/-- `FAULT_REASON` (60_exceptions R236); `none` is code 0. -/
inductive FaultReason where
  | none
  | noValidPacket
  | streamTruncated
  | pointCountOverCapacity
  | requestTooLong
  | badOp
  deriving DecidableEq, Repr

/-- What of RXBUF the host may read (44_host_ops R212). -/
inductive RxShown where
  /-- Nothing. -/
  | none
  /-- The whole packet, PLEN and RW: an RDPKT ended `F_OK`. -/
  | packet
  /-- The payload and PLEN: a REQR ended `Success`. -/
  | payload
  deriving DecidableEq, Repr

/-- What one coming step is (logs 4 and 20). -/
inductive Slot where
  /-- The engine runs, for at most so many channel primitives (20_memory R77); `none`: to the operation's end or hold. -/
  | run (limit : Option Nat)
  /-- Reset from outside (70 R261). -/
  | reset
  deriving DecidableEq, Repr

/-- The machine. -/
structure State where
  /-- `Cfg` (R46): no operation changes it. -/
  cfg : Cfg
  /-- `CRC` (R21). -/
  crc : Half
  /-- `RXBUF` (R22). -/
  rxbuf : Mem
  /-- `PLEN` (R24). -/
  plen : BitVec 10
  /-- `RW` (R24). -/
  rw : Bool
  /-- `RXCNT` (R32). -/
  rxcnt : Nat
  /-- `FSTATE` (R31). -/
  fstate : FState
  /-- `FSTATUS` (R40). -/
  fstatus : FStatus
  /-- `PKT_VALID` (R43). -/
  pktValid : Bool
  /-- `TXBUF` (R23). -/
  txbuf : Mem
  /-- `TXLEN` (R23). -/
  txlen : Nat
  /-- `TXCNT` (R34). -/
  txcnt : Nat
  /-- `CMD` (R25). -/
  cmd : Byte
  /-- `ISWR` (R25). -/
  iswr : Bool
  /-- `ATTEMPTS` (R35). -/
  attempts : Nat
  /-- `TSTATE` (R33). -/
  tstate : TState
  /-- `TRESULT` (R41). -/
  tresult : TResult
  /-- `SF_ALARM` (R26). -/
  sfAlarm : Byte
  /-- `SF_PPS` (R26). -/
  sfPps : Half
  /-- `SF_FWD`, signed: read with `s16` (R26). -/
  sfFwd : Half
  /-- `SF_MV`, signed: read with `s16` (R26). -/
  sfMv : Half
  /-- `SF_REV` (R26). -/
  sfRev : Byte
  /-- `SF_TOTAL` (R26). -/
  sfTotal : Half
  /-- `SF_COUNT` (R26). -/
  sfCount : Half
  /-- `SF_START` (R26). -/
  sfStart : Half
  /-- `SF_DIST`: the elements that hold a value, from index 0, signed: read with `s16` (R27). -/
  sfDist : List Half
  /-- `SF_VALID` (R44). -/
  sfValid : Bool
  /-- `SSTATUS` (R42). -/
  sstatus : SStatus
  /-- `BUSY` (R36). -/
  busy : Bool
  /-- `OP` (R36). -/
  op : Op
  /-- `FAULT`, sticky (R45). -/
  fault : Bool
  /-- `FAULT_REASON` (R45). -/
  faultReason : FaultReason
  /-- `RXQ`, the channel's unread bytes, oldest first (R50). -/
  rxq : List Byte
  /-- `TXLOG`, the bytes sent, oldest first (R51). -/
  txlog : List Byte
  /-- The MODEL's own: the operation that ended last handed the host a result; 0 after a contract violation, which yields
  none (60_exceptions R236). -/
  handed : Bool
  /-- The MODEL's own: CRC holds the result of a CKS, for the host to read (44_host_ops R212). -/
  crcShown : Bool
  /-- The MODEL's own: what of RXBUF the host may read (44_host_ops R212). -/
  rxShown : RxShown
  /-- The MODEL's own: how many channel primitives the step in progress may still perform; `none`: no limit (log 4). -/
  quota : Option Nat
  /-- The MODEL's own: what the coming steps are, in order; a step beyond the end runs without limit (log 4). -/
  sched : List Slot
  /-- The MODEL's own: the operations the host will present, in order, each as bytes (R211; log 6). -/
  port : List (List Byte)
  /-- The MODEL's own: what the device agent appends at its next turns, one entry a turn (R66; log 5). -/
  devq : List (List Byte)
  deriving DecidableEq, Repr

/-- Why the machine stops. Both are the spec's "reading would be a fault" and its fixed index ranges; no state that
satisfies the invariant of Safety.lean meets either. -/
inductive Fault where
  /-- A rule would read a buffer byte that the current attempt or request has not written (10_state R22, R55; 93 U8).
  Raised by every buffer read. Safe: the model stops where the spec gives no value. -/
  | noValue
  /-- A rule would use a buffer index at or above `MAX_RESPONSE_SIZE`, which does not exist (20_memory R60). Raised by
  every buffer read and write. Safe: the model stops where the spec has no such element. -/
  | noSuchIndex
  deriving DecidableEq, Repr

/-- Why an instruction is turned away. -/
inductive Refusal where
  /-- An instruction without a meaning. No arm answers it. Safe. -/
  | notModelled (mnemonic : String)
  /-- A host operation, or a request's packet, presented while `BUSY = 1` (70 R270; 93 U9 allows `refuse`). Safe. -/
  | hostBusy
  /-- An operation that needs `FSTATE = F_IDLE` or `TSTATE = T_IDLE` presented while the unit is not at rest (41 R141,
  42 R161). With `BUSY = 0` no run reaches such a state. Safe. -/
  | notAtRest
  /-- The bytes at the host port are no operation (30_encoding R100, R101). Raised by the step. Safe. -/
  | badWord (e : DecodeError)
  deriving DecidableEq, Repr

/-- The machine right after reset under configuration `c` (R55, R260). The fields R55 gives no value are zero, DESIGN
CHOICE (log 2); the channel is empty, the usual launch premise (R262; log 21); the scripts are empty (logs 4, 5 and 6);
no result has been handed over. -/
def State.resetWith (c : Cfg) : State where
  cfg := c
  crc := 0
  rxbuf := []
  plen := 0
  rw := false
  rxcnt := 0
  fstate := .idle
  fstatus := .none
  pktValid := false
  txbuf := []
  txlen := 0
  txcnt := 0
  cmd := 0
  iswr := false
  attempts := 0
  tstate := .idle
  tresult := .none
  sfAlarm := 0
  sfPps := 0
  sfFwd := 0
  sfMv := 0
  sfRev := 0
  sfTotal := 0
  sfCount := 0
  sfStart := 0
  sfDist := []
  sfValid := false
  sstatus := .none
  busy := false
  op := .none
  fault := false
  faultReason := .none
  rxq := []
  txlog := []
  handed := false
  crcShown := false
  rxShown := .none
  quota := none
  sched := []
  port := []
  devq := []

/-- The machine right after reset, under the configuration TC0 (DESIGN CHOICE, log 1). -/
def State.reset : State := State.resetWith Config.tc0

end Sys2Proof.Machine
end

