-- ==== Sys2Proof/Machine/Ops.lean ====
section
/-! DEFINITION. The named operations: the channel's four primitives and the device agent (20_memory R61 to R66), buffer
access (R70, R71), accepting and ending an operation (10_state R36, 60_exceptions R243), contract-violation faults (R236)
and reset (70 R260, R261). -/

namespace Sys2Proof.Machine

/-! ## The channel -/

/-- `ChSend(b)`: append to TXLOG; always enabled (R62). -/
def chSend (b : Byte) (s : State) : State := { s with txlog := s.txlog ++ [b] }

/-- `ChRead()`: take the oldest byte of RXQ; no result while RXQ is empty, the caller holds (R63). -/
def chRead (s : State) : Option (Byte × State) :=
  match s.rxq with
  | [] => none
  | b :: rest => some (b, { s with rxq := rest })

/-- `ChCanRead()`: is RXQ non-empty (R64). -/
def chCanRead (s : State) : Bool := !s.rxq.isEmpty

/-- `ChFlush()`: discard RXQ (R65). -/
def chFlush (s : State) : State := { s with rxq := [] }

/-- The device agent appends bytes to RXQ (R66). -/
def arrive (bs : List Byte) (s : State) : State := { s with rxq := s.rxq ++ bs }

/-- One turn of the device agent: it appends the next entry of its script, which may be empty (R66; log 5). -/
def deviceTurn (s : State) : State :=
  match s.devq with
  | [] => s
  | bs :: rest => { s with rxq := s.rxq ++ bs, devq := rest }

/-- `sleep(T_POLL)`: changes no PE state; the device agent acts during it (42 R168). -/
def sleep (s : State) : State := deviceTurn s

/-! ## The limit of a step -/

/-- The step in progress may perform no further channel primitive (log 4). -/
def State.spent (s : State) : Bool := s.quota == some 0

/-- One channel primitive has been performed. -/
def spend (s : State) : State := { s with quota := s.quota.map (· - 1) }

/-! ## Buffers -/

/-- `MemRead(BUF+i, 1)` (R70): an index that does not exist and a byte without a value are faults (R60, R22). -/
def bufRead (c : Cfg) (m : Mem) (i : Nat) : Except Fault Byte :=
  if i < c.maxResponseSize then
    match m.read i with
    | some b => .ok b
    | none => .error .noValue
  else .error .noSuchIndex

/-- `MemRead(BUF+i, 2)` (R70). -/
def bufRead2 (c : Cfg) (m : Mem) (i : Nat) : Except Fault Half := do
  let b0 ← bufRead c m i
  let b1 ← bufRead c m (i + 1)
  .ok (le16 b0 b1)

/-- The `n` bytes `BUF[i .. i+n)`. -/
def bufSlice (c : Cfg) (m : Mem) : Nat → Nat → Except Fault (List Byte)
  | _, 0 => .ok []
  | i, n + 1 => do
    let b ← bufRead c m i
    let bs ← bufSlice c m (i + 1) n
    .ok (b :: bs)

/-- `MemWrite(BUF+i, 1, b)` (R71). -/
def bufWrite (c : Cfg) (m : Mem) (i : Nat) (b : Byte) : Except Fault Mem :=
  if i < c.maxResponseSize then .ok (m.write i b) else .error .noSuchIndex

/-- `MemWrite(BUF+i, 2, v)`, low byte first (R71). -/
def bufWrite2 (c : Cfg) (m : Mem) (i : Nat) (v : Half) : Except Fault Mem := do
  let m ← bufWrite c m i (lo8 v)
  bufWrite c m (i + 1) (hi8 v)

/-- Store bytes at `BUF[i ..]` in order. -/
def bufFill (c : Cfg) (m : Mem) : Nat → List Byte → Except Fault Mem
  | _, [] => .ok m
  | i, b :: bs => do
    let m ← bufWrite c m i b
    bufFill c m (i + 1) bs

/-! ## Operations and errors -/

/-- Acceptance of an operation: `BUSY <- 1`, `OP <- o` (10_state R36, 44 R211). -/
def accept (o : Op) (s : State) : State := { s with busy := true, op := o }

/-- End of an operation with its result handed over: `BUSY <- 0` (60_exceptions R243, 44 R211); `OP` keeps its value
(log 15). -/
def finish (s : State) : State := { s with busy := false, handed := true }

/-- A contract-violation fault: `FAULT <- 1`, `FAULT_REASON <- r` unless a fault is already recorded, the operation yields
no result, `BUSY <- 0` (60_exceptions R236). This is what taking an exception is on this engine (R243): nothing is saved,
there is no vector, and there is no return (R245). -/
def violation (r : FaultReason) (s : State) : State :=
  { s with fault := true, faultReason := if s.fault then s.faultReason else r, busy := false, handed := false }

/-- Reset from outside: every PE register to its reset value; the channel and the scripts of the environment are untouched,
and so is `Cfg`, which is constant (70 R260, R261; 10_state R55). -/
def resetPE (s : State) : State :=
  { State.resetWith s.cfg with rxq := s.rxq, txlog := s.txlog, sched := s.sched, port := s.port, devq := s.devq }

/-- The outcome of a rule that may meet a byte without a value. -/
def outcome : Except Fault State → Host.Outcome State Fault Refusal
  | .ok s => .next s
  | .error f => .fault f

/-- The host has no move while `BUSY = 1` (70 R270): an operation presented then is refused (93 U9, log 7). -/
def whenIdle (s : State) (k : Except Fault State) : Host.Outcome State Fault Refusal :=
  if s.busy then .refused .hostBusy else outcome k

/-- As `whenIdle`, for the operations whose first rule also asks that FRM or TXN be at rest (41 R141, 42 R161; log 7). -/
def whenAtRest (s : State) (k : Except Fault State) : Host.Outcome State Fault Refusal :=
  if s.busy then .refused .hostBusy
  else if s.fstate = .idle ∧ s.tstate = .idle then outcome k
  else .refused .notAtRest

end Sys2Proof.Machine
end

