-- ==== Sys2Proof/Machine/Operands.lean ====
section
/-! DEFINITION. The operand forms: payload bytes and stream fields of the packet in RXBUF (30_encoding R94, R106, R107;
43_stream_decoder R190), and the length of a request (42_transactor R161). -/

namespace Sys2Proof.Machine

/-- `pay[i] = RXBUF[3 + i]` (43 R190). -/
def pay (s : State) (i : Nat) : Except Fault Byte := bufRead s.cfg s.rxbuf (3 + i)

/-- The two payload bytes at offset `i`, little-endian: `u16(i)` (43 R190). -/
def pay16 (s : State) (i : Nat) : Except Fault Half := bufRead2 s.cfg s.rxbuf (3 + i)

/-- A fixed stream field as 16 bits: one byte zero- or sign-extended as `SF_SIGNED_x` says, or two bytes little-endian, whose
16 bits are the same under either sign; the sign of a field is read by `State.frame` (R106, R18; 00_scope R15). What a
one-byte field of a 16-bit register does, which no layout of the spec has, is a DESIGN CHOICE (log 22). -/
def field (s : State) (f : FieldLoc) : Except Fault Half :=
  match f.width with
  | .one => do
    let b ← pay s f.off
    .ok (if f.signed then b.signExtend 16 else b.setWidth 16)
  | .two => pay16 s f.off

/-- `k` consecutive samples from payload offset `i` (43 R197). -/
def samples (s : State) : Nat → Nat → Except Fault (List Half)
  | _, 0 => .ok []
  | i, k + 1 => do
    let d ← pay16 s i
    let ds ← samples s (i + 2) k
    .ok (d :: ds)

/-- Payload length of a request: `1` for a read, `1 + len(data)` for a write (42 R161). -/
def requestLen (isWrite : Bool) (data : List Byte) : Nat := if isWrite then 1 + data.length else 1

end Sys2Proof.Machine
end

