-- ==== Sys2Proof/Machine/Flags.lean ====
section
/-! DEFINITION. Status codes, the host-visible STATUS view (10_state R40 to R47), the result of an operation (R28) and what
the host may read of it (44_host_ops R212). The numeric codes are the spec's decision D11. -/

namespace Sys2Proof.Machine

/-- Codes of `FSTATUS` (R40). -/
def FStatus.code : FStatus → BitVec 3
  | .none => 0
  | .ok => 1
  | .badStartByte => 2
  | .invalidLength => 3
  | .checksumMismatch => 4

/-- Codes of `TRESULT` (R41). -/
def TResult.code : TResult → BitVec 2
  | .none => 0
  | .success => 1
  | .timeout => 2

/-- Codes of `SSTATUS` (R42). -/
def SStatus.code : SStatus → BitVec 2
  | .none => 0
  | .ok => 1
  | .notStreamData => 2

/-- Codes of `TSTATE` (R47). -/
def TState.code : TState → BitVec 2
  | .idle => 0
  | .await => 1
  | .success => 2
  | .timeout => 3

/-- Codes of `FAULT_REASON` (60_exceptions R236). -/
def FaultReason.code : FaultReason → BitVec 3
  | .none => 0
  | .noValidPacket => 1
  | .streamTruncated => 2
  | .pointCountOverCapacity => 3
  | .requestTooLong => 4
  | .badOp => 5

/-- `OPC` of an operation (30_encoding R100). -/
def Op.code : Op → BitVec 3
  | .none => 0
  | .cks => 1
  | .rdpkt => 2
  | .reqr => 3
  | .reqw => 4
  | .sdec => 5
  | .flush => 6

/-- The read-only view STATUS (R47). -/
structure Status where
  busy : Bool
  fstatus : BitVec 3
  tresult : BitVec 2
  sstatus : BitVec 2
  tstate : BitVec 2
  pktValid : Bool
  sfValid : Bool
  fault : Bool
  faultReason : BitVec 3
  deriving DecidableEq, Repr

/-- STATUS, which the host may sample whenever `BUSY = 0` (R47). -/
def State.status (s : State) : Option Status :=
  if s.busy then none
  else some ⟨s.busy, s.fstatus.code, s.tresult.code, s.sstatus.code, s.tstate.code, s.pktValid, s.sfValid, s.fault,
    s.faultReason.code⟩

/-- `ATTEMPTS` as the leftover the host may read after an operation (60_exceptions R249). 10_state R29 and R47 do not list it
among what the host sees, so it stands beside STATUS: DEDUCED (log 25). -/
def State.leftoverAttempts (s : State) : Option Nat := if s.busy then none else some s.attempts

/-- A telemetry frame as the host reads it (R26, R27). -/
structure StreamFrame where
  alarm : Int
  pps : Int
  fwd : Int
  mv : Int
  rev : Int
  total : Int
  count : Int
  start : Int
  dist : List Int
  deriving DecidableEq, Repr

/-- The number a register holds, read with the sign its field has in the layout (00_scope R15, R18; 30_encoding R106). -/
def signedBy {w : Nat} (f : FieldLoc) (v : BitVec w) : Int := if f.signed then v.toInt else v.toNat

/-- The `SF_*` registers, valid for the host only while `SF_VALID = 1` (R26, R44). Each scalar has the sign `SF_SIGNED_x`
gives it; under the layout of R106 these are the signs of R26. That a layout's sign stands where it differs from R26's is
a DESIGN CHOICE (log 22). SF_COUNT is a number of samples and is read without sign. Samples are read with `s16`
(30_encoding R107). -/
def State.frame (s : State) : Option StreamFrame :=
  let l := s.cfg.layout
  if s.sfValid then
    some ⟨signedBy l.alarm s.sfAlarm, signedBy l.pps s.sfPps, signedBy l.fwd s.sfFwd, signedBy l.mv s.sfMv,
      signedBy l.rev s.sfRev, signedBy l.total s.sfTotal, s.sfCount.toNat, signedBy l.start s.sfStart, s.sfDist.map s16⟩
  else none

/-- `n` bytes of RXBUF from index `i` on, if all of them hold a value. -/
def State.rxBytes (s : State) (i n : Nat) : Option (List Byte) :=
  match bufSlice s.cfg s.rxbuf i n with
  | .ok bs => some bs
  | .error _ => none

/-- The packet in RXBUF, `RXBUF[0 .. PLEN+5)`, while `PKT_VALID = 1` (R24, R43): what SDEC may be applied to (43 R191). What
the host may read of it is `State.hostPacket` and `State.hostPayload`. -/
def State.packet (s : State) : Option (List Byte) := if s.pktValid then s.rxBytes 0 (s.plen.toNat + 5) else none

/-! ## What the host may read after each operation, and until when (44_host_ops R212)

The host has no move while `BUSY = 1` (R211). `TRESULT` and `FSTATUS` are fields of STATUS. -/

/-- `CRC`, after a CKS until the next CKS, RDPKT, REQR or REQW is accepted. -/
def State.hostCrc (s : State) : Option Half := if !s.busy && s.crcShown then some s.crc else none

/-- `RXBUF[0 .. PLEN+5)`, after an RDPKT that ended `F_OK` until the next framing attempt starts. -/
def State.hostPacket (s : State) : Option (List Byte) :=
  if !s.busy && s.rxShown == .packet then s.rxBytes 0 (s.plen.toNat + 5) else none

/-- `RXBUF[3 .. 3+PLEN)`, the payload with its command identifier, after such an RDPKT or a REQR that ended `Success`
(42 R171), until the next framing attempt starts. -/
def State.hostPayload (s : State) : Option (List Byte) :=
  if !s.busy && s.rxShown != .none then s.rxBytes 3 s.plen.toNat else none

/-- RESULT: what an operation hands the host when it ends (R28). -/
inductive Result where
  | crc (c : Half)
  | packet (st : FStatus) (plen : BitVec 10) (rw : Bool) (bytes : List Byte)
  | frameError (st : FStatus)
  | response (plen : BitVec 10) (payload : List Byte)
  | transaction (r : TResult)
  | frame (f : StreamFrame)
  | streamError (st : SStatus)
  | nothing
  deriving DecidableEq, Repr

/-- The result of the operation that ended last (R28), `nothing` where it yields none: FLUSH, and an operation that ended in
a contract violation (60_exceptions R236). None while `BUSY = 1`. -/
def State.result (s : State) : Option Result :=
  if s.busy then none
  else if s.handed then
    some <| match s.op with
      | .none => .nothing
      | .cks => .crc s.crc
      | .rdpkt => match s.hostPacket with
        | some bs => .packet s.fstatus s.plen s.rw bs
        | none => .frameError s.fstatus
      | .reqr => match s.tresult, s.hostPayload with
        | .success, some bs => .response s.plen bs
        | r, _ => .transaction r
      | .reqw => .transaction s.tresult
      | .sdec => match s.frame with
        | some f => .frame f
        | none => .streamError s.sstatus
      | .flush => .nothing
  else some .nothing

end Sys2Proof.Machine
end

