-- ==== Sys2Proof/Machine/StreamDecoder.lean ====
section
/-! DEFINITION. SDEC, the stream decoder: 43_stream_decoder R190 to R202. -/

namespace Sys2Proof.Machine

/-- Fixed fields (R194): no range check, no scaling. SF_ALARM and SF_REV have 8 bits (10_state R26), so of a layout that gives
one of them two bytes, which the spec does not describe, they keep the low byte: DESIGN CHOICE (log 22). -/
def sdecFields (s : State) : Except Fault State := do
  let l := s.cfg.layout
  let alarm ← field s l.alarm
  let pps ← field s l.pps
  let fwd ← field s l.fwd
  let mv ← field s l.mv
  let rev ← field s l.rev
  let total ← field s l.total
  let count ← field s l.count
  let start ← field s l.start
  .ok { s with
    sfAlarm := lo8 alarm, sfPps := pps, sfFwd := fwd, sfMv := mv, sfRev := lo8 rev, sfTotal := total,
    sfCount := count, sfStart := start }

/-- Capacity test, then samples-inside-the-payload test, then the samples and completion (R195 to R198). -/
def sdecSamples (s : State) : Except Fault State :=
  if s.cfg.streamMaxPoints < s.sfCount.toNat then .ok (violation .pointCountOverCapacity s)
  else if s.plen.toNat < s.cfg.layout.fixed + 2 * s.sfCount.toNat then .ok (violation .streamTruncated s)
  else do
    let ds ← samples s s.cfg.layout.fixed s.sfCount.toNat
    .ok (finish { s with sfDist := ds, sstatus := .ok, sfValid := true })

/-- The decode after acceptance, in the order of R190: valid packet, command, minimum length, fields, samples. -/
def sdecDecode (s : State) : Except Fault State :=
  let s := { s with sfValid := false, sstatus := .none }
  if s.pktValid then do
    let c ← pay s 0
    if c ≠ s.cfg.streamCmdId then .ok (finish { s with sstatus := .notStreamData })
    else if s.plen.toNat < s.cfg.layout.fixed then .ok (violation .streamTruncated s)
    else do
      let s ← sdecFields s
      sdecSamples s
  else .ok (violation .noValidPacket s)

/-- SDEC (R190 to R202). -/
def execSdec (s : State) : Host.Outcome State Fault Refusal := whenIdle s (sdecDecode (accept .sdec s))

end Sys2Proof.Machine
end

