-- ==== Sys2Proof/Machine/Framer.lean ====
section
/-! DEFINITION. FRM, the packet framer, and RDPKT: 41_framer R140 to R154. -/

namespace Sys2Proof.Machine

/-- Start of a framing attempt (R141). The buffer's bytes lose their value: no byte of this attempt is written yet
(10_state R22; log 3), and what the host could read of it is gone (44_host_ops R212). -/
def frmStart (s : State) : State :=
  { s with pktValid := false, fstatus := .none, rxcnt := 0, fstate := .head, rxbuf := [], rxShown := .none }

/-- `RXBUF[RXCNT] <- b; RXCNT <- RXCNT + 1` (R142, R146). -/
def frmStore (b : Byte) (s : State) : Except Fault State := do
  let m ← bufWrite s.cfg s.rxbuf s.rxcnt b
  .ok { s with rxbuf := m, rxcnt := s.rxcnt + 1 }

/-- Up to `n` byte steps (R142, R146); stops where `ChRead()` holds, RXQ being empty (R149), and where the step's limit is
used up (20_memory R77; log 4). -/
def frmRead : Nat → State → Except Fault State
  | 0, s => .ok s
  | n + 1, s =>
    if s.spent then .ok s
    else
      match chRead s with
      | none => .ok s
      | some (b, s') => do
        let s'' ← frmStore b (spend s')
        frmRead n s''

/-- An attempt ends with status `st` (R140, R152). -/
def frmEnd (st : FStatus) (s : State) : State := { s with fstatus := st, fstate := .idle }

/-- Start byte test, header decode and length test, in that order (R143, R144, R145, R153). -/
def frmHeader (s : State) : Except Fault State := do
  let b ← bufRead s.cfg s.rxbuf 0
  if b ≠ startByte then .ok (frmEnd .badStartByte s)
  else do
    let h ← bufRead2 s.cfg s.rxbuf 1
    let s := { s with rw := hdrRw h, plen := hdrPlen h }
    if s.plen.toNat < 1 ∨ s.cfg.maxResponseSize - 5 < s.plen.toNat then .ok (frmEnd .invalidLength s)
    else .ok { s with fstate := .body }

/-- Checksum test and completion (R147). -/
def frmCheck (s : State) : Except Fault State := do
  let bs ← bufSlice s.cfg s.rxbuf 0 (3 + s.plen.toNat)
  let r ← bufRead2 s.cfg s.rxbuf (3 + s.plen.toNat)
  let s := { s with crc := cks bs }
  if s.crc ≠ r then .ok (frmEnd .checksumMismatch s)
  else .ok { frmEnd .ok s with pktValid := true }

/-- The body phase from wherever it stands: read up to `PLEN + 5` bytes, then test; holds if RXQ runs out (R146,
R147). -/
def frmBody (s : State) : Except Fault State := do
  let s ← frmRead (s.plen.toNat + 5 - s.rxcnt) s
  if s.rxcnt < s.plen.toNat + 5 then .ok s else frmCheck s

/-- The head phase from wherever it stands: read up to three bytes, then test and go on; holds if RXQ runs out
(R142 to R145). -/
def frmHead (s : State) : Except Fault State := do
  let s ← frmRead (3 - s.rxcnt) s
  if s.rxcnt < 3 then .ok s
  else do
    let s ← frmHeader s
    if s.fstate = .body then frmBody s else .ok s

/-- Go on with the framing attempt until it ends (`FSTATE = F_IDLE`) or holds (R31, R149). -/
def frmRun (s : State) : Except Fault State :=
  match s.fstate with
  | .idle => .ok s
  | .head => frmHead s
  | .body => frmBody s

/-- RDPKT's end: the host may read the packet if the attempt ended `F_OK`, the status alone otherwise (R151, R152;
44_host_ops R212). -/
def rdpktDeliver (s : State) : State := finish { s with rxShown := if s.pktValid then .packet else .none }

/-- RDPKT hands back its result when the attempt has ended (R140); a held attempt keeps `BUSY = 1` (R149). -/
def rdpktResume (s : State) : Except Fault State := do
  let s ← frmRun s
  .ok (if s.fstate = .idle then rdpktDeliver s else s)

/-- RDPKT's acceptance; an earlier CKS result in CRC is no longer the host's to read (44_host_ops R212). -/
def rdpktAccept (s : State) : State := { accept .rdpkt s with crcShown := false }

/-- RDPKT: accept, start an attempt, run it to its end or its hold (R140). -/
def rdpktRun (s : State) : Except Fault State := rdpktResume (frmStart (rdpktAccept s))

/-- RDPKT (R140 to R154). -/
def execRdpkt (s : State) : Host.Outcome State Fault Refusal := whenAtRest s (rdpktRun s)

end Sys2Proof.Machine
end

