-- ==== Sys2Proof/Machine/Transactor.lean ====
section
/-! DEFINITION. TXN, the command transactor, and REQR and REQW: 42_transactor R160 to R180. -/

namespace Sys2Proof.Machine

/-! ## Accept, build, sign, transmit -/

/-- Acceptance of a request that fits: `CMD`, `ISWR`, `TRESULT`, `BUSY`, `OP` (R161); an earlier CKS result in CRC is no
longer the host's to read (44_host_ops R212). -/
def txnAccept (o : Op) (isWrite : Bool) (cmd : Byte) (s : State) : State :=
  { accept o s with cmd := cmd, iswr := isWrite, tresult := .none, crcShown := false }

/-- Build: start byte, header, command identifier, data (R162). TXBUF holds only what this request writes (20_memory R70;
log 3). -/
def txnBuild (n : Nat) (data : List Byte) (s : State) : Except Fault State := do
  let m ← bufWrite s.cfg [] 0 startByte
  let m ← bufWrite2 s.cfg m 1 (hdrEncode s.cfg (plenField n) s.iswr)
  let m ← bufWrite s.cfg m 3 s.cmd
  let m ← if s.iswr then bufFill s.cfg m 4 data else .ok m
  .ok { s with txbuf := m }

/-- Sign: the checksum over everything preceding it, low byte first, and `TXLEN <- n + 5` (R163). -/
def txnSign (n : Nat) (s : State) : Except Fault State := do
  let bs ← bufSlice s.cfg s.txbuf 0 (3 + n)
  let m ← bufWrite2 s.cfg s.txbuf (3 + n) (cks bs)
  .ok { s with crc := cks bs, txbuf := m, txlen := n + 5 }

/-- The optional `ChFlush()` before the first byte (R164, 00_scope R14), in the step that accepts the request, whatever
its limit (log 4). -/
def txnFlush (s : State) : State := if s.cfg.flushOnRequest then spend (chFlush s) else s

/-- `n` more `ChSend(TXBUF[TXCNT])`, in buffer order (R164), as far as the step's limit goes (20_memory R77; log 4). -/
def txnSend : Nat → State → Except Fault State
  | 0, s => .ok s
  | n + 1, s =>
    if s.spent then .ok s
    else do
      let b ← bufRead s.cfg s.txbuf s.txcnt
      txnSend n (spend { chSend b s with txcnt := s.txcnt + 1 })

/-- Enter the wait: `TSTATE <- T_AWAIT; ATTEMPTS <- 0` (R165). -/
def txnAwait (s : State) : State := { s with tstate := .await, attempts := 0 }

/-- Transmit what is left of the packet, and enter the wait when all of it has gone (R164, R165). While `TXCNT < TXLEN` the
request is still transmitting (10_state R33). -/
def txnTransmit (s : State) : Except Fault State := do
  let s ← txnSend (s.txlen - s.txcnt) s
  .ok (if s.txcnt < s.txlen then s else txnAwait s)

/-- The sending half of a request: accept, or `CV_RequestTooLong` with nothing sent; build, sign, transmit, enter the wait
(R161 to R165). -/
def txnRequest (o : Op) (isWrite : Bool) (cmd : Byte) (data : List Byte) (s : State) : Except Fault State :=
  let n := requestLen isWrite data
  if s.cfg.maxResponseSize - 5 < n then .ok (violation .requestTooLong s)
  else do
    let s ← txnBuild n data (txnAccept o isWrite cmd s)
    let s ← txnSign n s
    txnTransmit { txnFlush s with txcnt := 0 }

/-! ## The poll loop -/

/-- `TSTATE <- T_SUCCESS; TRESULT <- Success` (R171). The payload is the host's to read after a read request; after a write
request only TRESULT is (44_host_ops R212). -/
def txnSuccess (s : State) : State :=
  { s with tstate := .success, tresult := .success, rxShown := if s.iswr then .none else .payload }

/-- `TSTATE <- T_TIMEOUT; TRESULT <- Timeout` (R172). -/
def txnTimeout (s : State) : State := { s with tstate := .timeout, tresult := .timeout }

/-- Deliver: `TSTATE <- T_IDLE; BUSY <- 0` (R173). -/
def txnDeliver (s : State) : State := finish { s with tstate := .idle }

/-- Correlation: `FSTATUS = F_OK` and `RXBUF[3] = CMD`, and nothing else (R170, R177). -/
def txnMatched (s : State) : Except Fault Bool :=
  if s.fstatus = .ok then do
    let b ← bufRead s.cfg s.rxbuf 3
    .ok (b == s.cmd)
  else .ok false

/-- The budget test at the end of an iteration without a match: `Timeout`, or the next iteration `next` (R172). -/
def txnBudget (next : State → Except Fault State) (s : State) : Except Fault State :=
  if s.attempts = s.cfg.nAttempts then .ok (txnDeliver (txnTimeout s)) else next s

/-- The rest of an iteration from its framing attempt on: a hold inside the attempt (R175), a match (R170, R171), or the
budget test (R172). -/
def txnFinishAttempt (next : State → Except Fault State) (s : State) : Except Fault State := do
  let s ← frmRun s
  if s.fstate ≠ .idle then .ok s
  else do
    let hit ← txnMatched s
    if hit then .ok (txnDeliver (txnSuccess s)) else txnBudget next s

/-- The top of an iteration: count (R167), then sleep (R168). -/
def txnTick (s : State) : State := sleep { s with attempts := s.attempts + 1 }

/-- At most `n` iterations of the poll loop (R166 to R172). `n` is always what the budget leaves, `N_ATTEMPTS - ATTEMPTS`;
with none left and no result (only where R35 is broken) nothing is enabled (log 17). An iteration starts only within the
step's limit, and its `ChCanRead()` counts as one primitive (20_memory R77; log 4). -/
def txnPoll : Nat → State → Except Fault State
  | 0, s => .ok s
  | n + 1, s =>
    if s.spent then .ok s
    else
      let s := spend (txnTick s)
      if chCanRead s then txnFinishAttempt (txnPoll n) (frmStart s)
      else txnBudget (txnPoll n) s

/-- The poll loop from the iterations already counted. -/
def txnLoop (s : State) : Except Fault State := txnPoll (s.cfg.nAttempts - s.attempts) s

/-- Go on with a request from wherever it stands (R33, R175): transmitting, between two iterations, inside a framing
attempt, or with its result still to be delivered. -/
def txnResume (s : State) : Except Fault State :=
  match s.tstate with
  | .idle => do
    let s ← txnTransmit s
    if s.tstate = .await then txnLoop s else .ok s
  | .await =>
    match s.fstate with
    | .idle => txnLoop s
    | _ => txnFinishAttempt txnLoop s
  | .success => .ok (txnDeliver s)
  | .timeout => .ok (txnDeliver s)

/-- Go on with the operation in progress until it ends or holds; an idle engine does nothing (R36, 44 R211). CKS, SDEC and
FLUSH end in the step that accepts them. -/
def proceed (s : State) : Except Fault State :=
  if s.busy then
    match s.op with
    | .rdpkt => rdpktResume s
    | .reqr => txnResume s
    | .reqw => txnResume s
    | _ => .ok s
  else .ok s

/-- REQR or REQW whole: the sending half, then the wait (R160). -/
def txnRun (o : Op) (isWrite : Bool) (cmd : Byte) (data : List Byte) (s : State) : Except Fault State := do
  let s ← txnRequest o isWrite cmd data s
  proceed s

/-- REQR (R160 to R180). -/
def execReqr (cmd : Byte) (s : State) : Host.Outcome State Fault Refusal := whenAtRest s (txnRun .reqr false cmd [] s)

/-- REQW (R160 to R180). -/
def execReqw (cmd : Byte) (data : List Byte) (s : State) : Host.Outcome State Fault Refusal :=
  whenAtRest s (txnRun .reqw true cmd data s)

end Sys2Proof.Machine
end

