-- ==== Sys2Proof/Machine/HostOps.lean ====
section
/-! DEFINITION. CKS, FLUSH and the two codes that select no operation: 40_checksum R121, R125; 44_host_ops R210;
30_encoding R101. -/

namespace Sys2Proof.Machine

/-- `CRC <- Cks(data)` (R121), the host's to read from now on (44_host_ops R212). -/
def cksUpdate (data : List Byte) (s : State) : State := { s with crc := cks data, crcShown := true }

/-- CKS: accept, compute, deliver (R121, R125). -/
def execCks (data : List Byte) (s : State) : Host.Outcome State Fault Refusal :=
  whenIdle s (.ok (finish (cksUpdate data (accept .cks s))))

/-- FLUSH: accept, `ChFlush()`, deliver (R210). -/
def execFlush (s : State) : Host.Outcome State Fault Refusal :=
  whenIdle s (.ok (finish (chFlush (accept .flush s))))

/-- OP.NONE: no operation is presented (R101), so the engine goes on with the operation in progress, if there is one. -/
def execOpNone (s : State) : Host.Outcome State Fault Refusal := outcome (proceed s)

/-- OP.RESERVED: refused, no step, `fault CV_BadOp` (R101, 60_exceptions R236). -/
def execOpReserved (s : State) : Host.Outcome State Fault Refusal := whenIdle s (.ok (violation .badOp s))

end Sys2Proof.Machine
end

