-- ==== Sys2Proof/Machine/Wire.lean ====
section
/-! DEFINITION. The packet rows of the opcode table: 30_encoding R90, R102; 42_transactor R162 to R165, R169 to R173;
43_stream_decoder R201; 20_memory R66 (log 8).

A packet the device sends arrives: its bytes join RXQ, and the unit that waits for them goes on. RDPKT frames it, a request
in flight frames and correlates it, and an idle engine leaves it in RXQ (60_exceptions R240). A packet the PE sends is the
sending half of its request. -/

namespace Sys2Proof.Machine

/-- The device agent appends these bytes and the engine goes on (R66). -/
def deliver (bs : List Byte) (s : State) : Host.Outcome State Fault Refusal := outcome (proceed (arrive bs s))

/-- PKT: a packet from the device arrives (R90, R102). -/
def execPkt (p : Packet) (s : State) : Host.Outcome State Fault Refusal := deliver p.bytes s

/-- PKT.RESP: a packet from the device arrives and the transaction in flight takes it for its response (R170, R171). -/
def execPktResp (p : Packet) (s : State) : Host.Outcome State Fault Refusal := deliver p.bytes s

/-- PKT.STREAM: a stream frame arrives (R201); SDEC decodes it once it has been framed (R194). -/
def execPktStream (f : StreamPacket) (s : State) : Host.Outcome State Fault Refusal := deliver f.packet.bytes s

/-- PKT.RDREQ: the read request goes out, up to the wait (R161 to R165). The checksum on the wire is the one TXN computes
(R163), whatever the term carries. The reserved bits on the wire are TX_RESERVED (R162, 30_encoding R97), though the row's
bits fix 0: DESIGN CHOICE where TX_RESERVED is not 0 (log 28). -/
def execPktRdreq (cmd : Byte) (_ck : Half) (s : State) : Host.Outcome State Fault Refusal :=
  whenAtRest s (txnRequest .reqr false cmd [] s)

/-- PKT.WRREQ: the write request goes out, up to the wait (R161 to R165). PLEN is `1 + len(data)` (R162) and the checksum
the one TXN computes (R163), whatever the term carries. The reserved bits are TX_RESERVED, as in `execPktRdreq` (log 28). -/
def execPktWrreq (_plen : BitVec 10) (cmd : Byte) (data : List Byte) (_ck : Half) (s : State) :
    Host.Outcome State Fault Refusal :=
  whenAtRest s (txnRequest .reqw true cmd data s)

end Sys2Proof.Machine
end

