-- ==== Sys2Proof/Machine/Dispatch.lean ====
section
/-! DEFINITION. One arm per row of spec/opcode_table.json. -/

namespace Sys2Proof.Machine

def exec (i : Instr) (s : State) : Host.Outcome State Fault Refusal :=
  match i with
  | .cks data => Sys2Proof.Machine.execCks data s
  | .rdpkt => Sys2Proof.Machine.execRdpkt s
  | .reqr cmd => Sys2Proof.Machine.execReqr cmd s
  | .reqw cmd data => Sys2Proof.Machine.execReqw cmd data s
  | .sdec => Sys2Proof.Machine.execSdec s
  | .flush => Sys2Proof.Machine.execFlush s
  | .opNone => Sys2Proof.Machine.execOpNone s
  | .opReserved => Sys2Proof.Machine.execOpReserved s
  | .pkt p => Sys2Proof.Machine.execPkt p s
  | .pktRdreq cmd ck => Sys2Proof.Machine.execPktRdreq cmd ck s
  | .pktWrreq plen cmd data ck => Sys2Proof.Machine.execPktWrreq plen cmd data ck s
  | .pktResp p => Sys2Proof.Machine.execPktResp p s
  | .pktStream f => Sys2Proof.Machine.execPktStream f s

end Sys2Proof.Machine
end

