-- ==== Sys2Proof/Machine/Fetch.lean ====
section
/-! DEFINITION. Where the next instruction comes from: the host's port when the engine is free, else the channel's far end
(44_host_ops R211, 70 R270, 20_memory R66; logs 5, 6 and 9). The engine has no program counter (10_state R30). -/

namespace Sys2Proof.Machine

/-- The context in which bytes from the device are read: the command awaited in `T_AWAIT`, and `STREAM_CMD_ID` (R102). -/
def rxSide (s : State) : Side :=
  .rx (if s.tstate = .await then some s.cmd else none) (some s.cfg.streamCmdId)

/-- The operation at the head of the port; the device agent has its turn first (R66). -/
def fetchPort (w : List Byte) (rest : List (List Byte)) (s : State) : Except DecodeError (Instr × State) :=
  match decodePort w with
  | .ok i => .ok (i, deviceTurn { s with port := rest })
  | .error e => .error e

/-- No operation presented: the device's next bytes, a whole packet or any others (R66), or nothing. -/
def fetchWire (s : State) : Instr × State :=
  match s.devq with
  | [] => (.opNone, s)
  | bs :: rest =>
    match decode (rxSide s) bs with
    | .ok i => (i, { s with devq := rest })
    | .error _ => (.opNone, arrive bs { s with devq := rest })

/-- The next instruction and the state it runs in. While `BUSY = 1` the host has no move (R270). -/
def fetch (s : State) : Except DecodeError (Instr × State) :=
  if s.busy then .ok (fetchWire s)
  else
    match s.port with
    | [] => .ok (fetchWire s)
    | w :: rest => fetchPort w rest s

/-- `s` with an instruction's bytes where `fetch` reads them next: an operation or a request's packet at the head of the
host's port, with no operation in progress; any other packet as the device's next bytes, with nothing at the port. -/
def placeWord (bs : List Byte) (s : State) : State :=
  match decodePort bs with
  | .ok _ => { s with port := bs :: s.port, busy := false, fstate := .idle, tstate := .idle }
  | .error _ => { s with port := [], devq := bs :: s.devq }

end Sys2Proof.Machine
end

