-- ==== Sys2Proof/Machine/Step.lean ====
section
/-! DEFINITION. One step: fetch, then the instruction's meaning. -/

namespace Sys2Proof.Machine

/-- A step in which the engine runs: the next operation, packet, or nothing, to its end, its hold, or the step's limit. -/
def runStep (s : State) : Host.Outcome State Fault Refusal :=
  match fetch s with
  | .ok (i, s') => exec i s'
  | .error e => .refused (.badWord e)

/-- One step of the machine: what the schedule says (log 4). With limit 1 it is the spec's step, one channel primitive
(00_scope R7). -/
def step (s : State) : Host.Outcome State Fault Refusal :=
  match s.sched with
  | .reset :: rest => .next (resetPE { s with sched := rest })
  | .run limit :: rest => runStep { s with quota := limit, sched := rest }
  | [] => runStep { s with quota := none }

/-- `s` with the instruction of a table word stored where `step` fetches its next instruction, the next step running it
whole. -/
def State.withFetchWord (s : State) (nbits w : Nat) : State :=
  placeWord (tableBytes nbits w) { s with sched := .run none :: s.sched }

end Sys2Proof.Machine
end

