-- ==== Sys2Proof/Safety.lean ====
section
/-! DEFINITION. The invariant of the engine at rest between steps, in the terms claims use: 10_state R22, R23, R31 to R45,
R55; and what a good state is (60_exceptions R236, R246). -/

namespace Sys2Proof.Machine

/-- A buffer holds exactly the bytes at the indices below `n`, in canonical form, all of them existing indices
(R22, R23, R38). -/
def Mem.filled (c : Cfg) (m : Mem) (n : Nat) : Prop :=
  m.wf = true ∧ n ≤ c.maxResponseSize ∧ ∀ i, (m.read i).isSome = decide (i < n)

/-- A payload length the framer accepts (R92, R145). -/
abbrev legalPlen (c : Cfg) (p : BitVec 10) : Prop := 1 ≤ p.toNat ∧ p.toNat ≤ c.maxResponseSize - 5

/-- A request is in progress. -/
abbrev State.requesting (s : State) : Prop := s.busy = true ∧ (s.op = .reqr ∨ s.op = .reqw)

/-- What holds of the engine between two steps. -/
structure State.Inv (s : State) : Prop where
  /-- `Cfg` is within its constraints (R8, R11; 70 R262), its layout within the model's (log 27). -/
  cfgOk : s.cfg.ok = true
  /-- RXBUF holds `RXCNT` bytes (R22, R32). -/
  rx : Mem.filled s.cfg s.rxbuf s.rxcnt
  /-- TXBUF holds `TXLEN` bytes (R23). -/
  tx : Mem.filled s.cfg s.txbuf s.txlen
  /-- `TXCNT <= TXLEN` (R34). -/
  txcnt_le : s.txcnt ≤ s.txlen
  /-- `ATTEMPTS <= N_ATTEMPTS` (R35). -/
  attempts_le : s.attempts ≤ s.cfg.nAttempts
  /-- An attempt in its head phase waits for one of its three bytes (R142). -/
  head : s.fstate = .head → s.rxcnt < 3
  /-- An attempt in its body phase has a legal length and waits for a byte of payload or checksum (R145, R146). -/
  body : s.fstate = .body → legalPlen s.cfg s.plen ∧ s.rxcnt < s.plen.toNat + 5
  /-- A running attempt belongs to an operation in progress, and to a transaction only while it awaits (R31, R37). -/
  running : s.fstate ≠ .idle → s.busy = true ∧ (s.op = .rdpkt ∨ s.tstate = .await)
  /-- A running attempt has no outcome yet (R40, R141). -/
  noOutcome : s.fstate ≠ .idle → s.fstatus = .none
  /-- `PKT_VALID = 1` exactly when the last attempt ended `F_OK` (R43). -/
  valid_iff : s.pktValid = true ↔ s.fstatus = .ok
  /-- A valid packet lies whole in RXBUF (R43, R151). -/
  valid : s.pktValid = true → legalPlen s.cfg s.plen ∧ s.rxcnt = s.plen.toNat + 5
  /-- The transient result states are left in the step that enters them (R33, R47). -/
  resting : s.tstate = .idle ∨ s.tstate = .await
  /-- A transaction awaits only under REQR or REQW, and with budget left between two iterations (R33, R36, R172). -/
  awaiting : s.tstate = .await → s.requesting ∧ (s.fstate = .idle → s.attempts < s.cfg.nAttempts)
  /-- Only RDPKT, REQR and REQW can be in progress between steps (R36, R149). -/
  busyOp : s.busy = true → s.op = .rdpkt ∨ s.op = .reqr ∨ s.op = .reqw
  /-- The samples of a valid frame are SF_COUNT many and within capacity (R27, R44, 43 R195). -/
  frame : s.sfValid = true →
    s.sstatus = .ok ∧ s.sfDist.length = s.sfCount.toNat ∧ s.sfCount.toNat ≤ s.cfg.streamMaxPoints
  /-- `SF_VALID = 1` whenever the last SDEC ended `S_OK` (R44). -/
  frameOk : s.sstatus = .ok → s.sfValid = true
  /-- The host reads of RXBUF only where a valid packet lies (R24, 44_host_ops R212). -/
  shown : s.rxShown ≠ .none → s.pktValid = true
  /-- `FAULT` and `FAULT_REASON` agree (R45, 60 R236). -/
  faultReason : s.fault = true ↔ s.faultReason ≠ .none

/-- A state a successful run may end in: no contract violation recorded (60_exceptions R236, R246). -/
abbrev State.good (s : State) : Prop := s.fault = false

/-- The environment is silent from here on: nothing unread, and nothing more to come (R172). -/
abbrev State.silent (s : State) : Prop := s.rxq = [] ∧ ∀ bs ∈ s.devq, bs = []

/-- The step in progress has no limit: it runs an operation to its end or its hold (log 4). -/
abbrev State.unlimited (s : State) : Prop := s.quota = none

/-- No operation is in progress and both units are at rest. -/
abbrev State.atRest (s : State) : Prop := s.busy = false ∧ s.fstate = .idle ∧ s.tstate = .idle

/-- An operation can be accepted and runs to its end or its hold. -/
abbrev State.ready (s : State) : Prop := s.atRest ∧ s.unlimited

/-- The next step is not a reset. -/
abbrev State.running (s : State) : Prop := s.sched.head? ≠ some .reset

/-- The iterations the request in progress has counted: none while it is still transmitting, for ATTEMPTS is then a leftover
(10_state R35; 42_transactor R165, R173). -/
def State.polls (s : State) : Nat := if s.requesting ∧ s.tstate = .idle then 0 else s.attempts

/-- Bytes that the device has sent or will send and the engine has not taken. -/
def State.unread (s : State) : Nat := s.rxq.length + s.devq.flatten.length

/-- From `s` to `t` at most `n` channel primitives: bytes sent, iterations polled in, and bytes taken (20_memory R77). -/
def State.performs (s t : State) (n : Nat) : Prop :=
  ∃ sent polled taken, t.txlog.length = s.txlog.length + sent ∧ t.polls = s.polls + polled ∧ s.unread = t.unread + taken
    ∧ sent + polled + taken ≤ n

/-- `s` as a step in which the engine runs takes it up: its slot of the schedule is taken, and gives its limit (log 4). -/
def State.entered (s : State) : State :=
  match s.sched with
  | .run limit :: rest => { s with quota := limit, sched := rest }
  | _ => { s with quota := none }

/-! ## What the rules say an operation leaves, written as record updates -/

/-- `s` after an attempt that framed `p` (41_framer R140, R147, R151): the packet's bytes in RXBUF and its fields in PLEN
and RW. -/
def State.framed (s : State) (p : Packet) : State :=
  { s with
    rxbuf := Mem.ofBytes p.bytes, rxcnt := p.plen.toNat + 5, plen := p.plen, rw := p.rw, crc := p.ck
    fstate := .idle, fstatus := .ok, pktValid := true, rxShown := .none }

/-- `s` after an attempt that read the bytes `bs` and ended with the error `st` (41_framer R152). -/
def State.misframed (s : State) (st : FStatus) (bs : List Byte) : State :=
  { s with
    rxbuf := Mem.ofBytes bs, rxcnt := bs.length, fstate := .idle, fstatus := st, pktValid := false, rxShown := .none }

/-- A framing attempt over `input` that a transaction in state `s` discards, leaving `v` and the bytes `rest`: a good packet
with another command, or one of the three framing errors (42_transactor R174). -/
def State.discards (s v : State) (input rest : List Byte) : Prop :=
  (∃ p : Packet, p.wf s.cfg = true ∧ p.cmd ≠ s.cmd ∧ input = p.bytes ++ rest ∧ v = s.framed p)
  ∨ (∃ b0 b1 b2, b0 ≠ startByte ∧ input = b0 :: b1 :: b2 :: rest ∧ v = s.misframed .badStartByte [b0, b1, b2])
  ∨ (∃ b1 b2, ¬ legalPlen s.cfg (hdrPlen (le16 b1 b2)) ∧ input = startByte :: b1 :: b2 :: rest ∧
      v = { s.misframed .invalidLength [startByte, b1, b2] with plen := hdrPlen (le16 b1 b2), rw := hdrRw (le16 b1 b2) })
  ∨ ∃ p : Packet, p.lenOk = true ∧ p.fits s.cfg = true ∧ p.ck ≠ cks (packetHead p.hdr p.payload) ∧
      input = p.bytes ++ rest ∧
      v = { s.misframed .checksumMismatch p.bytes with
        plen := p.plen, rw := p.rw, crc := cks (packetHead p.hdr p.payload) }

/-- `s` after an RDPKT has ended, the host reading `shown` of RXBUF (41_framer R140; 44_host_ops R212). -/
def State.rdpktEnded (s : State) (shown : RxShown) : State :=
  { s with op := .rdpkt, busy := false, handed := true, crcShown := false, rxShown := shown }

/-- `s` while an RDPKT that has been accepted holds (41_framer R149). -/
def State.rdpktHeld (s : State) : State := { s with op := .rdpkt, busy := true, crcShown := false, rxShown := .none }

/-- `s` after a contract violation (60_exceptions R236): the first fault's reason stands, and no result is handed over. -/
def State.violated (s : State) (r : FaultReason) : State :=
  { s with fault := true, faultReason := if s.fault then s.faultReason else r, handed := false }

/-- `s` after a request's packet has been sent and the wait entered (42_transactor R161 to R165). -/
def State.sent (s : State) (o : Op) (isWrite : Bool) (cmd : Byte) (data : List Byte) : State :=
  let hdr := hdrEncode s.cfg (plenField (1 + data.length)) isWrite
  let pkt := packetBytes hdr (cmd :: data) (cks (packetHead hdr (cmd :: data)))
  { s with
    busy := true, op := o, cmd := cmd, iswr := isWrite, tresult := .none
    txbuf := Mem.ofBytes pkt, txlen := data.length + 6, txcnt := data.length + 6
    crc := cks (packetHead hdr (cmd :: data))
    rxq := if s.cfg.flushOnRequest then [] else s.rxq
    txlog := s.txlog ++ pkt, tstate := .await, attempts := 0, crcShown := false }

/-- `s` after its request was delivered as `Success` (42_transactor R171, R173). -/
def State.succeeded (s : State) : State :=
  { s with
    tresult := .success, tstate := .idle, busy := false, handed := true, rxShown := if s.iswr then .none else .payload }

/-- `s` after its request was delivered as `Timeout` (42_transactor R172, R173). -/
def State.timedOut (s : State) : State :=
  { s with tresult := .timeout, tstate := .idle, busy := false, handed := true }

/-- `s` after SDEC decoded the frame `f` (43_stream_decoder R194 to R198). -/
def State.decoded (s : State) (f : StreamPacket) : State :=
  { s with
    op := .sdec, busy := false, handed := true, sstatus := .ok, sfValid := true
    sfAlarm := f.alarm, sfPps := f.pps, sfFwd := f.fwd, sfMv := f.mv, sfRev := f.rev, sfTotal := f.total
    sfCount := f.count, sfStart := f.start, sfDist := f.dist }

/-- An RDPKT that has been accepted and holds for its first byte (41_framer R141, R149). -/
abbrev State.waitingRdpkt (s : State) : Prop :=
  s.busy = true ∧ s.op = .rdpkt ∧ s.fstate = .head ∧ s.rxcnt = 0 ∧ s.rxbuf = [] ∧ s.rxq = [] ∧ s.fstatus = .none
    ∧ s.pktValid = false ∧ s.crcShown = false ∧ s.unlimited

/-- A transaction that awaits its response, between two iterations (42_transactor R165, R166). -/
abbrev State.awaitingResponse (s : State) : Prop :=
  s.requesting ∧ s.tstate = .await ∧ s.fstate = .idle ∧ s.attempts < s.cfg.nAttempts ∧ s.unlimited

end Sys2Proof.Machine
end

