-- ==== Sys2Proof/Certificates/Slice0/Obligations.lean ====
section
/-! DEFINITION. The statements for the provers. Each docstring names the rules of spec/ it formalises. -/

open Sys2Proof Sys2Proof.Machine Host

/-! ## Encodings -/

/-- R90, R92, R97, R100, R102, R106: every well-formed instruction is read back from its own bytes, on the side R102 names
for it. The byte layout of a presented operation is the model's (log 6), so are the sides (log 9). -/
def Obligations.DecodeReadsBackEveryEncoding : Prop :=
  ∀ (c : Cfg) (i : Instr), i.wf c = true → decode i.side (encode i) = .ok i

/-- R90, R93, R100, R106: whatever the decoder reads, encoding it gives the same bytes back: no bit is dropped. -/
def Obligations.EncodeGivesBackDecodedBytes : Prop :=
  ∀ (side : Side) (bs : List Byte) (i : Instr), decode side bs = .ok i → encode i = bs

/-- Words written out from the spec's tables: the eight OPC codes of R100 and R101, the packets E20, E21, E27 and E35, and
the stream frame D1, on the side of each. That an operation is presented as its OPC byte and then its operands is the
model's (log 6), so are the sides (log 9). -/
def Obligations.SpecWordsDecode : Prop :=
  decode .host [0b000] = .ok .opNone
  ∧ decode .host [0b001, 0xAA, 0x00] = .ok (.cks [0xAA, 0x00])
  ∧ decode .host [0b010] = .ok .rdpkt
  ∧ decode .host [0b011, 0x1E] = .ok (.reqr 0x1E)
  ∧ decode .host [0b100, 0x1E, 0x05] = .ok (.reqw 0x1E [0x05])
  ∧ decode .host [0b101] = .ok .sdec
  ∧ decode .host [0b110] = .ok .flush
  ∧ decode .host [0b111] = .ok .opReserved
  ∧ decode .host [0x04, 0x1E, 0x05] = .ok (.reqw 0x1E [0x05])
  ∧ decode .tx [0xAA, 0x40, 0x00, 0x03, 0x13, 0xAF] = .ok (.pktRdreq 0x03 0xAF13)
  ∧ decode .tx [0xAA, 0x41, 0x01, 0x1E, 0x05, 0x00, 0x00, 0x00, 0x0F, 0x40]
      = .ok (.pktWrreq 5 0x1E [0x05, 0x00, 0x00, 0x00] 0x400F)
  ∧ decode (.rx (some 0x0C) none) [0xAA, 0x40, 0x00, 0x0C, 0xFC, 0x5E] = .ok (.pktResp ⟨false, 0, 1, 0x0C, [], 0x5EFC⟩)
  ∧ decode (.rx none none) [0xAA, 0xBE, 0x00, 0x03, 0x10, 0x23, 0x78]
      = .ok (.pkt ⟨false, 0b11111, 2, 0x03, [0x10], 0x7823⟩)
  ∧ decode (.rx none (some 0x30))
      [0xAA, 0xC0, 0x04, 0x30, 0x81, 0x2A, 0x4E, 0xFB, 0xFF, 0xB0, 0x04, 0xFF, 0x84, 0x01, 0x02, 0x00, 0x82, 0x01,
        0x64, 0x00, 0xCE, 0xFF, 0x9B, 0xA1]
      = .ok (.pktStream
        ⟨false, 0, 19, 0x30, 0x81, 0x4E2A, 0xFFFB, 0x04B0, 0xFF, 0x0184, 2, 0x0182, [0x0064, 0xFFCE], [], 0xA19B⟩)

/-- R97: the header word is the three fields shifted and ORed, and its length and flag are read back from it; with
`TX_RESERVED = 0` the four example words, and their bytes on the wire. -/
def Obligations.HeaderEncodeAndDecode : Prop :=
  (∀ (c : Cfg) (p : BitVec 10) (r : Bool),
    hdrEncode c p r = ((p.setWidth 16 <<< 6) ||| (c.txReserved.setWidth 16 <<< 1) ||| (BitVec.ofBool r).setWidth 16)
    ∧ hdrPlen (hdrEncode c p r) = p ∧ hdrRw (hdrEncode c p r) = r)
  ∧ (∀ h : Half, hdrPlen h = h.extractLsb' 6 10 ∧ hdrRw h = h.getLsbD 0)
  ∧ ∀ c : Cfg, c.txReserved = 0 →
    hdrEncode c 1 false = 0x0040 ∧ hdrEncode c 1 true = 0x0041 ∧ hdrEncode c 5 true = 0x0141
      ∧ hdrEncode c 1023 true = 0xFFC1
      ∧ [lo8 (hdrEncode c 1 false), hi8 (hdrEncode c 1 false)] = [0x40, 0x00]
      ∧ [lo8 (hdrEncode c 1 true), hi8 (hdrEncode c 1 true)] = [0x41, 0x00]
      ∧ [lo8 (hdrEncode c 5 true), hi8 (hdrEncode c 5 true)] = [0x41, 0x01]
      ∧ [lo8 (hdrEncode c 1023 true), hi8 (hdrEncode c 1023 true)] = [0xC1, 0xFF]

/-! ## CKS -/

/-- R124: one step of the checksum is eight steps of the bit-serial division by 0x1021, most significant bit first; the
value on the nine bytes "123456789" is 0x31C3; and with the checksum appended low byte first the whole is not zero in
general. -/
def Obligations.ChecksumStepIsBitSerialDivision : Prop :=
  (∀ (crc : Half) (b : Byte), cksStep crc b = crcByte crc b)
  ∧ cks [0x31, 0x32, 0x33, 0x34, 0x35, 0x36, 0x37, 0x38, 0x39] = 0x31C3
  ∧ ∃ data : List Byte, cks (data ++ [lo8 (cks data), hi8 (cks data)]) ≠ 0

/-- R120: the closed form, with `x = hi8(crc) XOR b` and `y = x XOR (x >> 4)`. -/
def Obligations.ChecksumStepClosedForm : Prop :=
  ∀ (crc : Half) (b : Byte),
    let x := hi8 crc ^^^ b
    let y := (x ^^^ (x >>> 4)).setWidth 16
    cksStep crc b = (crc <<< 8) ^^^ y ^^^ (y <<< 5) ^^^ (y <<< 12)

/-- R121, R123, R124: the checksum folds incrementally (R123), leading zero bytes do not change it (derived in R121), and it
vanishes over data followed by its own checksum high byte first (a law of the polynomial of R124, 95_test_vectors section
3.3). -/
def Obligations.ChecksumFoldLaws : Prop :=
  (∀ s t : List Byte, cks (s ++ t) = t.foldl cksStep (cks s))
  ∧ (∀ s : List Byte, cks (0 :: s) = cks s)
  ∧ ∀ s : List Byte, cks (s ++ [hi8 (cks s), lo8 (cks s)]) = 0

/-- R121, R125: CKS leaves the checksum of its operand in CRC and changes no other register but OP. The model's own tags
of what the host may read (log 26) are left open here. -/
def Obligations.CksWritesOnlyTheChecksum : Prop :=
  ∀ (s : State) (data : List Byte), s.busy = false →
    ∃ handed shown, exec (.cks data) s =
      .next { s with crc := data.foldl cksStep 0, op := .cks, handed := handed, crcShown := shown }

/-! ## FRM and RDPKT -/

/-- R140, R142 to R147, R148, R151: with a packet of a legal length and the right checksum at the head of RXQ, RDPKT frames
it, consumes exactly its bytes, hands it over, and changes nothing else. -/
def Obligations.RdpktFramesAPacket : Prop :=
  ∀ (s : State) (p : Packet) (rest : List Byte), s.ready → s.cfg.ok = true → p.wf s.cfg = true →
    s.rxq = p.bytes ++ rest →
    exec .rdpkt s = .next { (s.framed p).rdpktEnded .packet with rxq := rest }

/-- R143, R148, R152, R153, R231: a wrong first byte is `BadStartByte` after exactly three bytes, whatever the other two
are; PLEN and RW are not written. The second clause says so of every attempt in its head phase, however many of the three
bytes it already holds and whichever operation it belongs to. The model's own tags of what the host may read (log 26) are
left open here. -/
def Obligations.RdpktReportsBadStartByte : Prop :=
  (∀ (s : State) (b0 b1 b2 : Byte) (rest : List Byte), s.ready → s.cfg.ok = true → b0 ≠ 0xAA →
    s.rxq = b0 :: b1 :: b2 :: rest →
    ∃ handed crcShown rxShown, exec .rdpkt s = .next { s with
      op := .rdpkt, rxq := rest, rxbuf := Mem.ofBytes [b0, b1, b2], rxcnt := 3, fstatus := .badStartByte
      pktValid := false, handed := handed, crcShown := crcShown, rxShown := rxShown })
  ∧ ∀ (s : State) (pre rest : List Byte) (b0 b1 b2 : Byte), s.cfg.ok = true → s.fstate = .head →
    s.unlimited → s.rxbuf = Mem.ofBytes pre → s.rxcnt = pre.length → pre.length < 3 → b0 ≠ 0xAA →
    pre ++ s.rxq = b0 :: b1 :: b2 :: rest →
    frmRun s = .ok { s with
      rxq := rest, rxbuf := Mem.ofBytes [b0, b1, b2], rxcnt := 3, fstatus := .badStartByte, fstate := .idle }

/-- R144, R145, R148, R232: a length of 0 or above `MAX_RESPONSE_SIZE - 5` is `InvalidLength` after exactly three bytes;
PLEN and RW hold what was decoded; the rest of the packet stays in RXQ. -/
def Obligations.RdpktReportsInvalidLength : Prop :=
  ∀ (s : State) (b1 b2 : Byte) (rest : List Byte), s.ready → s.cfg.ok = true →
    ¬ legalPlen s.cfg (hdrPlen (le16 b1 b2)) → s.rxq = 0xAA :: b1 :: b2 :: rest →
    exec .rdpkt s = .next { (s.misframed .invalidLength [0xAA, b1, b2]).rdpktEnded .none with
      rxq := rest, plen := hdrPlen (le16 b1 b2), rw := hdrRw (le16 b1 b2) }

/-- R147, R148, R233: a packet of a legal length whose checksum bytes differ from the computed checksum is
`ChecksumMismatch` after exactly `PLEN + 5` bytes; CRC holds the computed value. -/
def Obligations.RdpktReportsChecksumMismatch : Prop :=
  ∀ (s : State) (p : Packet) (rest : List Byte), s.ready → s.cfg.ok = true →
    p.lenOk = true → p.fits s.cfg = true → p.ck ≠ cks (packetHead p.hdr p.payload) → s.rxq = p.bytes ++ rest →
    exec .rdpkt s = .next { (s.misframed .checksumMismatch p.bytes).rdpktEnded .none with
      rxq := rest, plen := p.plen, rw := p.rw, crc := cks (packetHead p.hdr p.payload) }

/-- R141, R142, R149: with fewer than three bytes to read RDPKT holds in its head phase, no byte examined. -/
def Obligations.RdpktHoldsInTheHead : Prop :=
  ∀ s : State, s.ready → s.cfg.ok = true → s.rxq.length < 3 →
    exec .rdpkt s = .next { s.rdpktHeld with
      rxq := [], rxbuf := Mem.ofBytes s.rxq, rxcnt := s.rxq.length, fstate := .head, fstatus := .none
      pktValid := false }

/-- R145, R146, R149: with a good head and fewer than `PLEN + 2` bytes after it RDPKT holds in its body phase. -/
def Obligations.RdpktHoldsInTheBody : Prop :=
  ∀ (s : State) (b1 b2 : Byte) (rest : List Byte), s.ready → s.cfg.ok = true →
    legalPlen s.cfg (hdrPlen (le16 b1 b2)) → s.rxq = 0xAA :: b1 :: b2 :: rest →
    rest.length < (hdrPlen (le16 b1 b2)).toNat + 2 →
    exec .rdpkt s = .next { s.rdpktHeld with
      rxq := [], rxbuf := Mem.ofBytes (0xAA :: b1 :: b2 :: rest), rxcnt := rest.length + 3
      plen := hdrPlen (le16 b1 b2), rw := hdrRw (le16 b1 b2), fstate := .body, fstatus := .none, pktValid := false }

/-- R63, R66, R149, R175: a hold loses nothing. However the bytes are cut, RDPKT on the first part, then going on when the
second part has arrived, is RDPKT on the whole; and a transaction inside a framing attempt that the first part does not end
goes on with the second part as with the whole. -/
def Obligations.HeldAttemptGoesOnWhereItStopped : Prop :=
  (∀ (s t : State) (bs₁ bs₂ : List Byte), s.atRest → s.rxq = bs₁ → exec .rdpkt s = .next t → t.busy = true →
    exec .opNone (arrive bs₂ t) = exec .rdpkt { s with rxq := bs₁ ++ bs₂ })
  ∧ ∀ (s t : State) (bs₁ bs₂ : List Byte), s.requesting → s.tstate = .await → s.fstate ≠ .idle →
    exec .opNone (arrive bs₁ s) = .next t → t.fstate ≠ .idle → t.attempts = s.attempts →
    exec .opNone (arrive bs₂ t) = exec .opNone (arrive (bs₁ ++ bs₂) s)

/-- R63, R149, R175, R238: a framing attempt that waits for a byte changes nothing until one arrives, under RDPKT and
inside a transaction alike: it neither fails nor times out. -/
def Obligations.HeldEngineWaits : Prop :=
  ∀ s : State, s.busy = true → s.rxq = [] → s.fstate ≠ .idle →
    (s.fstate = .head → s.rxcnt < 3) → (s.fstate = .body → s.rxcnt < s.plen.toNat + 5) →
    (s.op = .rdpkt ∨ ((s.op = .reqr ∨ s.op = .reqw) ∧ s.tstate = .await)) →
    exec .opNone s = .next s

/-! ## TXN, REQR and REQW -/

/-- R161 to R165, R172, R173, R176, R234 (S6): on a silent device REQR sends its one packet, counts exactly `N_ATTEMPTS`
iterations, reads nothing and ends `Timeout`; nothing else changes. -/
def Obligations.ReqrTimesOutOnASilentDevice : Prop :=
  ∀ (s : State) (cmd : Byte), s.ready → s.cfg.ok = true → s.silent →
    exec (.reqr cmd) s = .next
      { (s.sent .reqr false cmd []).timedOut with attempts := s.cfg.nAttempts, devq := s.devq.drop s.cfg.nAttempts }

/-- The same for REQW with data that fits (R161 to R165, R172, R173, R234). A length above 1023 is sent with the free
value of log 11 in its length field. -/
def Obligations.ReqwTimesOutOnASilentDevice : Prop :=
  ∀ (s : State) (cmd : Byte) (data : List Byte), s.ready → s.cfg.ok = true → s.silent →
    data.length + 6 ≤ s.cfg.maxResponseSize →
    exec (.reqw cmd data) s = .next
      { (s.sent .reqw true cmd data).timedOut with attempts := s.cfg.nAttempts, devq := s.devq.drop s.cfg.nAttempts }

/-- R161, R236 (D19): REQW with data that does not fit is the contract violation `CV_RequestTooLong`: nothing is sent,
the first fault's reason stands, no result is handed over, and nothing else changes. -/
def Obligations.ReqwTooLongIsAContractViolation : Prop :=
  ∀ (s : State) (cmd : Byte) (data : List Byte), s.atRest → s.cfg.maxResponseSize - 5 < 1 + data.length →
    exec (.reqw cmd data) s = .next (s.violated .requestTooLong)

/-- R166 to R173: `k` silent iterations and then, within the budget, a packet with the request's command: REQR ends
`Success` in iteration `k + 1`, a match in the last iteration included; the packet is in RXBUF and only its bytes are
consumed. -/
def Obligations.ReqrSucceedsOnItsResponse : Prop :=
  ∀ (s : State) (cmd : Byte) (p : Packet) (k : Nat) (extra : List Byte) (later : List (List Byte)),
    s.ready → s.cfg.ok = true → s.rxq = [] → p.wf s.cfg = true → p.cmd = cmd → k < s.cfg.nAttempts →
    s.devq = List.replicate k [] ++ (p.bytes ++ extra) :: later →
    exec (.reqr cmd) s = .next
      { ((s.sent .reqr false cmd []).framed p).succeeded with attempts := k + 1, rxq := extra, devq := later }

/-- The same for REQW (R166 to R173). -/
def Obligations.ReqwSucceedsOnItsResponse : Prop :=
  ∀ (s : State) (cmd : Byte) (data : List Byte) (p : Packet) (k : Nat) (extra : List Byte) (later : List (List Byte)),
    s.ready → s.cfg.ok = true → s.rxq = [] → data.length + 6 ≤ s.cfg.maxResponseSize →
    p.wf s.cfg = true → p.cmd = cmd → k < s.cfg.nAttempts →
    s.devq = List.replicate k [] ++ (p.bytes ++ extra) :: later →
    exec (.reqw cmd data) s = .next
      { ((s.sent .reqw true cmd data).framed p).succeeded with attempts := k + 1, rxq := extra, devq := later }

/-- R164, R180: unless `FLUSH_ON_REQUEST` is set, a stale packet with the request's command is taken for the response, in
the first iteration, by REQR and by REQW. -/
def Obligations.RequestTakesAStalePacket : Prop :=
  ∀ (s : State) (cmd : Byte) (p : Packet) (rest : List Byte), s.ready → s.cfg.ok = true →
    s.cfg.flushOnRequest = false → p.wf s.cfg = true → p.cmd = cmd → s.rxq = p.bytes ++ rest →
    exec (.reqr cmd) s = .next
      { ((s.sent .reqr false cmd []).framed p).succeeded with
        attempts := 1, rxq := rest ++ s.devq.headD [], devq := s.devq.tail }
    ∧ ∀ data : List Byte, data.length + 6 ≤ s.cfg.maxResponseSize →
      exec (.reqw cmd data) s = .next
        { ((s.sent .reqw true cmd data).framed p).succeeded with
          attempts := 1, rxq := rest ++ s.devq.headD [], devq := s.devq.tail }

/-- R171 (law 6 of 95_test_vectors): a request that ends `Success` leaves a valid packet in RXBUF whose command byte is the
request's. -/
def Obligations.SuccessMeansACorrelatedPacket : Prop :=
  ∀ (s t : State) (cmd : Byte) (data : List Byte), s.cfg.ok = true →
    (exec (.reqr cmd) s = .next t
      ∨ (data.length + 6 ≤ s.cfg.maxResponseSize ∧ exec (.reqw cmd data) s = .next t)) →
    t.busy = false → t.tresult = .success →
    t.pktValid = true ∧ t.cmd = cmd ∧ t.rxbuf.read 3 = some cmd

/-- R169, R170, R174: while awaiting, a good packet with another command is framed and discarded: the transaction goes on
from the next iteration, with one iteration of the budget used. -/
def Obligations.MismatchedPacketIsDiscarded : Prop :=
  ∀ (s : State) (p : Packet), s.awaitingResponse → s.cfg.ok = true → s.rxq = [] → s.devq = [] →
    p.wf s.cfg = true → p.cmd ≠ s.cmd → s.attempts + 1 < s.cfg.nAttempts →
    exec (.pkt p) s = exec .opNone { s.framed p with attempts := s.attempts + 1 }

/-- R169, R172, R174, R176 (programs P2 and P6): while awaiting, an iteration whose framing attempt ends in a framing error,
or in a good packet with another command, is discarded, with whatever follows it in RXQ or is still to come. In the last
iteration of the budget the request ends `Timeout` and FRM's registers stay as the attempt left them; in any other the
transaction goes on with the next iteration. -/
def Obligations.DiscardedAttemptsUseUpTheBudget : Prop :=
  ∀ (s v : State) (rest : List Byte), s.awaitingResponse → s.cfg.ok = true →
    s.discards v (s.rxq ++ s.devq.headD []) rest →
    let w := { v with attempts := s.attempts + 1, rxq := rest, devq := s.devq.tail }
    exec .opNone s = if s.attempts + 1 = s.cfg.nAttempts then .next w.timedOut else exec .opNone w

/-- R170 to R173: while awaiting, a packet with the request's command arriving with nothing unread before it ends the
transaction with `Success`. -/
def Obligations.PktRespEndsTheTransaction : Prop :=
  ∀ (s : State) (p : Packet), s.awaitingResponse → s.cfg.ok = true → s.rxq = [] → p.wf s.cfg = true → p.cmd = s.cmd →
    exec (.pktResp p) s = .next
      { (s.framed p).succeeded with attempts := s.attempts + 1, rxq := s.devq.headD [], devq := s.devq.tail }

/-- R161 to R165: the packet of a read request goes out whole, in TXBUF and at the end of TXLOG, signed, and TXN awaits.
That this row is the sending half of REQR is the model's choice (log 8), and so is that it sends TX_RESERVED where that is not
the row's 0 (log 28). -/
def Obligations.PktRdreqIsSent : Prop :=
  ∀ (s : State) (cmd : Byte) (ck : Half), s.ready → s.cfg.ok = true →
    exec (.pktRdreq cmd ck) s = .next (s.sent .reqr false cmd [])

/-- The same for a write request (R161 to R165; logs 8, 11 and 28). -/
def Obligations.PktWrreqIsSent : Prop :=
  ∀ (s : State) (plen : BitVec 10) (cmd : Byte) (data : List Byte) (ck : Half), s.ready → s.cfg.ok = true →
    data.length + 6 ≤ s.cfg.maxResponseSize →
    exec (.pktWrreq plen cmd data ck) s = .next (s.sent .reqw true cmd data)

/-- R160: a request is its packet sent, then the wait (log 8), in every state and for every outcome. -/
def Obligations.RequestIsItsPacketThenTheWait : Prop :=
  (∀ (s : State) (cmd : Byte) (ck : Half),
    exec (.reqr cmd) s = match exec (.pktRdreq cmd ck) s with
      | .next t => exec .opNone t
      | .fault f => .fault f
      | .refused r => .refused r)
  ∧ ∀ (s : State) (plen : BitVec 10) (cmd : Byte) (data : List Byte) (ck : Half),
    exec (.reqw cmd data) s = match exec (.pktWrreq plen cmd data ck) s with
      | .next t => exec .opNone t
      | .fault f => .fault f
      | .refused r => .refused r

/-! ## Packets from the device -/

/-- R66, R240: with no operation in progress a packet of any kind from the device waits in RXQ, and nothing else
changes. -/
def Obligations.ArrivedPacketWaitsForAnOperation : Prop :=
  ∀ (s : State) (p : Packet) (f : StreamPacket), s.busy = false →
    exec (.pkt p) s = .next { s with rxq := s.rxq ++ p.bytes }
    ∧ exec (.pktResp p) s = .next { s with rxq := s.rxq ++ p.bytes }
    ∧ exec (.pktStream f) s = .next { s with rxq := s.rxq ++ f.packet.bytes }

/-- R140, R149: a packet that arrives while RDPKT waits for its first byte is framed and handed over. -/
def Obligations.PktEndsAWaitingRdpkt : Prop :=
  ∀ (s : State) (p : Packet), s.waitingRdpkt → s.cfg.ok = true → p.wf s.cfg = true →
    exec (.pkt p) s = .next ((s.framed p).rdpktEnded .packet)

/-- R106, R194 to R198, R201, R213: a stream frame that arrives while RDPKT waits is framed, and SDEC then leaves its
fields in the SF_* registers and its samples in SF_DIST. The layout is that of R106 (log 12). -/
def Obligations.PktStreamIsFramedAndDecoded : Prop :=
  ∀ (s : State) (f : StreamPacket), s.waitingRdpkt → s.cfg.ok = true → s.cfg.layout = Layout.r106 →
    (Instr.pktStream f).wf s.cfg = true → f.dist.length ≤ s.cfg.streamMaxPoints →
    exec (.pktStream f) s = .next ((s.framed f.packet).rdpktEnded .packet)
    ∧ exec .sdec ((s.framed f.packet).rdpktEnded .packet) = .next (((s.framed f.packet).rdpktEnded .packet).decoded f)

/-- S3: the bytes a request adds to TXLOG, whichever of the four rows sends them, RDPKT frames: same payload, same flag,
same length (R140, R162, R163). -/
def Obligations.SentPacketIsFramedBack : Prop :=
  ∀ (s₀ s₁ s : State) (plen : BitVec 10) (cmd : Byte) (data : List Byte) (ck : Half) (bs : List Byte) (isWrite : Bool),
    s₀.cfg.ok = true → s₀.unlimited → data.length + 6 ≤ s₀.cfg.maxResponseSize → data.length < 1023 →
    (isWrite = false ∧ data = [] ∧ (exec (.reqr cmd) s₀ = .next s₁ ∨ exec (.pktRdreq cmd ck) s₀ = .next s₁)
      ∨ isWrite = true ∧ (exec (.reqw cmd data) s₀ = .next s₁ ∨ exec (.pktWrreq plen cmd data ck) s₀ = .next s₁)) →
    s₁.txlog = s₀.txlog ++ bs →
    s.ready → s.cfg = s₀.cfg → s.rxq = bs →
    ∃ t, exec .rdpkt s = .next t ∧ t.fstatus = .ok ∧ t.plen.toNat = 1 + data.length ∧ t.rw = isWrite
      ∧ t.hostPayload = some (cmd :: data) ∧ t.rxq = [] ∧ t.busy = false

/-! ## SDEC -/

/-- R18, R26, R107, R190, R194 to R199: SDEC on a valid stream frame within capacity writes exactly the frame's fields and
samples, and the host then reads SF_FWD, SF_MV and the samples as two's complement numbers and the others without sign. The
layout with its signs is that of R106 (log 12); two's complement is log 13. -/
def Obligations.SdecDecodesAFrame : Prop :=
  ∀ (s : State) (f : StreamPacket), s.busy = false → s.cfg.layout = Layout.r106 → s.plen = f.plen →
    s.packet = some f.packet.bytes → f.packet.lenOk = true → f.countOk = true → f.idOk s.cfg = true →
    f.dist.length ≤ s.cfg.streamMaxPoints →
    exec .sdec s = .next (s.decoded f)
    ∧ (s.decoded f).frame = some {
        alarm := f.alarm.toNat, pps := f.pps.toNat, fwd := f.fwd.toInt, mv := f.mv.toInt, rev := f.rev.toNat
        total := f.total.toNat, count := f.count.toNat, start := f.start.toNat, dist := f.dist.map BitVec.toInt }

/-- R191, R236: SDEC with no valid packet is the contract violation `CV_NoValidPacket`, and no frame is valid. The model's
own tag of a result handed over (log 26) is left open here. -/
def Obligations.SdecNeedsAValidPacket : Prop :=
  ∀ s : State, s.busy = false → s.pktValid = false →
    ∃ handed, exec .sdec s = .next { s.violated .noValidPacket with
      op := .sdec, sfValid := false, sstatus := .none, handed := handed }

/-- R192, R235, R242: a valid packet with another command is `NotStreamData`, however short it is, and is never a fault;
no SF_* register is written. The model's own tag of a result handed over (log 26) is left open here. -/
def Obligations.SdecReportsNotStreamData : Prop :=
  ∀ (s : State) (p : Packet), s.busy = false → s.plen = p.plen → p.lenOk = true → s.packet = some p.bytes →
    p.cmd ≠ s.cfg.streamCmdId →
    ∃ handed, exec .sdec s =
      .next { s with op := .sdec, sfValid := false, sstatus := .notStreamData, handed := handed }

/-- R193, R236: a stream packet with fewer payload bytes than the fixed fields of its layout take (15 in the layout of R106,
log 12) is `CV_StreamTruncated`; no SF_* register is written. -/
def Obligations.SdecFaultsOnAShortFrame : Prop :=
  ∀ (s : State) (p : Packet), s.busy = false → s.plen = p.plen → p.lenOk = true →
    s.packet = some p.bytes → p.cmd = s.cfg.streamCmdId → p.plen.toNat < s.cfg.layout.fixed →
    exec .sdec s = .next { s.violated .streamTruncated with op := .sdec, sfValid := false, sstatus := .none }

/-- R195, R196, R202, R236, R242: a frame whose count exceeds the capacity is `CV_PointCountOverCapacity`, tested first; a
count within capacity that the payload does not hold is `CV_StreamTruncated`. Neither writes SF_DIST nor makes a frame
valid. -/
def Obligations.SdecFaultsOnTheCount : Prop :=
  ∀ (s : State) (p : Packet), s.busy = false → s.cfg.layout = Layout.r106 → s.plen = p.plen → p.lenOk = true →
    s.packet = some p.bytes → p.cmd = s.cfg.streamCmdId → 15 ≤ p.plen.toNat →
    let count := (le16 (p.payload.getD 11 0) (p.payload.getD 12 0)).toNat
    (s.cfg.streamMaxPoints < count ∨ p.plen.toNat < 15 + 2 * count) →
    ∃ t, exec .sdec s = .next t ∧ t.busy = false ∧ t.fault = true ∧ t.sfValid = false ∧ t.sstatus = .none
      ∧ t.sfDist = s.sfDist ∧ t.rxbuf = s.rxbuf ∧ t.pktValid = s.pktValid
      ∧ (s.fault = false → t.faultReason =
          if s.cfg.streamMaxPoints < count then .pointCountOverCapacity else .streamTruncated)

/-- R190 (law 7 of 95_test_vectors): whatever SDEC answers, it leaves the packet, every FRM and TXN register, CRC and the
channel as they were. -/
def Obligations.SdecKeepsPacketAndChannel : Prop :=
  ∀ s t : State, exec .sdec s = .next t →
    t.cfg = s.cfg ∧ t.crc = s.crc ∧ t.rxbuf = s.rxbuf ∧ t.plen = s.plen ∧ t.rw = s.rw ∧ t.rxcnt = s.rxcnt
    ∧ t.fstate = s.fstate ∧ t.fstatus = s.fstatus ∧ t.pktValid = s.pktValid ∧ t.txbuf = s.txbuf ∧ t.txlen = s.txlen
    ∧ t.txcnt = s.txcnt ∧ t.cmd = s.cmd ∧ t.iswr = s.iswr ∧ t.attempts = s.attempts ∧ t.tstate = s.tstate
    ∧ t.tresult = s.tresult ∧ t.rxq = s.rxq ∧ t.txlog = s.txlog ∧ t.crcShown = s.crcShown ∧ t.rxShown = s.rxShown
    ∧ t.quota = s.quota ∧ t.sched = s.sched ∧ t.port = s.port ∧ t.devq = s.devq

/-- R276 (law 8 of 95_test_vectors): with capacity for all a packet can hold, every stream frame whose count fits its own
payload decodes `S_OK`. The layout is that of R106 (log 12). -/
def Obligations.EnoughCapacityDecodesEveryConsistentFrame : Prop :=
  ∀ (s : State) (p : Packet), s.busy = false → s.cfg.layout = Layout.r106 → s.plen = p.plen → p.wf s.cfg = true →
    s.packet = some p.bytes → p.cmd = s.cfg.streamCmdId → 15 ≤ p.plen.toNat →
    15 + 2 * (le16 (p.payload.getD 11 0) (p.payload.getD 12 0)).toNat ≤ p.plen.toNat →
    (s.cfg.maxResponseSize - 20) / 2 ≤ s.cfg.streamMaxPoints →
    ∃ t, exec .sdec s = .next t ∧ t.sstatus = .ok ∧ t.sfValid = true ∧ t.fault = s.fault

/-! ## FLUSH, no operation, the reserved code, a busy engine -/

/-- R65, R210: FLUSH empties RXQ and changes no register but OP; bytes the device sends after it are queued as always. The
model's own tag of an operation that ended (log 26) is left open here. -/
def Obligations.FlushEmptiesTheReceiveQueue : Prop :=
  ∀ (s : State) (bs : List Byte), s.busy = false →
    (∃ handed, exec .flush s = .next { s with rxq := [], op := .flush, handed := handed })
    ∧ arrive bs { s with rxq := [], op := .flush } = { s with rxq := bs, op := .flush }

/-- R101, R236: code 0 is "no operation presented", and with none in progress nothing happens; code 7 is refused with the
fault `CV_BadOp`, no step is taken, and a fault recorded earlier keeps its reason. That this refusal is a next state, which
records the fault, is read from R236 (DEDUCED, log 16); that a code stands alone in a byte is the model's (log 6). -/
def Obligations.CodesThatSelectNoOperation : Prop :=
  decode .host [0b000] = .ok .opNone ∧ decode .host [0b111] = .ok .opReserved
  ∧ ∀ s : State, s.busy = false →
    exec .opNone s = .next s
    ∧ exec .opReserved s = .next (s.violated .badOp)

/-- R270 with U9's safe choice (log 7): while an operation is in progress no other is accepted. -/
def Obligations.BusyEngineRefusesOperations : Prop :=
  ∀ (s : State) (i : Instr), s.busy = true → (i.side = .host ∨ i.side = .tx) → i ≠ .opNone →
    exec i s = .refused .hostBusy

/-- R141, R161 (log 7): with no operation in progress, an operation that needs FRM or TXN at rest is refused while either
is not; the invariant of Safety.lean rules such states out. -/
def Obligations.UnitNotAtRestRefusesOperations : Prop :=
  ∀ (s : State) (i : Instr), s.busy = false → (s.fstate ≠ .idle ∨ s.tstate ≠ .idle) →
    (i = .rdpkt ∨ (∃ cmd, i = .reqr cmd) ∨ (∃ cmd data, i = .reqw cmd data) ∨ i.side = .tx) →
    exec i s = .refused .notAtRest ∧ ¬ s.Inv

/-! ## The whole machine -/

/-- R55, R260: what the spec says every register holds after reset, under every configuration. -/
def Obligations.ResetLeavesTheSpecValues : Prop :=
  ∀ (c : Cfg) (i : Nat),
    let s := State.resetWith c
    s.cfg = c ∧ s.crc = 0 ∧ s.rxbuf.read i = none ∧ s.txbuf.read i = none ∧ s.sfDist = [] ∧ s.rxcnt = 0 ∧ s.txcnt = 0
    ∧ s.attempts = 0 ∧ s.fstate = .idle ∧ s.tstate = .idle ∧ s.fstatus = .none ∧ s.tresult = .none ∧ s.sstatus = .none
    ∧ s.pktValid = false ∧ s.sfValid = false ∧ s.busy = false ∧ s.fault = false ∧ s.faultReason = .none

/-- R260, R261: reset while an operation is in progress abandons it: every register is as after reset, and the channel, the
configuration and the environment's scripts are as they were. A step performs it where the schedule says so (log 20). A
request may have been sent in part: stopped after `n` of its bytes, with nothing flushed, it stands mid-transmission, and a
reset then leaves those `n` bytes in TXLOG (log 4). -/
def Obligations.ResetAbandonsAndKeepsTheChannel : Prop :=
  (∀ (s : State) (rest : List Slot), s.sched = .reset :: rest →
    step s = .next { State.resetWith s.cfg with
      rxq := s.rxq, txlog := s.txlog, sched := rest, port := s.port, devq := s.devq })
  ∧ ∀ (s : State) (cmd : Byte) (n : Nat), s.atRest → s.cfg.ok = true → s.cfg.flushOnRequest = false →
    s.quota = some n → n < 6 →
    ∃ t, exec (.reqr cmd) s = .next t ∧ t.busy = true ∧ t.tstate = .idle ∧ t.txcnt = n ∧ t.txlen = 6 ∧ t.rxq = s.rxq
      ∧ t.txlog = s.txlog ++ (requestPacket s.cfg false cmd []).take n
      ∧ (resetPE t).atRest ∧ (resetPE t).txcnt = 0 ∧ (resetPE t).txlog = t.txlog ∧ (resetPE t).rxq = t.rxq

/-- R77, R125 (log 4): how a run is cut into steps changes no result. What an operation or an arrival leaves when
its step stops at a limit, taken to its end, is what it leaves without a limit, from every state with the invariant.
The two rows that are only a request's sending half (log 8) end where the wait begins, and so are not among them. -/
def Obligations.LimitedStepsAddUp : Prop :=
  ∀ (i : Instr) (s t : State) (n : Nat), s.Inv → i.side ≠ .tx → exec i { s with quota := some n } = .next t →
    exec .opNone { t with quota := none } = exec i { s with quota := none }

/-- R77 (log 4): what the channel sees under the limit `n`: bytes sent, iterations polled in and bytes taken are together
at most `n`, whether an operation goes on, RDPKT is accepted or a packet arrives. A request that is accepted counts its
iterations from 0; its optional `ChFlush()` is one primitive, performed whatever the limit, and the rest are at most `n`
less that one. A request turned away, CKS, SDEC and the reserved code perform none, and FLUSH its one `ChFlush()`. -/
def Obligations.LimitBoundsTheStep : Prop :=
  (∀ (s t : State) (n : Nat), s.quota = some n → (exec .opNone s = .next t ∨ exec .rdpkt s = .next t) → s.performs t n)
  ∧ (∀ (s t : State) (n : Nat) (p : Packet), s.quota = some n →
      (exec (.pkt p) s = .next t ∨ exec (.pktResp p) s = .next t) → (arrive p.bytes s).performs t n)
  ∧ (∀ (s t : State) (n : Nat) (f : StreamPacket), s.quota = some n → exec (.pktStream f) s = .next t →
      (arrive f.packet.bytes s).performs t n)
  ∧ (∀ (s t : State) (n : Nat) (plen : BitVec 10) (cmd : Byte) (data : List Byte) (ck : Half),
      s.quota = some n → s.cfg.ok = true → data.length + 6 ≤ s.cfg.maxResponseSize →
      (exec (.reqr cmd) s = .next t ∨ exec (.reqw cmd data) s = .next t
        ∨ exec (.pktRdreq cmd ck) s = .next t ∨ exec (.pktWrreq plen cmd data ck) s = .next t) →
      State.performs { s with attempts := 0, rxq := if s.cfg.flushOnRequest then [] else s.rxq } t
        (if s.cfg.flushOnRequest then n - 1 else n))
  ∧ (∀ (s t : State) (plen : BitVec 10) (cmd : Byte) (data : List Byte) (ck : Half),
      s.cfg.maxResponseSize < data.length + 6 →
      (exec (.reqw cmd data) s = .next t ∨ exec (.pktWrreq plen cmd data ck) s = .next t) → s.performs t 0)
  ∧ (∀ (s t : State) (data : List Byte),
      (exec (.cks data) s = .next t ∨ exec .sdec s = .next t ∨ exec .opReserved s = .next t) → s.performs t 0)
  ∧ ∀ s t : State, exec .flush s = .next t → State.performs { s with rxq := [] } t 0

/-- R28, R212, R236 (log 26): what the host may read, row by row of R212's table. After CKS its checksum, which FLUSH and
SDEC leave readable and RDPKT and a request that is accepted take away; after RDPKT `F_OK` the packet, which CKS, FLUSH and
SDEC leave readable, and after an error FSTATUS alone; after REQR `Success` the payload and not the packet; after REQW
`Success` only TRESULT; after `Timeout` only TRESULT, and of an earlier packet what no framing attempt has replaced; after
SDEC `S_OK` the frame with SF_COUNT samples, and after `NotStreamData` no frame; after FLUSH, and after an operation that is
a contract violation, no result. -/
def Obligations.HostReadsWhatWasHandedOver : Prop :=
  (∀ (s : State) (data : List Byte), s.busy = false →
    ∃ t, exec (.cks data) s = .next t ∧ t.hostCrc = some (cks data) ∧ t.result = some (.crc (cks data)))
  ∧ (∀ s t : State, (exec .flush s = .next t ∨ exec .sdec s = .next t) → t.hostCrc = s.hostCrc)
  ∧ (∀ (s t : State) (cmd : Byte) (data : List Byte), s.cfg.ok = true → data.length + 6 ≤ s.cfg.maxResponseSize →
      (exec .rdpkt s = .next t ∨ exec (.reqr cmd) s = .next t ∨ exec (.reqw cmd data) s = .next t) → t.hostCrc = none)
  ∧ (∀ s t : State, s.cfg.ok = true → exec .rdpkt s = .next t → t.busy = false → t.fstatus = .ok →
      ∃ bs, t.hostPacket = some bs ∧ bs.length = t.plen.toNat + 5
        ∧ t.hostPayload = some ((bs.drop 3).take t.plen.toNat) ∧ t.result = some (.packet .ok t.plen t.rw bs))
  ∧ (∀ s t : State, s.cfg.ok = true → exec .rdpkt s = .next t → t.busy = false → t.fstatus ≠ .ok →
      t.hostPacket = none ∧ t.hostPayload = none ∧ t.result = some (.frameError t.fstatus))
  ∧ (∀ (s t : State) (data : List Byte),
      (exec (.cks data) s = .next t ∨ exec .flush s = .next t ∨ exec .sdec s = .next t) →
      t.hostPacket = s.hostPacket ∧ t.hostPayload = s.hostPayload)
  ∧ (∀ (s t : State) (cmd : Byte), s.cfg.ok = true → exec (.reqr cmd) s = .next t → t.busy = false →
      t.tresult = .success →
      t.hostPacket = none ∧ ∃ data, t.hostPayload = some (cmd :: data) ∧ t.result = some (.response t.plen (cmd :: data)))
  ∧ (∀ (s t : State) (cmd : Byte) (data : List Byte), s.cfg.ok = true → data.length + 6 ≤ s.cfg.maxResponseSize →
      exec (.reqw cmd data) s = .next t → t.busy = false → t.tresult = .success →
      t.hostPacket = none ∧ t.hostPayload = none ∧ t.result = some (.transaction .success))
  ∧ (∀ (s t : State) (cmd : Byte) (data : List Byte), s.cfg.ok = true → data.length + 6 ≤ s.cfg.maxResponseSize →
      (exec (.reqr cmd) s = .next t ∨ exec (.reqw cmd data) s = .next t) → t.busy = false → t.tresult = .timeout →
      t.result = some (.transaction .timeout)
      ∧ (t.hostPacket = none ∧ t.hostPayload = none ∨ t.hostPacket = s.hostPacket ∧ t.hostPayload = s.hostPayload))
  ∧ (∀ s t : State, exec .sdec s = .next t → t.sstatus = .ok →
      ∃ f, t.frame = some f ∧ f.count = f.dist.length ∧ t.result = some (.frame f))
  ∧ (∀ s t : State, exec .sdec s = .next t → t.sstatus = .notStreamData →
      t.frame = none ∧ t.result = some (.streamError .notStreamData))
  ∧ (∀ s t : State, exec .flush s = .next t → t.result = some .nothing)
  ∧ ∀ (s t : State) (i : Instr), exec i s = .next t → s.fault = false → t.fault = true → t.result = some .nothing

/-- The invariant of Safety.lean holds after reset under every legal configuration (R55, R262); which layouts are legal is
the model's choice (log 27). -/
def Obligations.InvariantHoldsAtReset : Prop := ∀ c : Cfg, c.ok = true → (State.resetWith c).Inv

/-- The invariant of Safety.lean (R22, R23, R31 to R45), the legality of the layout (log 27) among it, is kept by every step,
from every state that has it. -/
def Obligations.EveryStepKeepsTheInvariant : Prop := ∀ s t : State, s.Inv → step s = .next t → t.Inv

/-- R22, R38, R55: from a state with the invariant no step reads a buffer byte that holds no value or uses an index that
does not exist. The invariant takes the layout as legal (log 27). -/
def Obligations.NoStepReadsAByteWithoutValue : Prop := ∀ (s : State) (f : Fault), s.Inv → step s ≠ .fault f

/-- R46: no operation changes the configuration. -/
def Obligations.NoStepChangesTheConfiguration : Prop := ∀ s t : State, step s = .next t → t.cfg = s.cfg

/-- R45, R236, R246: a recorded fault stays, with its first reason, through every step that is not a reset. -/
def Obligations.FaultsAreStickyAndFirstWins : Prop :=
  ∀ s t : State, s.running → step s = .next t → s.fault = true → t.fault = true ∧ t.faultReason = s.faultReason

/-- R51, R62, R264: TXLOG only grows, and in a step that neither accepts a request nor was transmitting one it does not
change. -/
def Obligations.OnlyRequestsTransmit : Prop :=
  (∀ s t : State, step s = .next t → ∃ bs, t.txlog = s.txlog ++ bs)
  ∧ ∀ (i : Instr) (s t : State), exec i s = .next t → ¬ (s.requesting ∧ s.tstate = .idle) →
      (∀ cmd, i ≠ .reqr cmd) → (∀ cmd data, i ≠ .reqw cmd data) → (∀ cmd ck, i ≠ .pktRdreq cmd ck) →
      (∀ plen cmd data ck, i ≠ .pktWrreq plen cmd data ck) → t.txlog = s.txlog

/-- R26, R27, R29: only SDEC writes the stream-frame registers. -/
def Obligations.OnlySdecWritesTheFrame : Prop :=
  ∀ (i : Instr) (s t : State), i ≠ .sdec → exec i s = .next t →
    t.sfAlarm = s.sfAlarm ∧ t.sfPps = s.sfPps ∧ t.sfFwd = s.sfFwd ∧ t.sfMv = s.sfMv ∧ t.sfRev = s.sfRev
    ∧ t.sfTotal = s.sfTotal ∧ t.sfCount = s.sfCount ∧ t.sfStart = s.sfStart ∧ t.sfDist = s.sfDist
    ∧ t.sfValid = s.sfValid ∧ t.sstatus = s.sstatus

/-- R33, R47: whenever the host can sample STATUS it sees `TSTATE = T_IDLE`, `BUSY = 0`, and codes the table gives. -/
def Obligations.HostSeesTheTransactorIdle : Prop :=
  ∀ (s : State) (st : Status), s.Inv → s.status = some st →
    st.tstate = 0 ∧ st.busy = false ∧ st.fstatus.toNat ≤ 4 ∧ st.tresult.toNat ≤ 2 ∧ st.sstatus.toNat ≤ 2
      ∧ (st.fault = true ↔ st.faultReason ≠ 0)

/-- R211, R270: when no operation is in progress and the bytes at the head of the port decode to an instruction, a step that
is not a reset takes up its limit, takes them from the port, gives the device agent its turn (R66), and runs that
instruction. -/
def Obligations.StepRunsThePresentedOperation : Prop :=
  ∀ (s : State) (w : List Byte) (ws : List (List Byte)) (i : Instr),
    s.running → s.busy = false → s.port = w :: ws → decodePort w = .ok i →
    step s = exec i (deviceTurn { s.entered with port := ws })

/-- R66, R102: when no operation can be presented and the device's next bytes decode to a packet, a step that is not a reset
takes up its limit, takes them from the device's script and runs that packet; bytes that are no packet, a part of one among
them, join RXQ and the operation in progress goes on; with no bytes to come it goes on. -/
def Obligations.StepRunsTheArrivingPacket : Prop :=
  ∀ s : State, s.running → (s.busy = true ∨ s.port = []) →
    (∀ (bs : List Byte) (rest : List (List Byte)) (i : Instr), s.devq = bs :: rest → decode (rxSide s) bs = .ok i →
      step s = exec i { s.entered with devq := rest })
    ∧ (∀ (bs : List Byte) (rest : List (List Byte)) (e : DecodeError),
      s.devq = bs :: rest → decode (rxSide s) bs = .error e →
      step s = exec .opNone (arrive bs { s.entered with devq := rest }))
    ∧ (s.devq = [] → step s = exec .opNone s.entered)

/-- R100, R101 (log 6): bytes at the head of the port that are no operation are refused with the decoder's reason. -/
def Obligations.StepRefusesBytesThatAreNoOperation : Prop :=
  ∀ (s : State) (w : List Byte) (ws : List (List Byte)) (e : DecodeError),
    s.running → s.busy = false → s.port = w :: ws → decodePort w = .error e → step s = .refused (.badWord e)
end

