-- ==== Sys2Proof/Laws/Bytes.lean ====
section
/-! SUPPORT. Laws of byte order and of a packet's bytes: 00_scope R17, 30_encoding R90. -/

namespace Sys2Proof

open Machine

@[simp] theorem Machine.le16_lo8_hi8 (v : Half) : le16 (lo8 v) (hi8 v) = v := by
  apply BitVec.eq_of_getLsbD_eq
  intro i hi
  simp only [le16, lo8, hi8, BitVec.getLsbD_or, BitVec.getLsbD_setWidth, BitVec.getLsbD_shiftLeft,
    BitVec.getLsbD_ushiftRight]
  by_cases h : i < 8
  · simp [h, hi]
  · have : i - 8 < 8 := by omega
    have : 8 + (i - 8) = i := by omega
    have : i - 8 < 16 := by omega
    simp [*]

@[simp] theorem Machine.lo8_le16 (b0 b1 : Byte) : lo8 (le16 b0 b1) = b0 := by
  apply BitVec.eq_of_getLsbD_eq
  intro i hi
  have : i < 16 := by omega
  simp [le16, lo8, hi]

@[simp] theorem Machine.hi8_le16 (b0 b1 : Byte) : hi8 (le16 b0 b1) = b1 := by
  apply BitVec.eq_of_getLsbD_eq
  intro i hi
  have : i < 16 := by omega
  have : 8 + i < 16 := by omega
  have : b0.getLsbD (8 + i) = false := BitVec.getLsbD_of_ge _ _ (by omega)
  simp [le16, hi8, *]

@[simp] theorem Machine.packetHead_length (h : Half) (pl : List Byte) : (packetHead h pl).length = pl.length + 3 := rfl

@[simp] theorem Machine.packetBytes_length (h : Half) (pl : List Byte) (ck : Half) :
    (packetBytes h pl ck).length = pl.length + 5 := by
  simp [packetBytes]

/-! ## The header word's fields (30_encoding R92, R97) -/

@[simp] theorem Machine.hdrPlen_hdrWord (p : BitVec 10) (r : BitVec 5) (w : Bool) : hdrPlen (hdrWord p r w) = p := by
  apply BitVec.eq_of_getLsbD_eq
  intro i hi
  have : 6 + i < 16 := by omega
  cases w <;> simp [hdrPlen, hdrWord, hi, this]

@[simp] theorem Machine.hdrRw_hdrWord (p : BitVec 10) (r : BitVec 5) (w : Bool) : hdrRw (hdrWord p r w) = w := by
  cases w <;> simp [hdrRw, hdrWord]

@[simp] theorem Machine.hdrReserved_hdrWord (p : BitVec 10) (r : BitVec 5) (w : Bool) :
    hdrReserved (hdrWord p r w) = r := by
  apply BitVec.eq_of_getLsbD_eq
  intro i hi
  have h1 : 1 + i < 16 := by omega
  have h2 : 1 + i < 6 := by omega
  cases w <;> simp [hdrReserved, hdrWord, hi, h1, h2]

/-- A header word is made of its fields. -/
@[simp] theorem Machine.hdrWord_fields (h : Half) : hdrWord (hdrPlen h) (hdrReserved h) (hdrRw h) = h := by
  apply BitVec.eq_of_getLsbD_eq
  intro i hi
  have e : (if hdrRw h = true then (1 : Half) else 0) = BitVec.ofNat 16 (h.getLsbD 0).toNat := by
    unfold hdrRw
    cases h.getLsbD 0 <;> rfl
  rw [hdrWord, e]
  simp only [hdrPlen, hdrReserved, BitVec.getLsbD_or, BitVec.getLsbD_shiftLeft, BitVec.getLsbD_setWidth,
    BitVec.getLsbD_ushiftRight, BitVec.getLsbD_ofNat, hi]
  by_cases h0 : i = 0
  · subst h0
    cases h.getLsbD 0 <;> simp
  · have hz : (h.getLsbD 0).toNat.testBit i = false := by
      cases h.getLsbD 0
      · simp
      · exact Nat.testBit_lt_two_pow (by simpa using Nat.one_lt_two_pow h0)
    rw [hz]
    by_cases h6 : i < 6
    · have : i - 1 < 5 := by omega
      have : 1 + (i - 1) = i := by omega
      have : i - 1 < 16 := by omega
      have : ¬ i < 1 := by omega
      simp [*]
    · have : ¬ i - 1 < 5 := by omega
      have : 6 + (i - 6) = i := by omega
      have : i - 6 < 10 := by omega
      have : i - 6 < 16 := by omega
      simp [*]

end Sys2Proof
end

