-- ==== Sys2Proof/Laws/Memory.lean ====
section
/-! SUPPORT. Laws of the byte buffers: what a read gives after a write, and that every operation keeps the canonical form. -/

namespace Sys2Proof.Machine

@[simp] theorem Mem.read_nil (a : Nat) : Mem.read [] a = none := rfl

theorem Mem.read_write (m : Mem) (a b : Nat) (v : Byte) :
    (m.write a v).read b = if b = a then some v else m.read b := by
  induction m with
  | nil =>
    simp only [Mem.write, Mem.read]
    by_cases h : a = b <;> simp [h, eq_comm]
  | cons c m ih =>
    obtain ⟨k, w⟩ := c
    simp only [Mem.write]
    split
    · simp only [Mem.read]
      by_cases h : a = b
      · simp [h]
      · simp [h, Ne.symm h]
    · split
      · subst_vars
        simp only [Mem.read]
        by_cases h : k = b
        · simp [h]
        · simp [h, Ne.symm h]
      · simp only [Mem.read, ih]
        by_cases h : k = b
        · subst h
          have : ¬ k = a := by omega
          simp [this]
        · simp [h]

theorem Mem.above_write {m : Mem} {k a : Nat} {v : Byte} (h : Mem.above k m = true) (hk : k < a) :
    Mem.above k (m.write a v) = true := by
  induction m generalizing k with
  | nil => simp [Mem.write, Mem.above, hk]
  | cons c m ih =>
    obtain ⟨k', w⟩ := c
    simp only [Mem.above, Bool.and_eq_true, decide_eq_true_eq] at h
    simp only [Mem.write]
    split
    · simp [Mem.above, h.2, *]
    · split
      · subst_vars
        simp [Mem.above, hk, h.2]
      · simp only [Mem.above, Bool.and_eq_true, decide_eq_true_eq]
        exact ⟨h.1, ih h.2 (by omega)⟩

theorem Mem.wf_write {m : Mem} (a : Nat) (v : Byte) (h : m.wf = true) : (m.write a v).wf = true := by
  cases m with
  | nil => rfl
  | cons c m =>
    obtain ⟨k, w⟩ := c
    simp only [Mem.wf] at h
    simp only [Mem.write]
    split
    · simp [Mem.wf, Mem.above, *]
    · split
      · subst_vars
        simpa [Mem.wf] using h
      · simp only [Mem.wf]
        exact Mem.above_write h (by omega)

theorem Mem.cellsFrom_append (bs cs : List Byte) (a : Nat) :
    Mem.cellsFrom a (bs ++ cs) = Mem.cellsFrom a bs ++ Mem.cellsFrom (a + bs.length) cs := by
  induction bs generalizing a with
  | nil => simp [Mem.cellsFrom]
  | cons b bs ih => simp [Mem.cellsFrom, ih, Nat.add_assoc, Nat.add_comm 1]

theorem Mem.above_cellsFrom (bs : List Byte) {k a : Nat} (h : k < a) : Mem.above k (Mem.cellsFrom a bs) = true := by
  induction bs generalizing k a with
  | nil => rfl
  | cons b bs ih => simp [Mem.cellsFrom, Mem.above, h, ih]

theorem Mem.wf_ofBytes (bs : List Byte) : (Mem.ofBytes bs).wf = true := by
  cases bs with
  | nil => rfl
  | cons b bs => exact Mem.above_cellsFrom bs (Nat.lt_succ_self 0)

theorem Mem.read_cellsFrom (bs : List Byte) (a i : Nat) :
    (Mem.cellsFrom a bs).read i = if a ≤ i then bs[i - a]? else none := by
  induction bs generalizing a with
  | nil => simp [Mem.cellsFrom]
  | cons b bs ih =>
    simp only [Mem.cellsFrom, Mem.read, ih]
    by_cases h : a = i
    · simp [h]
    · simp only [h, if_false]
      by_cases h' : a ≤ i
      · have e : i - a = (i - (a + 1)) + 1 := by omega
        have : a + 1 ≤ i := by omega
        simp [h', this, e]
      · have : ¬ a + 1 ≤ i := by omega
        simp [h', this]

theorem Mem.read_ofBytes (bs : List Byte) (i : Nat) : (Mem.ofBytes bs).read i = bs[i]? := by
  simp [Mem.ofBytes, Mem.read_cellsFrom]

/-- Writing the next byte after consecutive ones extends them. -/
theorem Mem.write_cellsFrom (bs : List Byte) (a : Nat) (v : Byte) :
    (Mem.cellsFrom a bs).write (a + bs.length) v = Mem.cellsFrom a (bs ++ [v]) := by
  induction bs generalizing a with
  | nil => simp [Mem.cellsFrom, Mem.write]
  | cons b bs ih =>
    have h1 : ¬ a + (b :: bs).length < a := by omega
    have h2 : ¬ a + (b :: bs).length = a := by simp
    simp only [Mem.cellsFrom, Mem.write, h1, h2, if_false, List.cons_append]
    rw [← ih (a + 1)]
    simp [Nat.add_assoc, Nat.add_comm 1]

theorem Mem.write_ofBytes (bs : List Byte) (v : Byte) :
    (Mem.ofBytes bs).write bs.length v = Mem.ofBytes (bs ++ [v]) := by
  simpa [Mem.ofBytes] using Mem.write_cellsFrom bs 0 v

/-- Consecutive bytes fill a buffer. -/
theorem Mem.filled_ofBytes {c : Cfg} {bs : List Byte} (h : bs.length ≤ c.maxResponseSize) :
    Mem.filled c (Mem.ofBytes bs) bs.length := by
  refine ⟨Mem.wf_ofBytes bs, h, fun i => ?_⟩
  rw [Mem.read_ofBytes]
  by_cases hi : i < bs.length <;> simp [hi]

theorem Mem.filled_nil (c : Cfg) : Mem.filled c [] 0 := ⟨rfl, Nat.zero_le _, fun i => by simp⟩

/-- Writing the next byte of a filled buffer fills it one further. -/
theorem Mem.filled_write {c : Cfg} {m : Mem} {n : Nat} (v : Byte) (h : Mem.filled c m n)
    (hn : n < c.maxResponseSize) : Mem.filled c (m.write n v) (n + 1) := by
  refine ⟨Mem.wf_write n v h.1, hn, fun i => ?_⟩
  rw [Mem.read_write]
  split
  · simp [*]
  · rw [h.2.2 i]
    simp only [decide_eq_decide]
    omega

theorem Mem.read_above {m : Mem} {k i : Nat} (h : Mem.above k m = true) (hi : i ≤ k) : m.read i = none := by
  induction m generalizing k with
  | nil => rfl
  | cons c m ih =>
    obtain ⟨k', w⟩ := c
    simp only [Mem.above, Bool.and_eq_true, decide_eq_true_eq] at h
    have : ¬ k' = i := by omega
    simp [Mem.read, this, ih h.2 (by omega)]

/-- A canonical buffer that holds exactly the indices from `a` to `a + n - 1` is consecutive bytes. -/
theorem Mem.eq_cellsFrom (m : Mem) (a n : Nat) (hw : m.wf = true)
    (h : ∀ i, (m.read i).isSome = decide (a ≤ i ∧ i < a + n)) : ∃ bs, m = Mem.cellsFrom a bs ∧ bs.length = n := by
  induction m generalizing a n with
  | nil =>
    refine ⟨[], rfl, ?_⟩
    have := h a
    simp at this
    simpa using this.symm
  | cons c m ih =>
    obtain ⟨k, w⟩ := c
    simp only [Mem.wf] at hw
    have hk := h k
    simp only [Mem.read, if_true, Option.isSome_some] at hk
    have hk' : a ≤ k ∧ k < a + n := by simpa using hk.symm
    have ha := h a
    have hka : k = a := by
      by_cases e : k = a
      · exact e
      · have hn : a ≤ a ∧ a < a + n := by omega
        rw [Mem.read, if_neg e, Mem.read_above hw hk'.1, decide_eq_true hn] at ha
        cases ha
    subst hka
    obtain ⟨n', rfl⟩ : ∃ n', n = n' + 1 := ⟨n - 1, by omega⟩
    have hwm : Mem.wf m = true := by
      cases m with
      | nil => rfl
      | cons c m =>
        simp only [Mem.above, Bool.and_eq_true] at hw
        exact hw.2
    obtain ⟨bs, rfl, rfl⟩ := ih (k + 1) n' hwm (fun i => by
      have hi := h i
      by_cases e : k = i
      · subst e
        have : ¬ (k + 1 ≤ k ∧ k < k + 1 + n') := by omega
        rw [Mem.read_above hw (Nat.le_refl _), decide_eq_false this]
        rfl
      · rw [Mem.read, if_neg e] at hi
        rw [hi]
        simp only [decide_eq_decide]
        omega)
    exact ⟨w :: bs, rfl, rfl⟩

/-- A filled buffer is the bytes it holds. -/
theorem Mem.filled_eq_ofBytes {c : Cfg} {m : Mem} {n : Nat} (h : Mem.filled c m n) :
    ∃ bs, m = Mem.ofBytes bs ∧ bs.length = n :=
  Mem.eq_cellsFrom m 0 n h.1 (fun i => by rw [h.2.2 i]; simp)

/-! ## Buffer access with its faults -/

theorem bufRead_filled {c : Cfg} {m : Mem} {n i : Nat} (h : Mem.filled c m n) (hi : i < n) :
    ∃ b, bufRead c m i = .ok b ∧ m.read i = some b := by
  have hs := h.2.2 i
  have hc : i < c.maxResponseSize := Nat.lt_of_lt_of_le hi h.2.1
  cases hr : m.read i with
  | none => simp [hr, hi] at hs
  | some b => exact ⟨b, by simp [bufRead, hc, hr], rfl⟩

theorem bufRead2_filled {c : Cfg} {m : Mem} {n i : Nat} (h : Mem.filled c m n) (hi : i + 1 < n) :
    ∃ v, bufRead2 c m i = .ok v := by
  obtain ⟨b0, h0, -⟩ := bufRead_filled h (Nat.lt_of_succ_lt hi)
  obtain ⟨b1, h1, -⟩ := bufRead_filled h hi
  exact ⟨le16 b0 b1, by simp [bufRead2, h0, h1, bind, Except.bind]⟩

theorem bufSlice_filled {c : Cfg} {m : Mem} {n : Nat} (h : Mem.filled c m n) (i k : Nat) (hi : i + k ≤ n) :
    ∃ bs, bufSlice c m i k = .ok bs := by
  induction k generalizing i with
  | zero => exact ⟨[], rfl⟩
  | succ k ih =>
    obtain ⟨b, hb, -⟩ := bufRead_filled h (i := i) (by omega)
    obtain ⟨bs, hbs⟩ := ih (i + 1) (by omega)
    exact ⟨b :: bs, by simp [bufSlice, hb, hbs, bind, Except.bind]⟩

theorem bufRead_ofBytes {c : Cfg} {bs : List Byte} {i : Nat} {b : Byte} (hc : i < c.maxResponseSize)
    (h : bs[i]? = some b) : bufRead c (Mem.ofBytes bs) i = .ok b := by
  simp [bufRead, hc, Mem.read_ofBytes, h]

theorem bufRead2_ofBytes {c : Cfg} {bs : List Byte} {i : Nat} {b0 b1 : Byte} (hc : i + 1 < c.maxResponseSize)
    (h0 : bs[i]? = some b0) (h1 : bs[i + 1]? = some b1) : bufRead2 c (Mem.ofBytes bs) i = .ok (le16 b0 b1) := by
  simp [bufRead2, bufRead_ofBytes (Nat.lt_of_succ_lt hc) h0, bufRead_ofBytes hc h1, bind, Except.bind]

/-- The slice of a buffer that holds consecutive bytes is the slice of the bytes. -/
theorem bufSlice_ofBytes {c : Cfg} (bs : List Byte) (i k : Nat) (hb : i + k ≤ bs.length)
    (hc : i + k ≤ c.maxResponseSize) : bufSlice c (Mem.ofBytes bs) i k = .ok ((bs.drop i).take k) := by
  induction k generalizing i with
  | zero => simp [bufSlice]
  | succ k ih =>
    have hi : i < bs.length := by omega
    have hr : bufRead c (Mem.ofBytes bs) i = .ok bs[i] := bufRead_ofBytes (by omega) (by simp [hi])
    simp only [bufSlice, hr, ih (i + 1) (by omega) (by omega), bind, Except.bind]
    rw [List.drop_eq_getElem_cons hi, List.take_succ_cons]

theorem bufWrite_ofBytes {c : Cfg} {bs : List Byte} (v : Byte) (h : bs.length < c.maxResponseSize) :
    bufWrite c (Mem.ofBytes bs) bs.length v = .ok (Mem.ofBytes (bs ++ [v])) := by
  simp [bufWrite, h, Mem.write_ofBytes]

theorem bufWrite2_ofBytes {c : Cfg} {bs : List Byte} (v : Half) (h : bs.length + 1 < c.maxResponseSize) :
    bufWrite2 c (Mem.ofBytes bs) bs.length v = .ok (Mem.ofBytes (bs ++ [lo8 v, hi8 v])) := by
  have h1 := bufWrite_ofBytes (c := c) (bs := bs) (lo8 v) (by omega)
  have h2 := bufWrite_ofBytes (c := c) (bs := bs ++ [lo8 v]) (hi8 v) (by simpa using h)
  simp only [List.length_append, List.length_singleton, List.append_assoc, List.singleton_append] at h2
  simp [bufWrite2, h1, h2, bind, Except.bind]

theorem bufFill_ofBytes {c : Cfg} (ds bs : List Byte) (h : bs.length + ds.length ≤ c.maxResponseSize) :
    bufFill c (Mem.ofBytes bs) bs.length ds = .ok (Mem.ofBytes (bs ++ ds)) := by
  induction ds generalizing bs with
  | nil => simp [bufFill]
  | cons d ds ih =>
    have h1 := bufWrite_ofBytes (c := c) (bs := bs) d (by simp at h; omega)
    have h2 := ih (bs ++ [d]) (by simp at h ⊢; omega)
    simp only [List.length_append, List.length_singleton, List.append_assoc, List.singleton_append] at h2
    simp [bufFill, h1, h2, bind, Except.bind]

/-- Every write through the buffer operations keeps the canonical form. -/
theorem bufWrite_wf {c : Cfg} {m m' : Mem} {i : Nat} {b : Byte} (h : bufWrite c m i b = .ok m') (hm : m.wf = true) :
    m'.wf = true := by
  unfold bufWrite at h
  split at h
  · cases h
    exact Mem.wf_write i b hm
  · cases h

theorem bufWrite2_wf {c : Cfg} {m m' : Mem} {i : Nat} {v : Half} (h : bufWrite2 c m i v = .ok m')
    (hm : m.wf = true) : m'.wf = true := by
  simp only [bufWrite2, bind, Except.bind] at h
  split at h
  · cases h
  · exact bufWrite_wf h (bufWrite_wf ‹_› hm)

theorem bufFill_wf {c : Cfg} {ds : List Byte} {m m' : Mem} {i : Nat} (h : bufFill c m i ds = .ok m')
    (hm : m.wf = true) : m'.wf = true := by
  induction ds generalizing m i with
  | nil => cases h; exact hm
  | cons d ds ih =>
    simp only [bufFill, bind, Except.bind] at h
    split at h
    · cases h
    · exact ih h (bufWrite_wf ‹_› hm)

/-- Memory has its canonical form at reset. -/
theorem reset_mem_wf (c : Cfg) :
    (State.resetWith c).rxbuf.wf = true ∧ (State.resetWith c).txbuf.wf = true := ⟨rfl, rfl⟩

end Sys2Proof.Machine
end

