-- ==== Sys2Proof/Laws/State.lean ====
section
/-! SUPPORT. One lemma per field per update of State, so that no proof unfolds a record update. -/

namespace Sys2Proof.Machine

/-! ## chSend -/

@[simp] theorem chSend_cfg (b : Byte) (s : State) : (chSend b s).cfg = s.cfg := rfl
@[simp] theorem chSend_crc (b : Byte) (s : State) : (chSend b s).crc = s.crc := rfl
@[simp] theorem chSend_rxbuf (b : Byte) (s : State) : (chSend b s).rxbuf = s.rxbuf := rfl
@[simp] theorem chSend_plen (b : Byte) (s : State) : (chSend b s).plen = s.plen := rfl
@[simp] theorem chSend_rw (b : Byte) (s : State) : (chSend b s).rw = s.rw := rfl
@[simp] theorem chSend_rxcnt (b : Byte) (s : State) : (chSend b s).rxcnt = s.rxcnt := rfl
@[simp] theorem chSend_fstate (b : Byte) (s : State) : (chSend b s).fstate = s.fstate := rfl
@[simp] theorem chSend_fstatus (b : Byte) (s : State) : (chSend b s).fstatus = s.fstatus := rfl
@[simp] theorem chSend_pktValid (b : Byte) (s : State) : (chSend b s).pktValid = s.pktValid := rfl
@[simp] theorem chSend_txbuf (b : Byte) (s : State) : (chSend b s).txbuf = s.txbuf := rfl
@[simp] theorem chSend_txlen (b : Byte) (s : State) : (chSend b s).txlen = s.txlen := rfl
@[simp] theorem chSend_txcnt (b : Byte) (s : State) : (chSend b s).txcnt = s.txcnt := rfl
@[simp] theorem chSend_cmd (b : Byte) (s : State) : (chSend b s).cmd = s.cmd := rfl
@[simp] theorem chSend_iswr (b : Byte) (s : State) : (chSend b s).iswr = s.iswr := rfl
@[simp] theorem chSend_attempts (b : Byte) (s : State) : (chSend b s).attempts = s.attempts := rfl
@[simp] theorem chSend_tstate (b : Byte) (s : State) : (chSend b s).tstate = s.tstate := rfl
@[simp] theorem chSend_tresult (b : Byte) (s : State) : (chSend b s).tresult = s.tresult := rfl
@[simp] theorem chSend_sfAlarm (b : Byte) (s : State) : (chSend b s).sfAlarm = s.sfAlarm := rfl
@[simp] theorem chSend_sfPps (b : Byte) (s : State) : (chSend b s).sfPps = s.sfPps := rfl
@[simp] theorem chSend_sfFwd (b : Byte) (s : State) : (chSend b s).sfFwd = s.sfFwd := rfl
@[simp] theorem chSend_sfMv (b : Byte) (s : State) : (chSend b s).sfMv = s.sfMv := rfl
@[simp] theorem chSend_sfRev (b : Byte) (s : State) : (chSend b s).sfRev = s.sfRev := rfl
@[simp] theorem chSend_sfTotal (b : Byte) (s : State) : (chSend b s).sfTotal = s.sfTotal := rfl
@[simp] theorem chSend_sfCount (b : Byte) (s : State) : (chSend b s).sfCount = s.sfCount := rfl
@[simp] theorem chSend_sfStart (b : Byte) (s : State) : (chSend b s).sfStart = s.sfStart := rfl
@[simp] theorem chSend_sfDist (b : Byte) (s : State) : (chSend b s).sfDist = s.sfDist := rfl
@[simp] theorem chSend_sfValid (b : Byte) (s : State) : (chSend b s).sfValid = s.sfValid := rfl
@[simp] theorem chSend_sstatus (b : Byte) (s : State) : (chSend b s).sstatus = s.sstatus := rfl
@[simp] theorem chSend_busy (b : Byte) (s : State) : (chSend b s).busy = s.busy := rfl
@[simp] theorem chSend_op (b : Byte) (s : State) : (chSend b s).op = s.op := rfl
@[simp] theorem chSend_fault (b : Byte) (s : State) : (chSend b s).fault = s.fault := rfl
@[simp] theorem chSend_faultReason (b : Byte) (s : State) : (chSend b s).faultReason = s.faultReason := rfl
@[simp] theorem chSend_rxq (b : Byte) (s : State) : (chSend b s).rxq = s.rxq := rfl
@[simp] theorem chSend_txlog (b : Byte) (s : State) : (chSend b s).txlog = s.txlog ++ [b] := rfl
@[simp] theorem chSend_handed (b : Byte) (s : State) : (chSend b s).handed = s.handed := rfl
@[simp] theorem chSend_crcShown (b : Byte) (s : State) : (chSend b s).crcShown = s.crcShown := rfl
@[simp] theorem chSend_rxShown (b : Byte) (s : State) : (chSend b s).rxShown = s.rxShown := rfl
@[simp] theorem chSend_quota (b : Byte) (s : State) : (chSend b s).quota = s.quota := rfl
@[simp] theorem chSend_sched (b : Byte) (s : State) : (chSend b s).sched = s.sched := rfl
@[simp] theorem chSend_port (b : Byte) (s : State) : (chSend b s).port = s.port := rfl
@[simp] theorem chSend_devq (b : Byte) (s : State) : (chSend b s).devq = s.devq := rfl

/-! ## chFlush -/

@[simp] theorem chFlush_cfg (s : State) : (chFlush s).cfg = s.cfg := rfl
@[simp] theorem chFlush_crc (s : State) : (chFlush s).crc = s.crc := rfl
@[simp] theorem chFlush_rxbuf (s : State) : (chFlush s).rxbuf = s.rxbuf := rfl
@[simp] theorem chFlush_plen (s : State) : (chFlush s).plen = s.plen := rfl
@[simp] theorem chFlush_rw (s : State) : (chFlush s).rw = s.rw := rfl
@[simp] theorem chFlush_rxcnt (s : State) : (chFlush s).rxcnt = s.rxcnt := rfl
@[simp] theorem chFlush_fstate (s : State) : (chFlush s).fstate = s.fstate := rfl
@[simp] theorem chFlush_fstatus (s : State) : (chFlush s).fstatus = s.fstatus := rfl
@[simp] theorem chFlush_pktValid (s : State) : (chFlush s).pktValid = s.pktValid := rfl
@[simp] theorem chFlush_txbuf (s : State) : (chFlush s).txbuf = s.txbuf := rfl
@[simp] theorem chFlush_txlen (s : State) : (chFlush s).txlen = s.txlen := rfl
@[simp] theorem chFlush_txcnt (s : State) : (chFlush s).txcnt = s.txcnt := rfl
@[simp] theorem chFlush_cmd (s : State) : (chFlush s).cmd = s.cmd := rfl
@[simp] theorem chFlush_iswr (s : State) : (chFlush s).iswr = s.iswr := rfl
@[simp] theorem chFlush_attempts (s : State) : (chFlush s).attempts = s.attempts := rfl
@[simp] theorem chFlush_tstate (s : State) : (chFlush s).tstate = s.tstate := rfl
@[simp] theorem chFlush_tresult (s : State) : (chFlush s).tresult = s.tresult := rfl
@[simp] theorem chFlush_sfAlarm (s : State) : (chFlush s).sfAlarm = s.sfAlarm := rfl
@[simp] theorem chFlush_sfPps (s : State) : (chFlush s).sfPps = s.sfPps := rfl
@[simp] theorem chFlush_sfFwd (s : State) : (chFlush s).sfFwd = s.sfFwd := rfl
@[simp] theorem chFlush_sfMv (s : State) : (chFlush s).sfMv = s.sfMv := rfl
@[simp] theorem chFlush_sfRev (s : State) : (chFlush s).sfRev = s.sfRev := rfl
@[simp] theorem chFlush_sfTotal (s : State) : (chFlush s).sfTotal = s.sfTotal := rfl
@[simp] theorem chFlush_sfCount (s : State) : (chFlush s).sfCount = s.sfCount := rfl
@[simp] theorem chFlush_sfStart (s : State) : (chFlush s).sfStart = s.sfStart := rfl
@[simp] theorem chFlush_sfDist (s : State) : (chFlush s).sfDist = s.sfDist := rfl
@[simp] theorem chFlush_sfValid (s : State) : (chFlush s).sfValid = s.sfValid := rfl
@[simp] theorem chFlush_sstatus (s : State) : (chFlush s).sstatus = s.sstatus := rfl
@[simp] theorem chFlush_busy (s : State) : (chFlush s).busy = s.busy := rfl
@[simp] theorem chFlush_op (s : State) : (chFlush s).op = s.op := rfl
@[simp] theorem chFlush_fault (s : State) : (chFlush s).fault = s.fault := rfl
@[simp] theorem chFlush_faultReason (s : State) : (chFlush s).faultReason = s.faultReason := rfl
@[simp] theorem chFlush_rxq (s : State) : (chFlush s).rxq = [] := rfl
@[simp] theorem chFlush_txlog (s : State) : (chFlush s).txlog = s.txlog := rfl
@[simp] theorem chFlush_handed (s : State) : (chFlush s).handed = s.handed := rfl
@[simp] theorem chFlush_crcShown (s : State) : (chFlush s).crcShown = s.crcShown := rfl
@[simp] theorem chFlush_rxShown (s : State) : (chFlush s).rxShown = s.rxShown := rfl
@[simp] theorem chFlush_quota (s : State) : (chFlush s).quota = s.quota := rfl
@[simp] theorem chFlush_sched (s : State) : (chFlush s).sched = s.sched := rfl
@[simp] theorem chFlush_port (s : State) : (chFlush s).port = s.port := rfl
@[simp] theorem chFlush_devq (s : State) : (chFlush s).devq = s.devq := rfl

/-! ## spend -/

@[simp] theorem spend_cfg (s : State) : (spend s).cfg = s.cfg := rfl
@[simp] theorem spend_crc (s : State) : (spend s).crc = s.crc := rfl
@[simp] theorem spend_rxbuf (s : State) : (spend s).rxbuf = s.rxbuf := rfl
@[simp] theorem spend_plen (s : State) : (spend s).plen = s.plen := rfl
@[simp] theorem spend_rw (s : State) : (spend s).rw = s.rw := rfl
@[simp] theorem spend_rxcnt (s : State) : (spend s).rxcnt = s.rxcnt := rfl
@[simp] theorem spend_fstate (s : State) : (spend s).fstate = s.fstate := rfl
@[simp] theorem spend_fstatus (s : State) : (spend s).fstatus = s.fstatus := rfl
@[simp] theorem spend_pktValid (s : State) : (spend s).pktValid = s.pktValid := rfl
@[simp] theorem spend_txbuf (s : State) : (spend s).txbuf = s.txbuf := rfl
@[simp] theorem spend_txlen (s : State) : (spend s).txlen = s.txlen := rfl
@[simp] theorem spend_txcnt (s : State) : (spend s).txcnt = s.txcnt := rfl
@[simp] theorem spend_cmd (s : State) : (spend s).cmd = s.cmd := rfl
@[simp] theorem spend_iswr (s : State) : (spend s).iswr = s.iswr := rfl
@[simp] theorem spend_attempts (s : State) : (spend s).attempts = s.attempts := rfl
@[simp] theorem spend_tstate (s : State) : (spend s).tstate = s.tstate := rfl
@[simp] theorem spend_tresult (s : State) : (spend s).tresult = s.tresult := rfl
@[simp] theorem spend_sfAlarm (s : State) : (spend s).sfAlarm = s.sfAlarm := rfl
@[simp] theorem spend_sfPps (s : State) : (spend s).sfPps = s.sfPps := rfl
@[simp] theorem spend_sfFwd (s : State) : (spend s).sfFwd = s.sfFwd := rfl
@[simp] theorem spend_sfMv (s : State) : (spend s).sfMv = s.sfMv := rfl
@[simp] theorem spend_sfRev (s : State) : (spend s).sfRev = s.sfRev := rfl
@[simp] theorem spend_sfTotal (s : State) : (spend s).sfTotal = s.sfTotal := rfl
@[simp] theorem spend_sfCount (s : State) : (spend s).sfCount = s.sfCount := rfl
@[simp] theorem spend_sfStart (s : State) : (spend s).sfStart = s.sfStart := rfl
@[simp] theorem spend_sfDist (s : State) : (spend s).sfDist = s.sfDist := rfl
@[simp] theorem spend_sfValid (s : State) : (spend s).sfValid = s.sfValid := rfl
@[simp] theorem spend_sstatus (s : State) : (spend s).sstatus = s.sstatus := rfl
@[simp] theorem spend_busy (s : State) : (spend s).busy = s.busy := rfl
@[simp] theorem spend_op (s : State) : (spend s).op = s.op := rfl
@[simp] theorem spend_fault (s : State) : (spend s).fault = s.fault := rfl
@[simp] theorem spend_faultReason (s : State) : (spend s).faultReason = s.faultReason := rfl
@[simp] theorem spend_rxq (s : State) : (spend s).rxq = s.rxq := rfl
@[simp] theorem spend_txlog (s : State) : (spend s).txlog = s.txlog := rfl
@[simp] theorem spend_handed (s : State) : (spend s).handed = s.handed := rfl
@[simp] theorem spend_crcShown (s : State) : (spend s).crcShown = s.crcShown := rfl
@[simp] theorem spend_rxShown (s : State) : (spend s).rxShown = s.rxShown := rfl
@[simp] theorem spend_quota (s : State) : (spend s).quota = s.quota.map (· - 1) := rfl
@[simp] theorem spend_sched (s : State) : (spend s).sched = s.sched := rfl
@[simp] theorem spend_port (s : State) : (spend s).port = s.port := rfl
@[simp] theorem spend_devq (s : State) : (spend s).devq = s.devq := rfl

/-! ## arrive -/

@[simp] theorem arrive_cfg (bs : List Byte) (s : State) : (arrive bs s).cfg = s.cfg := rfl
@[simp] theorem arrive_crc (bs : List Byte) (s : State) : (arrive bs s).crc = s.crc := rfl
@[simp] theorem arrive_rxbuf (bs : List Byte) (s : State) : (arrive bs s).rxbuf = s.rxbuf := rfl
@[simp] theorem arrive_plen (bs : List Byte) (s : State) : (arrive bs s).plen = s.plen := rfl
@[simp] theorem arrive_rw (bs : List Byte) (s : State) : (arrive bs s).rw = s.rw := rfl
@[simp] theorem arrive_rxcnt (bs : List Byte) (s : State) : (arrive bs s).rxcnt = s.rxcnt := rfl
@[simp] theorem arrive_fstate (bs : List Byte) (s : State) : (arrive bs s).fstate = s.fstate := rfl
@[simp] theorem arrive_fstatus (bs : List Byte) (s : State) : (arrive bs s).fstatus = s.fstatus := rfl
@[simp] theorem arrive_pktValid (bs : List Byte) (s : State) : (arrive bs s).pktValid = s.pktValid := rfl
@[simp] theorem arrive_txbuf (bs : List Byte) (s : State) : (arrive bs s).txbuf = s.txbuf := rfl
@[simp] theorem arrive_txlen (bs : List Byte) (s : State) : (arrive bs s).txlen = s.txlen := rfl
@[simp] theorem arrive_txcnt (bs : List Byte) (s : State) : (arrive bs s).txcnt = s.txcnt := rfl
@[simp] theorem arrive_cmd (bs : List Byte) (s : State) : (arrive bs s).cmd = s.cmd := rfl
@[simp] theorem arrive_iswr (bs : List Byte) (s : State) : (arrive bs s).iswr = s.iswr := rfl
@[simp] theorem arrive_attempts (bs : List Byte) (s : State) : (arrive bs s).attempts = s.attempts := rfl
@[simp] theorem arrive_tstate (bs : List Byte) (s : State) : (arrive bs s).tstate = s.tstate := rfl
@[simp] theorem arrive_tresult (bs : List Byte) (s : State) : (arrive bs s).tresult = s.tresult := rfl
@[simp] theorem arrive_sfAlarm (bs : List Byte) (s : State) : (arrive bs s).sfAlarm = s.sfAlarm := rfl
@[simp] theorem arrive_sfPps (bs : List Byte) (s : State) : (arrive bs s).sfPps = s.sfPps := rfl
@[simp] theorem arrive_sfFwd (bs : List Byte) (s : State) : (arrive bs s).sfFwd = s.sfFwd := rfl
@[simp] theorem arrive_sfMv (bs : List Byte) (s : State) : (arrive bs s).sfMv = s.sfMv := rfl
@[simp] theorem arrive_sfRev (bs : List Byte) (s : State) : (arrive bs s).sfRev = s.sfRev := rfl
@[simp] theorem arrive_sfTotal (bs : List Byte) (s : State) : (arrive bs s).sfTotal = s.sfTotal := rfl
@[simp] theorem arrive_sfCount (bs : List Byte) (s : State) : (arrive bs s).sfCount = s.sfCount := rfl
@[simp] theorem arrive_sfStart (bs : List Byte) (s : State) : (arrive bs s).sfStart = s.sfStart := rfl
@[simp] theorem arrive_sfDist (bs : List Byte) (s : State) : (arrive bs s).sfDist = s.sfDist := rfl
@[simp] theorem arrive_sfValid (bs : List Byte) (s : State) : (arrive bs s).sfValid = s.sfValid := rfl
@[simp] theorem arrive_sstatus (bs : List Byte) (s : State) : (arrive bs s).sstatus = s.sstatus := rfl
@[simp] theorem arrive_busy (bs : List Byte) (s : State) : (arrive bs s).busy = s.busy := rfl
@[simp] theorem arrive_op (bs : List Byte) (s : State) : (arrive bs s).op = s.op := rfl
@[simp] theorem arrive_fault (bs : List Byte) (s : State) : (arrive bs s).fault = s.fault := rfl
@[simp] theorem arrive_faultReason (bs : List Byte) (s : State) : (arrive bs s).faultReason = s.faultReason := rfl
@[simp] theorem arrive_rxq (bs : List Byte) (s : State) : (arrive bs s).rxq = s.rxq ++ bs := rfl
@[simp] theorem arrive_txlog (bs : List Byte) (s : State) : (arrive bs s).txlog = s.txlog := rfl
@[simp] theorem arrive_handed (bs : List Byte) (s : State) : (arrive bs s).handed = s.handed := rfl
@[simp] theorem arrive_crcShown (bs : List Byte) (s : State) : (arrive bs s).crcShown = s.crcShown := rfl
@[simp] theorem arrive_rxShown (bs : List Byte) (s : State) : (arrive bs s).rxShown = s.rxShown := rfl
@[simp] theorem arrive_quota (bs : List Byte) (s : State) : (arrive bs s).quota = s.quota := rfl
@[simp] theorem arrive_sched (bs : List Byte) (s : State) : (arrive bs s).sched = s.sched := rfl
@[simp] theorem arrive_port (bs : List Byte) (s : State) : (arrive bs s).port = s.port := rfl
@[simp] theorem arrive_devq (bs : List Byte) (s : State) : (arrive bs s).devq = s.devq := rfl

/-! ## accept -/

@[simp] theorem accept_cfg (o : Op) (s : State) : (accept o s).cfg = s.cfg := rfl
@[simp] theorem accept_crc (o : Op) (s : State) : (accept o s).crc = s.crc := rfl
@[simp] theorem accept_rxbuf (o : Op) (s : State) : (accept o s).rxbuf = s.rxbuf := rfl
@[simp] theorem accept_plen (o : Op) (s : State) : (accept o s).plen = s.plen := rfl
@[simp] theorem accept_rw (o : Op) (s : State) : (accept o s).rw = s.rw := rfl
@[simp] theorem accept_rxcnt (o : Op) (s : State) : (accept o s).rxcnt = s.rxcnt := rfl
@[simp] theorem accept_fstate (o : Op) (s : State) : (accept o s).fstate = s.fstate := rfl
@[simp] theorem accept_fstatus (o : Op) (s : State) : (accept o s).fstatus = s.fstatus := rfl
@[simp] theorem accept_pktValid (o : Op) (s : State) : (accept o s).pktValid = s.pktValid := rfl
@[simp] theorem accept_txbuf (o : Op) (s : State) : (accept o s).txbuf = s.txbuf := rfl
@[simp] theorem accept_txlen (o : Op) (s : State) : (accept o s).txlen = s.txlen := rfl
@[simp] theorem accept_txcnt (o : Op) (s : State) : (accept o s).txcnt = s.txcnt := rfl
@[simp] theorem accept_cmd (o : Op) (s : State) : (accept o s).cmd = s.cmd := rfl
@[simp] theorem accept_iswr (o : Op) (s : State) : (accept o s).iswr = s.iswr := rfl
@[simp] theorem accept_attempts (o : Op) (s : State) : (accept o s).attempts = s.attempts := rfl
@[simp] theorem accept_tstate (o : Op) (s : State) : (accept o s).tstate = s.tstate := rfl
@[simp] theorem accept_tresult (o : Op) (s : State) : (accept o s).tresult = s.tresult := rfl
@[simp] theorem accept_sfAlarm (o : Op) (s : State) : (accept o s).sfAlarm = s.sfAlarm := rfl
@[simp] theorem accept_sfPps (o : Op) (s : State) : (accept o s).sfPps = s.sfPps := rfl
@[simp] theorem accept_sfFwd (o : Op) (s : State) : (accept o s).sfFwd = s.sfFwd := rfl
@[simp] theorem accept_sfMv (o : Op) (s : State) : (accept o s).sfMv = s.sfMv := rfl
@[simp] theorem accept_sfRev (o : Op) (s : State) : (accept o s).sfRev = s.sfRev := rfl
@[simp] theorem accept_sfTotal (o : Op) (s : State) : (accept o s).sfTotal = s.sfTotal := rfl
@[simp] theorem accept_sfCount (o : Op) (s : State) : (accept o s).sfCount = s.sfCount := rfl
@[simp] theorem accept_sfStart (o : Op) (s : State) : (accept o s).sfStart = s.sfStart := rfl
@[simp] theorem accept_sfDist (o : Op) (s : State) : (accept o s).sfDist = s.sfDist := rfl
@[simp] theorem accept_sfValid (o : Op) (s : State) : (accept o s).sfValid = s.sfValid := rfl
@[simp] theorem accept_sstatus (o : Op) (s : State) : (accept o s).sstatus = s.sstatus := rfl
@[simp] theorem accept_busy (o : Op) (s : State) : (accept o s).busy = true := rfl
@[simp] theorem accept_op (o : Op) (s : State) : (accept o s).op = o := rfl
@[simp] theorem accept_fault (o : Op) (s : State) : (accept o s).fault = s.fault := rfl
@[simp] theorem accept_faultReason (o : Op) (s : State) : (accept o s).faultReason = s.faultReason := rfl
@[simp] theorem accept_rxq (o : Op) (s : State) : (accept o s).rxq = s.rxq := rfl
@[simp] theorem accept_txlog (o : Op) (s : State) : (accept o s).txlog = s.txlog := rfl
@[simp] theorem accept_handed (o : Op) (s : State) : (accept o s).handed = s.handed := rfl
@[simp] theorem accept_crcShown (o : Op) (s : State) : (accept o s).crcShown = s.crcShown := rfl
@[simp] theorem accept_rxShown (o : Op) (s : State) : (accept o s).rxShown = s.rxShown := rfl
@[simp] theorem accept_quota (o : Op) (s : State) : (accept o s).quota = s.quota := rfl
@[simp] theorem accept_sched (o : Op) (s : State) : (accept o s).sched = s.sched := rfl
@[simp] theorem accept_port (o : Op) (s : State) : (accept o s).port = s.port := rfl
@[simp] theorem accept_devq (o : Op) (s : State) : (accept o s).devq = s.devq := rfl

/-! ## finish -/

@[simp] theorem finish_cfg (s : State) : (finish s).cfg = s.cfg := rfl
@[simp] theorem finish_crc (s : State) : (finish s).crc = s.crc := rfl
@[simp] theorem finish_rxbuf (s : State) : (finish s).rxbuf = s.rxbuf := rfl
@[simp] theorem finish_plen (s : State) : (finish s).plen = s.plen := rfl
@[simp] theorem finish_rw (s : State) : (finish s).rw = s.rw := rfl
@[simp] theorem finish_rxcnt (s : State) : (finish s).rxcnt = s.rxcnt := rfl
@[simp] theorem finish_fstate (s : State) : (finish s).fstate = s.fstate := rfl
@[simp] theorem finish_fstatus (s : State) : (finish s).fstatus = s.fstatus := rfl
@[simp] theorem finish_pktValid (s : State) : (finish s).pktValid = s.pktValid := rfl
@[simp] theorem finish_txbuf (s : State) : (finish s).txbuf = s.txbuf := rfl
@[simp] theorem finish_txlen (s : State) : (finish s).txlen = s.txlen := rfl
@[simp] theorem finish_txcnt (s : State) : (finish s).txcnt = s.txcnt := rfl
@[simp] theorem finish_cmd (s : State) : (finish s).cmd = s.cmd := rfl
@[simp] theorem finish_iswr (s : State) : (finish s).iswr = s.iswr := rfl
@[simp] theorem finish_attempts (s : State) : (finish s).attempts = s.attempts := rfl
@[simp] theorem finish_tstate (s : State) : (finish s).tstate = s.tstate := rfl
@[simp] theorem finish_tresult (s : State) : (finish s).tresult = s.tresult := rfl
@[simp] theorem finish_sfAlarm (s : State) : (finish s).sfAlarm = s.sfAlarm := rfl
@[simp] theorem finish_sfPps (s : State) : (finish s).sfPps = s.sfPps := rfl
@[simp] theorem finish_sfFwd (s : State) : (finish s).sfFwd = s.sfFwd := rfl
@[simp] theorem finish_sfMv (s : State) : (finish s).sfMv = s.sfMv := rfl
@[simp] theorem finish_sfRev (s : State) : (finish s).sfRev = s.sfRev := rfl
@[simp] theorem finish_sfTotal (s : State) : (finish s).sfTotal = s.sfTotal := rfl
@[simp] theorem finish_sfCount (s : State) : (finish s).sfCount = s.sfCount := rfl
@[simp] theorem finish_sfStart (s : State) : (finish s).sfStart = s.sfStart := rfl
@[simp] theorem finish_sfDist (s : State) : (finish s).sfDist = s.sfDist := rfl
@[simp] theorem finish_sfValid (s : State) : (finish s).sfValid = s.sfValid := rfl
@[simp] theorem finish_sstatus (s : State) : (finish s).sstatus = s.sstatus := rfl
@[simp] theorem finish_busy (s : State) : (finish s).busy = false := rfl
@[simp] theorem finish_op (s : State) : (finish s).op = s.op := rfl
@[simp] theorem finish_fault (s : State) : (finish s).fault = s.fault := rfl
@[simp] theorem finish_faultReason (s : State) : (finish s).faultReason = s.faultReason := rfl
@[simp] theorem finish_rxq (s : State) : (finish s).rxq = s.rxq := rfl
@[simp] theorem finish_txlog (s : State) : (finish s).txlog = s.txlog := rfl
@[simp] theorem finish_handed (s : State) : (finish s).handed = true := rfl
@[simp] theorem finish_crcShown (s : State) : (finish s).crcShown = s.crcShown := rfl
@[simp] theorem finish_rxShown (s : State) : (finish s).rxShown = s.rxShown := rfl
@[simp] theorem finish_quota (s : State) : (finish s).quota = s.quota := rfl
@[simp] theorem finish_sched (s : State) : (finish s).sched = s.sched := rfl
@[simp] theorem finish_port (s : State) : (finish s).port = s.port := rfl
@[simp] theorem finish_devq (s : State) : (finish s).devq = s.devq := rfl

/-! ## violation -/

@[simp] theorem violation_cfg (r : FaultReason) (s : State) : (violation r s).cfg = s.cfg := rfl
@[simp] theorem violation_crc (r : FaultReason) (s : State) : (violation r s).crc = s.crc := rfl
@[simp] theorem violation_rxbuf (r : FaultReason) (s : State) : (violation r s).rxbuf = s.rxbuf := rfl
@[simp] theorem violation_plen (r : FaultReason) (s : State) : (violation r s).plen = s.plen := rfl
@[simp] theorem violation_rw (r : FaultReason) (s : State) : (violation r s).rw = s.rw := rfl
@[simp] theorem violation_rxcnt (r : FaultReason) (s : State) : (violation r s).rxcnt = s.rxcnt := rfl
@[simp] theorem violation_fstate (r : FaultReason) (s : State) : (violation r s).fstate = s.fstate := rfl
@[simp] theorem violation_fstatus (r : FaultReason) (s : State) : (violation r s).fstatus = s.fstatus := rfl
@[simp] theorem violation_pktValid (r : FaultReason) (s : State) : (violation r s).pktValid = s.pktValid := rfl
@[simp] theorem violation_txbuf (r : FaultReason) (s : State) : (violation r s).txbuf = s.txbuf := rfl
@[simp] theorem violation_txlen (r : FaultReason) (s : State) : (violation r s).txlen = s.txlen := rfl
@[simp] theorem violation_txcnt (r : FaultReason) (s : State) : (violation r s).txcnt = s.txcnt := rfl
@[simp] theorem violation_cmd (r : FaultReason) (s : State) : (violation r s).cmd = s.cmd := rfl
@[simp] theorem violation_iswr (r : FaultReason) (s : State) : (violation r s).iswr = s.iswr := rfl
@[simp] theorem violation_attempts (r : FaultReason) (s : State) : (violation r s).attempts = s.attempts := rfl
@[simp] theorem violation_tstate (r : FaultReason) (s : State) : (violation r s).tstate = s.tstate := rfl
@[simp] theorem violation_tresult (r : FaultReason) (s : State) : (violation r s).tresult = s.tresult := rfl
@[simp] theorem violation_sfAlarm (r : FaultReason) (s : State) : (violation r s).sfAlarm = s.sfAlarm := rfl
@[simp] theorem violation_sfPps (r : FaultReason) (s : State) : (violation r s).sfPps = s.sfPps := rfl
@[simp] theorem violation_sfFwd (r : FaultReason) (s : State) : (violation r s).sfFwd = s.sfFwd := rfl
@[simp] theorem violation_sfMv (r : FaultReason) (s : State) : (violation r s).sfMv = s.sfMv := rfl
@[simp] theorem violation_sfRev (r : FaultReason) (s : State) : (violation r s).sfRev = s.sfRev := rfl
@[simp] theorem violation_sfTotal (r : FaultReason) (s : State) : (violation r s).sfTotal = s.sfTotal := rfl
@[simp] theorem violation_sfCount (r : FaultReason) (s : State) : (violation r s).sfCount = s.sfCount := rfl
@[simp] theorem violation_sfStart (r : FaultReason) (s : State) : (violation r s).sfStart = s.sfStart := rfl
@[simp] theorem violation_sfDist (r : FaultReason) (s : State) : (violation r s).sfDist = s.sfDist := rfl
@[simp] theorem violation_sfValid (r : FaultReason) (s : State) : (violation r s).sfValid = s.sfValid := rfl
@[simp] theorem violation_sstatus (r : FaultReason) (s : State) : (violation r s).sstatus = s.sstatus := rfl
@[simp] theorem violation_busy (r : FaultReason) (s : State) : (violation r s).busy = false := rfl
@[simp] theorem violation_op (r : FaultReason) (s : State) : (violation r s).op = s.op := rfl
@[simp] theorem violation_fault (r : FaultReason) (s : State) : (violation r s).fault = true := rfl
@[simp] theorem violation_faultReason (r : FaultReason) (s : State) : (violation r s).faultReason = if s.fault then s.faultReason else r := rfl
@[simp] theorem violation_rxq (r : FaultReason) (s : State) : (violation r s).rxq = s.rxq := rfl
@[simp] theorem violation_txlog (r : FaultReason) (s : State) : (violation r s).txlog = s.txlog := rfl
@[simp] theorem violation_handed (r : FaultReason) (s : State) : (violation r s).handed = false := rfl
@[simp] theorem violation_crcShown (r : FaultReason) (s : State) : (violation r s).crcShown = s.crcShown := rfl
@[simp] theorem violation_rxShown (r : FaultReason) (s : State) : (violation r s).rxShown = s.rxShown := rfl
@[simp] theorem violation_quota (r : FaultReason) (s : State) : (violation r s).quota = s.quota := rfl
@[simp] theorem violation_sched (r : FaultReason) (s : State) : (violation r s).sched = s.sched := rfl
@[simp] theorem violation_port (r : FaultReason) (s : State) : (violation r s).port = s.port := rfl
@[simp] theorem violation_devq (r : FaultReason) (s : State) : (violation r s).devq = s.devq := rfl

/-! ## frmStart -/

@[simp] theorem frmStart_cfg (s : State) : (frmStart s).cfg = s.cfg := rfl
@[simp] theorem frmStart_crc (s : State) : (frmStart s).crc = s.crc := rfl
@[simp] theorem frmStart_rxbuf (s : State) : (frmStart s).rxbuf = [] := rfl
@[simp] theorem frmStart_plen (s : State) : (frmStart s).plen = s.plen := rfl
@[simp] theorem frmStart_rw (s : State) : (frmStart s).rw = s.rw := rfl
@[simp] theorem frmStart_rxcnt (s : State) : (frmStart s).rxcnt = 0 := rfl
@[simp] theorem frmStart_fstate (s : State) : (frmStart s).fstate = .head := rfl
@[simp] theorem frmStart_fstatus (s : State) : (frmStart s).fstatus = .none := rfl
@[simp] theorem frmStart_pktValid (s : State) : (frmStart s).pktValid = false := rfl
@[simp] theorem frmStart_txbuf (s : State) : (frmStart s).txbuf = s.txbuf := rfl
@[simp] theorem frmStart_txlen (s : State) : (frmStart s).txlen = s.txlen := rfl
@[simp] theorem frmStart_txcnt (s : State) : (frmStart s).txcnt = s.txcnt := rfl
@[simp] theorem frmStart_cmd (s : State) : (frmStart s).cmd = s.cmd := rfl
@[simp] theorem frmStart_iswr (s : State) : (frmStart s).iswr = s.iswr := rfl
@[simp] theorem frmStart_attempts (s : State) : (frmStart s).attempts = s.attempts := rfl
@[simp] theorem frmStart_tstate (s : State) : (frmStart s).tstate = s.tstate := rfl
@[simp] theorem frmStart_tresult (s : State) : (frmStart s).tresult = s.tresult := rfl
@[simp] theorem frmStart_sfAlarm (s : State) : (frmStart s).sfAlarm = s.sfAlarm := rfl
@[simp] theorem frmStart_sfPps (s : State) : (frmStart s).sfPps = s.sfPps := rfl
@[simp] theorem frmStart_sfFwd (s : State) : (frmStart s).sfFwd = s.sfFwd := rfl
@[simp] theorem frmStart_sfMv (s : State) : (frmStart s).sfMv = s.sfMv := rfl
@[simp] theorem frmStart_sfRev (s : State) : (frmStart s).sfRev = s.sfRev := rfl
@[simp] theorem frmStart_sfTotal (s : State) : (frmStart s).sfTotal = s.sfTotal := rfl
@[simp] theorem frmStart_sfCount (s : State) : (frmStart s).sfCount = s.sfCount := rfl
@[simp] theorem frmStart_sfStart (s : State) : (frmStart s).sfStart = s.sfStart := rfl
@[simp] theorem frmStart_sfDist (s : State) : (frmStart s).sfDist = s.sfDist := rfl
@[simp] theorem frmStart_sfValid (s : State) : (frmStart s).sfValid = s.sfValid := rfl
@[simp] theorem frmStart_sstatus (s : State) : (frmStart s).sstatus = s.sstatus := rfl
@[simp] theorem frmStart_busy (s : State) : (frmStart s).busy = s.busy := rfl
@[simp] theorem frmStart_op (s : State) : (frmStart s).op = s.op := rfl
@[simp] theorem frmStart_fault (s : State) : (frmStart s).fault = s.fault := rfl
@[simp] theorem frmStart_faultReason (s : State) : (frmStart s).faultReason = s.faultReason := rfl
@[simp] theorem frmStart_rxq (s : State) : (frmStart s).rxq = s.rxq := rfl
@[simp] theorem frmStart_txlog (s : State) : (frmStart s).txlog = s.txlog := rfl
@[simp] theorem frmStart_handed (s : State) : (frmStart s).handed = s.handed := rfl
@[simp] theorem frmStart_crcShown (s : State) : (frmStart s).crcShown = s.crcShown := rfl
@[simp] theorem frmStart_rxShown (s : State) : (frmStart s).rxShown = .none := rfl
@[simp] theorem frmStart_quota (s : State) : (frmStart s).quota = s.quota := rfl
@[simp] theorem frmStart_sched (s : State) : (frmStart s).sched = s.sched := rfl
@[simp] theorem frmStart_port (s : State) : (frmStart s).port = s.port := rfl
@[simp] theorem frmStart_devq (s : State) : (frmStart s).devq = s.devq := rfl

/-! ## frmEnd -/

@[simp] theorem frmEnd_cfg (st : FStatus) (s : State) : (frmEnd st s).cfg = s.cfg := rfl
@[simp] theorem frmEnd_crc (st : FStatus) (s : State) : (frmEnd st s).crc = s.crc := rfl
@[simp] theorem frmEnd_rxbuf (st : FStatus) (s : State) : (frmEnd st s).rxbuf = s.rxbuf := rfl
@[simp] theorem frmEnd_plen (st : FStatus) (s : State) : (frmEnd st s).plen = s.plen := rfl
@[simp] theorem frmEnd_rw (st : FStatus) (s : State) : (frmEnd st s).rw = s.rw := rfl
@[simp] theorem frmEnd_rxcnt (st : FStatus) (s : State) : (frmEnd st s).rxcnt = s.rxcnt := rfl
@[simp] theorem frmEnd_fstate (st : FStatus) (s : State) : (frmEnd st s).fstate = .idle := rfl
@[simp] theorem frmEnd_fstatus (st : FStatus) (s : State) : (frmEnd st s).fstatus = st := rfl
@[simp] theorem frmEnd_pktValid (st : FStatus) (s : State) : (frmEnd st s).pktValid = s.pktValid := rfl
@[simp] theorem frmEnd_txbuf (st : FStatus) (s : State) : (frmEnd st s).txbuf = s.txbuf := rfl
@[simp] theorem frmEnd_txlen (st : FStatus) (s : State) : (frmEnd st s).txlen = s.txlen := rfl
@[simp] theorem frmEnd_txcnt (st : FStatus) (s : State) : (frmEnd st s).txcnt = s.txcnt := rfl
@[simp] theorem frmEnd_cmd (st : FStatus) (s : State) : (frmEnd st s).cmd = s.cmd := rfl
@[simp] theorem frmEnd_iswr (st : FStatus) (s : State) : (frmEnd st s).iswr = s.iswr := rfl
@[simp] theorem frmEnd_attempts (st : FStatus) (s : State) : (frmEnd st s).attempts = s.attempts := rfl
@[simp] theorem frmEnd_tstate (st : FStatus) (s : State) : (frmEnd st s).tstate = s.tstate := rfl
@[simp] theorem frmEnd_tresult (st : FStatus) (s : State) : (frmEnd st s).tresult = s.tresult := rfl
@[simp] theorem frmEnd_sfAlarm (st : FStatus) (s : State) : (frmEnd st s).sfAlarm = s.sfAlarm := rfl
@[simp] theorem frmEnd_sfPps (st : FStatus) (s : State) : (frmEnd st s).sfPps = s.sfPps := rfl
@[simp] theorem frmEnd_sfFwd (st : FStatus) (s : State) : (frmEnd st s).sfFwd = s.sfFwd := rfl
@[simp] theorem frmEnd_sfMv (st : FStatus) (s : State) : (frmEnd st s).sfMv = s.sfMv := rfl
@[simp] theorem frmEnd_sfRev (st : FStatus) (s : State) : (frmEnd st s).sfRev = s.sfRev := rfl
@[simp] theorem frmEnd_sfTotal (st : FStatus) (s : State) : (frmEnd st s).sfTotal = s.sfTotal := rfl
@[simp] theorem frmEnd_sfCount (st : FStatus) (s : State) : (frmEnd st s).sfCount = s.sfCount := rfl
@[simp] theorem frmEnd_sfStart (st : FStatus) (s : State) : (frmEnd st s).sfStart = s.sfStart := rfl
@[simp] theorem frmEnd_sfDist (st : FStatus) (s : State) : (frmEnd st s).sfDist = s.sfDist := rfl
@[simp] theorem frmEnd_sfValid (st : FStatus) (s : State) : (frmEnd st s).sfValid = s.sfValid := rfl
@[simp] theorem frmEnd_sstatus (st : FStatus) (s : State) : (frmEnd st s).sstatus = s.sstatus := rfl
@[simp] theorem frmEnd_busy (st : FStatus) (s : State) : (frmEnd st s).busy = s.busy := rfl
@[simp] theorem frmEnd_op (st : FStatus) (s : State) : (frmEnd st s).op = s.op := rfl
@[simp] theorem frmEnd_fault (st : FStatus) (s : State) : (frmEnd st s).fault = s.fault := rfl
@[simp] theorem frmEnd_faultReason (st : FStatus) (s : State) : (frmEnd st s).faultReason = s.faultReason := rfl
@[simp] theorem frmEnd_rxq (st : FStatus) (s : State) : (frmEnd st s).rxq = s.rxq := rfl
@[simp] theorem frmEnd_txlog (st : FStatus) (s : State) : (frmEnd st s).txlog = s.txlog := rfl
@[simp] theorem frmEnd_handed (st : FStatus) (s : State) : (frmEnd st s).handed = s.handed := rfl
@[simp] theorem frmEnd_crcShown (st : FStatus) (s : State) : (frmEnd st s).crcShown = s.crcShown := rfl
@[simp] theorem frmEnd_rxShown (st : FStatus) (s : State) : (frmEnd st s).rxShown = s.rxShown := rfl
@[simp] theorem frmEnd_quota (st : FStatus) (s : State) : (frmEnd st s).quota = s.quota := rfl
@[simp] theorem frmEnd_sched (st : FStatus) (s : State) : (frmEnd st s).sched = s.sched := rfl
@[simp] theorem frmEnd_port (st : FStatus) (s : State) : (frmEnd st s).port = s.port := rfl
@[simp] theorem frmEnd_devq (st : FStatus) (s : State) : (frmEnd st s).devq = s.devq := rfl

/-! ## rdpktAccept -/

@[simp] theorem rdpktAccept_cfg (s : State) : (rdpktAccept s).cfg = s.cfg := rfl
@[simp] theorem rdpktAccept_crc (s : State) : (rdpktAccept s).crc = s.crc := rfl
@[simp] theorem rdpktAccept_rxbuf (s : State) : (rdpktAccept s).rxbuf = s.rxbuf := rfl
@[simp] theorem rdpktAccept_plen (s : State) : (rdpktAccept s).plen = s.plen := rfl
@[simp] theorem rdpktAccept_rw (s : State) : (rdpktAccept s).rw = s.rw := rfl
@[simp] theorem rdpktAccept_rxcnt (s : State) : (rdpktAccept s).rxcnt = s.rxcnt := rfl
@[simp] theorem rdpktAccept_fstate (s : State) : (rdpktAccept s).fstate = s.fstate := rfl
@[simp] theorem rdpktAccept_fstatus (s : State) : (rdpktAccept s).fstatus = s.fstatus := rfl
@[simp] theorem rdpktAccept_pktValid (s : State) : (rdpktAccept s).pktValid = s.pktValid := rfl
@[simp] theorem rdpktAccept_txbuf (s : State) : (rdpktAccept s).txbuf = s.txbuf := rfl
@[simp] theorem rdpktAccept_txlen (s : State) : (rdpktAccept s).txlen = s.txlen := rfl
@[simp] theorem rdpktAccept_txcnt (s : State) : (rdpktAccept s).txcnt = s.txcnt := rfl
@[simp] theorem rdpktAccept_cmd (s : State) : (rdpktAccept s).cmd = s.cmd := rfl
@[simp] theorem rdpktAccept_iswr (s : State) : (rdpktAccept s).iswr = s.iswr := rfl
@[simp] theorem rdpktAccept_attempts (s : State) : (rdpktAccept s).attempts = s.attempts := rfl
@[simp] theorem rdpktAccept_tstate (s : State) : (rdpktAccept s).tstate = s.tstate := rfl
@[simp] theorem rdpktAccept_tresult (s : State) : (rdpktAccept s).tresult = s.tresult := rfl
@[simp] theorem rdpktAccept_sfAlarm (s : State) : (rdpktAccept s).sfAlarm = s.sfAlarm := rfl
@[simp] theorem rdpktAccept_sfPps (s : State) : (rdpktAccept s).sfPps = s.sfPps := rfl
@[simp] theorem rdpktAccept_sfFwd (s : State) : (rdpktAccept s).sfFwd = s.sfFwd := rfl
@[simp] theorem rdpktAccept_sfMv (s : State) : (rdpktAccept s).sfMv = s.sfMv := rfl
@[simp] theorem rdpktAccept_sfRev (s : State) : (rdpktAccept s).sfRev = s.sfRev := rfl
@[simp] theorem rdpktAccept_sfTotal (s : State) : (rdpktAccept s).sfTotal = s.sfTotal := rfl
@[simp] theorem rdpktAccept_sfCount (s : State) : (rdpktAccept s).sfCount = s.sfCount := rfl
@[simp] theorem rdpktAccept_sfStart (s : State) : (rdpktAccept s).sfStart = s.sfStart := rfl
@[simp] theorem rdpktAccept_sfDist (s : State) : (rdpktAccept s).sfDist = s.sfDist := rfl
@[simp] theorem rdpktAccept_sfValid (s : State) : (rdpktAccept s).sfValid = s.sfValid := rfl
@[simp] theorem rdpktAccept_sstatus (s : State) : (rdpktAccept s).sstatus = s.sstatus := rfl
@[simp] theorem rdpktAccept_busy (s : State) : (rdpktAccept s).busy = true := rfl
@[simp] theorem rdpktAccept_op (s : State) : (rdpktAccept s).op = .rdpkt := rfl
@[simp] theorem rdpktAccept_fault (s : State) : (rdpktAccept s).fault = s.fault := rfl
@[simp] theorem rdpktAccept_faultReason (s : State) : (rdpktAccept s).faultReason = s.faultReason := rfl
@[simp] theorem rdpktAccept_rxq (s : State) : (rdpktAccept s).rxq = s.rxq := rfl
@[simp] theorem rdpktAccept_txlog (s : State) : (rdpktAccept s).txlog = s.txlog := rfl
@[simp] theorem rdpktAccept_handed (s : State) : (rdpktAccept s).handed = s.handed := rfl
@[simp] theorem rdpktAccept_crcShown (s : State) : (rdpktAccept s).crcShown = false := rfl
@[simp] theorem rdpktAccept_rxShown (s : State) : (rdpktAccept s).rxShown = s.rxShown := rfl
@[simp] theorem rdpktAccept_quota (s : State) : (rdpktAccept s).quota = s.quota := rfl
@[simp] theorem rdpktAccept_sched (s : State) : (rdpktAccept s).sched = s.sched := rfl
@[simp] theorem rdpktAccept_port (s : State) : (rdpktAccept s).port = s.port := rfl
@[simp] theorem rdpktAccept_devq (s : State) : (rdpktAccept s).devq = s.devq := rfl

/-! ## rdpktDeliver -/

@[simp] theorem rdpktDeliver_cfg (s : State) : (rdpktDeliver s).cfg = s.cfg := rfl
@[simp] theorem rdpktDeliver_crc (s : State) : (rdpktDeliver s).crc = s.crc := rfl
@[simp] theorem rdpktDeliver_rxbuf (s : State) : (rdpktDeliver s).rxbuf = s.rxbuf := rfl
@[simp] theorem rdpktDeliver_plen (s : State) : (rdpktDeliver s).plen = s.plen := rfl
@[simp] theorem rdpktDeliver_rw (s : State) : (rdpktDeliver s).rw = s.rw := rfl
@[simp] theorem rdpktDeliver_rxcnt (s : State) : (rdpktDeliver s).rxcnt = s.rxcnt := rfl
@[simp] theorem rdpktDeliver_fstate (s : State) : (rdpktDeliver s).fstate = s.fstate := rfl
@[simp] theorem rdpktDeliver_fstatus (s : State) : (rdpktDeliver s).fstatus = s.fstatus := rfl
@[simp] theorem rdpktDeliver_pktValid (s : State) : (rdpktDeliver s).pktValid = s.pktValid := rfl
@[simp] theorem rdpktDeliver_txbuf (s : State) : (rdpktDeliver s).txbuf = s.txbuf := rfl
@[simp] theorem rdpktDeliver_txlen (s : State) : (rdpktDeliver s).txlen = s.txlen := rfl
@[simp] theorem rdpktDeliver_txcnt (s : State) : (rdpktDeliver s).txcnt = s.txcnt := rfl
@[simp] theorem rdpktDeliver_cmd (s : State) : (rdpktDeliver s).cmd = s.cmd := rfl
@[simp] theorem rdpktDeliver_iswr (s : State) : (rdpktDeliver s).iswr = s.iswr := rfl
@[simp] theorem rdpktDeliver_attempts (s : State) : (rdpktDeliver s).attempts = s.attempts := rfl
@[simp] theorem rdpktDeliver_tstate (s : State) : (rdpktDeliver s).tstate = s.tstate := rfl
@[simp] theorem rdpktDeliver_tresult (s : State) : (rdpktDeliver s).tresult = s.tresult := rfl
@[simp] theorem rdpktDeliver_sfAlarm (s : State) : (rdpktDeliver s).sfAlarm = s.sfAlarm := rfl
@[simp] theorem rdpktDeliver_sfPps (s : State) : (rdpktDeliver s).sfPps = s.sfPps := rfl
@[simp] theorem rdpktDeliver_sfFwd (s : State) : (rdpktDeliver s).sfFwd = s.sfFwd := rfl
@[simp] theorem rdpktDeliver_sfMv (s : State) : (rdpktDeliver s).sfMv = s.sfMv := rfl
@[simp] theorem rdpktDeliver_sfRev (s : State) : (rdpktDeliver s).sfRev = s.sfRev := rfl
@[simp] theorem rdpktDeliver_sfTotal (s : State) : (rdpktDeliver s).sfTotal = s.sfTotal := rfl
@[simp] theorem rdpktDeliver_sfCount (s : State) : (rdpktDeliver s).sfCount = s.sfCount := rfl
@[simp] theorem rdpktDeliver_sfStart (s : State) : (rdpktDeliver s).sfStart = s.sfStart := rfl
@[simp] theorem rdpktDeliver_sfDist (s : State) : (rdpktDeliver s).sfDist = s.sfDist := rfl
@[simp] theorem rdpktDeliver_sfValid (s : State) : (rdpktDeliver s).sfValid = s.sfValid := rfl
@[simp] theorem rdpktDeliver_sstatus (s : State) : (rdpktDeliver s).sstatus = s.sstatus := rfl
@[simp] theorem rdpktDeliver_busy (s : State) : (rdpktDeliver s).busy = false := rfl
@[simp] theorem rdpktDeliver_op (s : State) : (rdpktDeliver s).op = s.op := rfl
@[simp] theorem rdpktDeliver_fault (s : State) : (rdpktDeliver s).fault = s.fault := rfl
@[simp] theorem rdpktDeliver_faultReason (s : State) : (rdpktDeliver s).faultReason = s.faultReason := rfl
@[simp] theorem rdpktDeliver_rxq (s : State) : (rdpktDeliver s).rxq = s.rxq := rfl
@[simp] theorem rdpktDeliver_txlog (s : State) : (rdpktDeliver s).txlog = s.txlog := rfl
@[simp] theorem rdpktDeliver_handed (s : State) : (rdpktDeliver s).handed = true := rfl
@[simp] theorem rdpktDeliver_crcShown (s : State) : (rdpktDeliver s).crcShown = s.crcShown := rfl
@[simp] theorem rdpktDeliver_rxShown (s : State) : (rdpktDeliver s).rxShown = if s.pktValid then .packet else .none := rfl
@[simp] theorem rdpktDeliver_quota (s : State) : (rdpktDeliver s).quota = s.quota := rfl
@[simp] theorem rdpktDeliver_sched (s : State) : (rdpktDeliver s).sched = s.sched := rfl
@[simp] theorem rdpktDeliver_port (s : State) : (rdpktDeliver s).port = s.port := rfl
@[simp] theorem rdpktDeliver_devq (s : State) : (rdpktDeliver s).devq = s.devq := rfl

/-! ## txnAccept -/

@[simp] theorem txnAccept_cfg (o : Op) (w : Bool) (c : Byte) (s : State) : (txnAccept o w c s).cfg = s.cfg := rfl
@[simp] theorem txnAccept_crc (o : Op) (w : Bool) (c : Byte) (s : State) : (txnAccept o w c s).crc = s.crc := rfl
@[simp] theorem txnAccept_rxbuf (o : Op) (w : Bool) (c : Byte) (s : State) : (txnAccept o w c s).rxbuf = s.rxbuf := rfl
@[simp] theorem txnAccept_plen (o : Op) (w : Bool) (c : Byte) (s : State) : (txnAccept o w c s).plen = s.plen := rfl
@[simp] theorem txnAccept_rw (o : Op) (w : Bool) (c : Byte) (s : State) : (txnAccept o w c s).rw = s.rw := rfl
@[simp] theorem txnAccept_rxcnt (o : Op) (w : Bool) (c : Byte) (s : State) : (txnAccept o w c s).rxcnt = s.rxcnt := rfl
@[simp] theorem txnAccept_fstate (o : Op) (w : Bool) (c : Byte) (s : State) : (txnAccept o w c s).fstate = s.fstate := rfl
@[simp] theorem txnAccept_fstatus (o : Op) (w : Bool) (c : Byte) (s : State) : (txnAccept o w c s).fstatus = s.fstatus := rfl
@[simp] theorem txnAccept_pktValid (o : Op) (w : Bool) (c : Byte) (s : State) : (txnAccept o w c s).pktValid = s.pktValid := rfl
@[simp] theorem txnAccept_txbuf (o : Op) (w : Bool) (c : Byte) (s : State) : (txnAccept o w c s).txbuf = s.txbuf := rfl
@[simp] theorem txnAccept_txlen (o : Op) (w : Bool) (c : Byte) (s : State) : (txnAccept o w c s).txlen = s.txlen := rfl
@[simp] theorem txnAccept_txcnt (o : Op) (w : Bool) (c : Byte) (s : State) : (txnAccept o w c s).txcnt = s.txcnt := rfl
@[simp] theorem txnAccept_cmd (o : Op) (w : Bool) (c : Byte) (s : State) : (txnAccept o w c s).cmd = c := rfl
@[simp] theorem txnAccept_iswr (o : Op) (w : Bool) (c : Byte) (s : State) : (txnAccept o w c s).iswr = w := rfl
@[simp] theorem txnAccept_attempts (o : Op) (w : Bool) (c : Byte) (s : State) : (txnAccept o w c s).attempts = s.attempts := rfl
@[simp] theorem txnAccept_tstate (o : Op) (w : Bool) (c : Byte) (s : State) : (txnAccept o w c s).tstate = s.tstate := rfl
@[simp] theorem txnAccept_tresult (o : Op) (w : Bool) (c : Byte) (s : State) : (txnAccept o w c s).tresult = .none := rfl
@[simp] theorem txnAccept_sfAlarm (o : Op) (w : Bool) (c : Byte) (s : State) : (txnAccept o w c s).sfAlarm = s.sfAlarm := rfl
@[simp] theorem txnAccept_sfPps (o : Op) (w : Bool) (c : Byte) (s : State) : (txnAccept o w c s).sfPps = s.sfPps := rfl
@[simp] theorem txnAccept_sfFwd (o : Op) (w : Bool) (c : Byte) (s : State) : (txnAccept o w c s).sfFwd = s.sfFwd := rfl
@[simp] theorem txnAccept_sfMv (o : Op) (w : Bool) (c : Byte) (s : State) : (txnAccept o w c s).sfMv = s.sfMv := rfl
@[simp] theorem txnAccept_sfRev (o : Op) (w : Bool) (c : Byte) (s : State) : (txnAccept o w c s).sfRev = s.sfRev := rfl
@[simp] theorem txnAccept_sfTotal (o : Op) (w : Bool) (c : Byte) (s : State) : (txnAccept o w c s).sfTotal = s.sfTotal := rfl
@[simp] theorem txnAccept_sfCount (o : Op) (w : Bool) (c : Byte) (s : State) : (txnAccept o w c s).sfCount = s.sfCount := rfl
@[simp] theorem txnAccept_sfStart (o : Op) (w : Bool) (c : Byte) (s : State) : (txnAccept o w c s).sfStart = s.sfStart := rfl
@[simp] theorem txnAccept_sfDist (o : Op) (w : Bool) (c : Byte) (s : State) : (txnAccept o w c s).sfDist = s.sfDist := rfl
@[simp] theorem txnAccept_sfValid (o : Op) (w : Bool) (c : Byte) (s : State) : (txnAccept o w c s).sfValid = s.sfValid := rfl
@[simp] theorem txnAccept_sstatus (o : Op) (w : Bool) (c : Byte) (s : State) : (txnAccept o w c s).sstatus = s.sstatus := rfl
@[simp] theorem txnAccept_busy (o : Op) (w : Bool) (c : Byte) (s : State) : (txnAccept o w c s).busy = true := rfl
@[simp] theorem txnAccept_op (o : Op) (w : Bool) (c : Byte) (s : State) : (txnAccept o w c s).op = o := rfl
@[simp] theorem txnAccept_fault (o : Op) (w : Bool) (c : Byte) (s : State) : (txnAccept o w c s).fault = s.fault := rfl
@[simp] theorem txnAccept_faultReason (o : Op) (w : Bool) (c : Byte) (s : State) : (txnAccept o w c s).faultReason = s.faultReason := rfl
@[simp] theorem txnAccept_rxq (o : Op) (w : Bool) (c : Byte) (s : State) : (txnAccept o w c s).rxq = s.rxq := rfl
@[simp] theorem txnAccept_txlog (o : Op) (w : Bool) (c : Byte) (s : State) : (txnAccept o w c s).txlog = s.txlog := rfl
@[simp] theorem txnAccept_handed (o : Op) (w : Bool) (c : Byte) (s : State) : (txnAccept o w c s).handed = s.handed := rfl
@[simp] theorem txnAccept_crcShown (o : Op) (w : Bool) (c : Byte) (s : State) : (txnAccept o w c s).crcShown = false := rfl
@[simp] theorem txnAccept_rxShown (o : Op) (w : Bool) (c : Byte) (s : State) : (txnAccept o w c s).rxShown = s.rxShown := rfl
@[simp] theorem txnAccept_quota (o : Op) (w : Bool) (c : Byte) (s : State) : (txnAccept o w c s).quota = s.quota := rfl
@[simp] theorem txnAccept_sched (o : Op) (w : Bool) (c : Byte) (s : State) : (txnAccept o w c s).sched = s.sched := rfl
@[simp] theorem txnAccept_port (o : Op) (w : Bool) (c : Byte) (s : State) : (txnAccept o w c s).port = s.port := rfl
@[simp] theorem txnAccept_devq (o : Op) (w : Bool) (c : Byte) (s : State) : (txnAccept o w c s).devq = s.devq := rfl

/-! ## txnAwait -/

@[simp] theorem txnAwait_cfg (s : State) : (txnAwait s).cfg = s.cfg := rfl
@[simp] theorem txnAwait_crc (s : State) : (txnAwait s).crc = s.crc := rfl
@[simp] theorem txnAwait_rxbuf (s : State) : (txnAwait s).rxbuf = s.rxbuf := rfl
@[simp] theorem txnAwait_plen (s : State) : (txnAwait s).plen = s.plen := rfl
@[simp] theorem txnAwait_rw (s : State) : (txnAwait s).rw = s.rw := rfl
@[simp] theorem txnAwait_rxcnt (s : State) : (txnAwait s).rxcnt = s.rxcnt := rfl
@[simp] theorem txnAwait_fstate (s : State) : (txnAwait s).fstate = s.fstate := rfl
@[simp] theorem txnAwait_fstatus (s : State) : (txnAwait s).fstatus = s.fstatus := rfl
@[simp] theorem txnAwait_pktValid (s : State) : (txnAwait s).pktValid = s.pktValid := rfl
@[simp] theorem txnAwait_txbuf (s : State) : (txnAwait s).txbuf = s.txbuf := rfl
@[simp] theorem txnAwait_txlen (s : State) : (txnAwait s).txlen = s.txlen := rfl
@[simp] theorem txnAwait_txcnt (s : State) : (txnAwait s).txcnt = s.txcnt := rfl
@[simp] theorem txnAwait_cmd (s : State) : (txnAwait s).cmd = s.cmd := rfl
@[simp] theorem txnAwait_iswr (s : State) : (txnAwait s).iswr = s.iswr := rfl
@[simp] theorem txnAwait_attempts (s : State) : (txnAwait s).attempts = 0 := rfl
@[simp] theorem txnAwait_tstate (s : State) : (txnAwait s).tstate = .await := rfl
@[simp] theorem txnAwait_tresult (s : State) : (txnAwait s).tresult = s.tresult := rfl
@[simp] theorem txnAwait_sfAlarm (s : State) : (txnAwait s).sfAlarm = s.sfAlarm := rfl
@[simp] theorem txnAwait_sfPps (s : State) : (txnAwait s).sfPps = s.sfPps := rfl
@[simp] theorem txnAwait_sfFwd (s : State) : (txnAwait s).sfFwd = s.sfFwd := rfl
@[simp] theorem txnAwait_sfMv (s : State) : (txnAwait s).sfMv = s.sfMv := rfl
@[simp] theorem txnAwait_sfRev (s : State) : (txnAwait s).sfRev = s.sfRev := rfl
@[simp] theorem txnAwait_sfTotal (s : State) : (txnAwait s).sfTotal = s.sfTotal := rfl
@[simp] theorem txnAwait_sfCount (s : State) : (txnAwait s).sfCount = s.sfCount := rfl
@[simp] theorem txnAwait_sfStart (s : State) : (txnAwait s).sfStart = s.sfStart := rfl
@[simp] theorem txnAwait_sfDist (s : State) : (txnAwait s).sfDist = s.sfDist := rfl
@[simp] theorem txnAwait_sfValid (s : State) : (txnAwait s).sfValid = s.sfValid := rfl
@[simp] theorem txnAwait_sstatus (s : State) : (txnAwait s).sstatus = s.sstatus := rfl
@[simp] theorem txnAwait_busy (s : State) : (txnAwait s).busy = s.busy := rfl
@[simp] theorem txnAwait_op (s : State) : (txnAwait s).op = s.op := rfl
@[simp] theorem txnAwait_fault (s : State) : (txnAwait s).fault = s.fault := rfl
@[simp] theorem txnAwait_faultReason (s : State) : (txnAwait s).faultReason = s.faultReason := rfl
@[simp] theorem txnAwait_rxq (s : State) : (txnAwait s).rxq = s.rxq := rfl
@[simp] theorem txnAwait_txlog (s : State) : (txnAwait s).txlog = s.txlog := rfl
@[simp] theorem txnAwait_handed (s : State) : (txnAwait s).handed = s.handed := rfl
@[simp] theorem txnAwait_crcShown (s : State) : (txnAwait s).crcShown = s.crcShown := rfl
@[simp] theorem txnAwait_rxShown (s : State) : (txnAwait s).rxShown = s.rxShown := rfl
@[simp] theorem txnAwait_quota (s : State) : (txnAwait s).quota = s.quota := rfl
@[simp] theorem txnAwait_sched (s : State) : (txnAwait s).sched = s.sched := rfl
@[simp] theorem txnAwait_port (s : State) : (txnAwait s).port = s.port := rfl
@[simp] theorem txnAwait_devq (s : State) : (txnAwait s).devq = s.devq := rfl

/-! ## txnSuccess -/

@[simp] theorem txnSuccess_cfg (s : State) : (txnSuccess s).cfg = s.cfg := rfl
@[simp] theorem txnSuccess_crc (s : State) : (txnSuccess s).crc = s.crc := rfl
@[simp] theorem txnSuccess_rxbuf (s : State) : (txnSuccess s).rxbuf = s.rxbuf := rfl
@[simp] theorem txnSuccess_plen (s : State) : (txnSuccess s).plen = s.plen := rfl
@[simp] theorem txnSuccess_rw (s : State) : (txnSuccess s).rw = s.rw := rfl
@[simp] theorem txnSuccess_rxcnt (s : State) : (txnSuccess s).rxcnt = s.rxcnt := rfl
@[simp] theorem txnSuccess_fstate (s : State) : (txnSuccess s).fstate = s.fstate := rfl
@[simp] theorem txnSuccess_fstatus (s : State) : (txnSuccess s).fstatus = s.fstatus := rfl
@[simp] theorem txnSuccess_pktValid (s : State) : (txnSuccess s).pktValid = s.pktValid := rfl
@[simp] theorem txnSuccess_txbuf (s : State) : (txnSuccess s).txbuf = s.txbuf := rfl
@[simp] theorem txnSuccess_txlen (s : State) : (txnSuccess s).txlen = s.txlen := rfl
@[simp] theorem txnSuccess_txcnt (s : State) : (txnSuccess s).txcnt = s.txcnt := rfl
@[simp] theorem txnSuccess_cmd (s : State) : (txnSuccess s).cmd = s.cmd := rfl
@[simp] theorem txnSuccess_iswr (s : State) : (txnSuccess s).iswr = s.iswr := rfl
@[simp] theorem txnSuccess_attempts (s : State) : (txnSuccess s).attempts = s.attempts := rfl
@[simp] theorem txnSuccess_tstate (s : State) : (txnSuccess s).tstate = .success := rfl
@[simp] theorem txnSuccess_tresult (s : State) : (txnSuccess s).tresult = .success := rfl
@[simp] theorem txnSuccess_sfAlarm (s : State) : (txnSuccess s).sfAlarm = s.sfAlarm := rfl
@[simp] theorem txnSuccess_sfPps (s : State) : (txnSuccess s).sfPps = s.sfPps := rfl
@[simp] theorem txnSuccess_sfFwd (s : State) : (txnSuccess s).sfFwd = s.sfFwd := rfl
@[simp] theorem txnSuccess_sfMv (s : State) : (txnSuccess s).sfMv = s.sfMv := rfl
@[simp] theorem txnSuccess_sfRev (s : State) : (txnSuccess s).sfRev = s.sfRev := rfl
@[simp] theorem txnSuccess_sfTotal (s : State) : (txnSuccess s).sfTotal = s.sfTotal := rfl
@[simp] theorem txnSuccess_sfCount (s : State) : (txnSuccess s).sfCount = s.sfCount := rfl
@[simp] theorem txnSuccess_sfStart (s : State) : (txnSuccess s).sfStart = s.sfStart := rfl
@[simp] theorem txnSuccess_sfDist (s : State) : (txnSuccess s).sfDist = s.sfDist := rfl
@[simp] theorem txnSuccess_sfValid (s : State) : (txnSuccess s).sfValid = s.sfValid := rfl
@[simp] theorem txnSuccess_sstatus (s : State) : (txnSuccess s).sstatus = s.sstatus := rfl
@[simp] theorem txnSuccess_busy (s : State) : (txnSuccess s).busy = s.busy := rfl
@[simp] theorem txnSuccess_op (s : State) : (txnSuccess s).op = s.op := rfl
@[simp] theorem txnSuccess_fault (s : State) : (txnSuccess s).fault = s.fault := rfl
@[simp] theorem txnSuccess_faultReason (s : State) : (txnSuccess s).faultReason = s.faultReason := rfl
@[simp] theorem txnSuccess_rxq (s : State) : (txnSuccess s).rxq = s.rxq := rfl
@[simp] theorem txnSuccess_txlog (s : State) : (txnSuccess s).txlog = s.txlog := rfl
@[simp] theorem txnSuccess_handed (s : State) : (txnSuccess s).handed = s.handed := rfl
@[simp] theorem txnSuccess_crcShown (s : State) : (txnSuccess s).crcShown = s.crcShown := rfl
@[simp] theorem txnSuccess_rxShown (s : State) : (txnSuccess s).rxShown = if s.iswr then .none else .payload := rfl
@[simp] theorem txnSuccess_quota (s : State) : (txnSuccess s).quota = s.quota := rfl
@[simp] theorem txnSuccess_sched (s : State) : (txnSuccess s).sched = s.sched := rfl
@[simp] theorem txnSuccess_port (s : State) : (txnSuccess s).port = s.port := rfl
@[simp] theorem txnSuccess_devq (s : State) : (txnSuccess s).devq = s.devq := rfl

/-! ## txnTimeout -/

@[simp] theorem txnTimeout_cfg (s : State) : (txnTimeout s).cfg = s.cfg := rfl
@[simp] theorem txnTimeout_crc (s : State) : (txnTimeout s).crc = s.crc := rfl
@[simp] theorem txnTimeout_rxbuf (s : State) : (txnTimeout s).rxbuf = s.rxbuf := rfl
@[simp] theorem txnTimeout_plen (s : State) : (txnTimeout s).plen = s.plen := rfl
@[simp] theorem txnTimeout_rw (s : State) : (txnTimeout s).rw = s.rw := rfl
@[simp] theorem txnTimeout_rxcnt (s : State) : (txnTimeout s).rxcnt = s.rxcnt := rfl
@[simp] theorem txnTimeout_fstate (s : State) : (txnTimeout s).fstate = s.fstate := rfl
@[simp] theorem txnTimeout_fstatus (s : State) : (txnTimeout s).fstatus = s.fstatus := rfl
@[simp] theorem txnTimeout_pktValid (s : State) : (txnTimeout s).pktValid = s.pktValid := rfl
@[simp] theorem txnTimeout_txbuf (s : State) : (txnTimeout s).txbuf = s.txbuf := rfl
@[simp] theorem txnTimeout_txlen (s : State) : (txnTimeout s).txlen = s.txlen := rfl
@[simp] theorem txnTimeout_txcnt (s : State) : (txnTimeout s).txcnt = s.txcnt := rfl
@[simp] theorem txnTimeout_cmd (s : State) : (txnTimeout s).cmd = s.cmd := rfl
@[simp] theorem txnTimeout_iswr (s : State) : (txnTimeout s).iswr = s.iswr := rfl
@[simp] theorem txnTimeout_attempts (s : State) : (txnTimeout s).attempts = s.attempts := rfl
@[simp] theorem txnTimeout_tstate (s : State) : (txnTimeout s).tstate = .timeout := rfl
@[simp] theorem txnTimeout_tresult (s : State) : (txnTimeout s).tresult = .timeout := rfl
@[simp] theorem txnTimeout_sfAlarm (s : State) : (txnTimeout s).sfAlarm = s.sfAlarm := rfl
@[simp] theorem txnTimeout_sfPps (s : State) : (txnTimeout s).sfPps = s.sfPps := rfl
@[simp] theorem txnTimeout_sfFwd (s : State) : (txnTimeout s).sfFwd = s.sfFwd := rfl
@[simp] theorem txnTimeout_sfMv (s : State) : (txnTimeout s).sfMv = s.sfMv := rfl
@[simp] theorem txnTimeout_sfRev (s : State) : (txnTimeout s).sfRev = s.sfRev := rfl
@[simp] theorem txnTimeout_sfTotal (s : State) : (txnTimeout s).sfTotal = s.sfTotal := rfl
@[simp] theorem txnTimeout_sfCount (s : State) : (txnTimeout s).sfCount = s.sfCount := rfl
@[simp] theorem txnTimeout_sfStart (s : State) : (txnTimeout s).sfStart = s.sfStart := rfl
@[simp] theorem txnTimeout_sfDist (s : State) : (txnTimeout s).sfDist = s.sfDist := rfl
@[simp] theorem txnTimeout_sfValid (s : State) : (txnTimeout s).sfValid = s.sfValid := rfl
@[simp] theorem txnTimeout_sstatus (s : State) : (txnTimeout s).sstatus = s.sstatus := rfl
@[simp] theorem txnTimeout_busy (s : State) : (txnTimeout s).busy = s.busy := rfl
@[simp] theorem txnTimeout_op (s : State) : (txnTimeout s).op = s.op := rfl
@[simp] theorem txnTimeout_fault (s : State) : (txnTimeout s).fault = s.fault := rfl
@[simp] theorem txnTimeout_faultReason (s : State) : (txnTimeout s).faultReason = s.faultReason := rfl
@[simp] theorem txnTimeout_rxq (s : State) : (txnTimeout s).rxq = s.rxq := rfl
@[simp] theorem txnTimeout_txlog (s : State) : (txnTimeout s).txlog = s.txlog := rfl
@[simp] theorem txnTimeout_handed (s : State) : (txnTimeout s).handed = s.handed := rfl
@[simp] theorem txnTimeout_crcShown (s : State) : (txnTimeout s).crcShown = s.crcShown := rfl
@[simp] theorem txnTimeout_rxShown (s : State) : (txnTimeout s).rxShown = s.rxShown := rfl
@[simp] theorem txnTimeout_quota (s : State) : (txnTimeout s).quota = s.quota := rfl
@[simp] theorem txnTimeout_sched (s : State) : (txnTimeout s).sched = s.sched := rfl
@[simp] theorem txnTimeout_port (s : State) : (txnTimeout s).port = s.port := rfl
@[simp] theorem txnTimeout_devq (s : State) : (txnTimeout s).devq = s.devq := rfl

/-! ## txnDeliver -/

@[simp] theorem txnDeliver_cfg (s : State) : (txnDeliver s).cfg = s.cfg := rfl
@[simp] theorem txnDeliver_crc (s : State) : (txnDeliver s).crc = s.crc := rfl
@[simp] theorem txnDeliver_rxbuf (s : State) : (txnDeliver s).rxbuf = s.rxbuf := rfl
@[simp] theorem txnDeliver_plen (s : State) : (txnDeliver s).plen = s.plen := rfl
@[simp] theorem txnDeliver_rw (s : State) : (txnDeliver s).rw = s.rw := rfl
@[simp] theorem txnDeliver_rxcnt (s : State) : (txnDeliver s).rxcnt = s.rxcnt := rfl
@[simp] theorem txnDeliver_fstate (s : State) : (txnDeliver s).fstate = s.fstate := rfl
@[simp] theorem txnDeliver_fstatus (s : State) : (txnDeliver s).fstatus = s.fstatus := rfl
@[simp] theorem txnDeliver_pktValid (s : State) : (txnDeliver s).pktValid = s.pktValid := rfl
@[simp] theorem txnDeliver_txbuf (s : State) : (txnDeliver s).txbuf = s.txbuf := rfl
@[simp] theorem txnDeliver_txlen (s : State) : (txnDeliver s).txlen = s.txlen := rfl
@[simp] theorem txnDeliver_txcnt (s : State) : (txnDeliver s).txcnt = s.txcnt := rfl
@[simp] theorem txnDeliver_cmd (s : State) : (txnDeliver s).cmd = s.cmd := rfl
@[simp] theorem txnDeliver_iswr (s : State) : (txnDeliver s).iswr = s.iswr := rfl
@[simp] theorem txnDeliver_attempts (s : State) : (txnDeliver s).attempts = s.attempts := rfl
@[simp] theorem txnDeliver_tstate (s : State) : (txnDeliver s).tstate = .idle := rfl
@[simp] theorem txnDeliver_tresult (s : State) : (txnDeliver s).tresult = s.tresult := rfl
@[simp] theorem txnDeliver_sfAlarm (s : State) : (txnDeliver s).sfAlarm = s.sfAlarm := rfl
@[simp] theorem txnDeliver_sfPps (s : State) : (txnDeliver s).sfPps = s.sfPps := rfl
@[simp] theorem txnDeliver_sfFwd (s : State) : (txnDeliver s).sfFwd = s.sfFwd := rfl
@[simp] theorem txnDeliver_sfMv (s : State) : (txnDeliver s).sfMv = s.sfMv := rfl
@[simp] theorem txnDeliver_sfRev (s : State) : (txnDeliver s).sfRev = s.sfRev := rfl
@[simp] theorem txnDeliver_sfTotal (s : State) : (txnDeliver s).sfTotal = s.sfTotal := rfl
@[simp] theorem txnDeliver_sfCount (s : State) : (txnDeliver s).sfCount = s.sfCount := rfl
@[simp] theorem txnDeliver_sfStart (s : State) : (txnDeliver s).sfStart = s.sfStart := rfl
@[simp] theorem txnDeliver_sfDist (s : State) : (txnDeliver s).sfDist = s.sfDist := rfl
@[simp] theorem txnDeliver_sfValid (s : State) : (txnDeliver s).sfValid = s.sfValid := rfl
@[simp] theorem txnDeliver_sstatus (s : State) : (txnDeliver s).sstatus = s.sstatus := rfl
@[simp] theorem txnDeliver_busy (s : State) : (txnDeliver s).busy = false := rfl
@[simp] theorem txnDeliver_op (s : State) : (txnDeliver s).op = s.op := rfl
@[simp] theorem txnDeliver_fault (s : State) : (txnDeliver s).fault = s.fault := rfl
@[simp] theorem txnDeliver_faultReason (s : State) : (txnDeliver s).faultReason = s.faultReason := rfl
@[simp] theorem txnDeliver_rxq (s : State) : (txnDeliver s).rxq = s.rxq := rfl
@[simp] theorem txnDeliver_txlog (s : State) : (txnDeliver s).txlog = s.txlog := rfl
@[simp] theorem txnDeliver_handed (s : State) : (txnDeliver s).handed = true := rfl
@[simp] theorem txnDeliver_crcShown (s : State) : (txnDeliver s).crcShown = s.crcShown := rfl
@[simp] theorem txnDeliver_rxShown (s : State) : (txnDeliver s).rxShown = s.rxShown := rfl
@[simp] theorem txnDeliver_quota (s : State) : (txnDeliver s).quota = s.quota := rfl
@[simp] theorem txnDeliver_sched (s : State) : (txnDeliver s).sched = s.sched := rfl
@[simp] theorem txnDeliver_port (s : State) : (txnDeliver s).port = s.port := rfl
@[simp] theorem txnDeliver_devq (s : State) : (txnDeliver s).devq = s.devq := rfl

/-! ## cksUpdate -/

@[simp] theorem cksUpdate_cfg (data : List Byte) (s : State) : (cksUpdate data s).cfg = s.cfg := rfl
@[simp] theorem cksUpdate_crc (data : List Byte) (s : State) : (cksUpdate data s).crc = cks data := rfl
@[simp] theorem cksUpdate_rxbuf (data : List Byte) (s : State) : (cksUpdate data s).rxbuf = s.rxbuf := rfl
@[simp] theorem cksUpdate_plen (data : List Byte) (s : State) : (cksUpdate data s).plen = s.plen := rfl
@[simp] theorem cksUpdate_rw (data : List Byte) (s : State) : (cksUpdate data s).rw = s.rw := rfl
@[simp] theorem cksUpdate_rxcnt (data : List Byte) (s : State) : (cksUpdate data s).rxcnt = s.rxcnt := rfl
@[simp] theorem cksUpdate_fstate (data : List Byte) (s : State) : (cksUpdate data s).fstate = s.fstate := rfl
@[simp] theorem cksUpdate_fstatus (data : List Byte) (s : State) : (cksUpdate data s).fstatus = s.fstatus := rfl
@[simp] theorem cksUpdate_pktValid (data : List Byte) (s : State) : (cksUpdate data s).pktValid = s.pktValid := rfl
@[simp] theorem cksUpdate_txbuf (data : List Byte) (s : State) : (cksUpdate data s).txbuf = s.txbuf := rfl
@[simp] theorem cksUpdate_txlen (data : List Byte) (s : State) : (cksUpdate data s).txlen = s.txlen := rfl
@[simp] theorem cksUpdate_txcnt (data : List Byte) (s : State) : (cksUpdate data s).txcnt = s.txcnt := rfl
@[simp] theorem cksUpdate_cmd (data : List Byte) (s : State) : (cksUpdate data s).cmd = s.cmd := rfl
@[simp] theorem cksUpdate_iswr (data : List Byte) (s : State) : (cksUpdate data s).iswr = s.iswr := rfl
@[simp] theorem cksUpdate_attempts (data : List Byte) (s : State) : (cksUpdate data s).attempts = s.attempts := rfl
@[simp] theorem cksUpdate_tstate (data : List Byte) (s : State) : (cksUpdate data s).tstate = s.tstate := rfl
@[simp] theorem cksUpdate_tresult (data : List Byte) (s : State) : (cksUpdate data s).tresult = s.tresult := rfl
@[simp] theorem cksUpdate_sfAlarm (data : List Byte) (s : State) : (cksUpdate data s).sfAlarm = s.sfAlarm := rfl
@[simp] theorem cksUpdate_sfPps (data : List Byte) (s : State) : (cksUpdate data s).sfPps = s.sfPps := rfl
@[simp] theorem cksUpdate_sfFwd (data : List Byte) (s : State) : (cksUpdate data s).sfFwd = s.sfFwd := rfl
@[simp] theorem cksUpdate_sfMv (data : List Byte) (s : State) : (cksUpdate data s).sfMv = s.sfMv := rfl
@[simp] theorem cksUpdate_sfRev (data : List Byte) (s : State) : (cksUpdate data s).sfRev = s.sfRev := rfl
@[simp] theorem cksUpdate_sfTotal (data : List Byte) (s : State) : (cksUpdate data s).sfTotal = s.sfTotal := rfl
@[simp] theorem cksUpdate_sfCount (data : List Byte) (s : State) : (cksUpdate data s).sfCount = s.sfCount := rfl
@[simp] theorem cksUpdate_sfStart (data : List Byte) (s : State) : (cksUpdate data s).sfStart = s.sfStart := rfl
@[simp] theorem cksUpdate_sfDist (data : List Byte) (s : State) : (cksUpdate data s).sfDist = s.sfDist := rfl
@[simp] theorem cksUpdate_sfValid (data : List Byte) (s : State) : (cksUpdate data s).sfValid = s.sfValid := rfl
@[simp] theorem cksUpdate_sstatus (data : List Byte) (s : State) : (cksUpdate data s).sstatus = s.sstatus := rfl
@[simp] theorem cksUpdate_busy (data : List Byte) (s : State) : (cksUpdate data s).busy = s.busy := rfl
@[simp] theorem cksUpdate_op (data : List Byte) (s : State) : (cksUpdate data s).op = s.op := rfl
@[simp] theorem cksUpdate_fault (data : List Byte) (s : State) : (cksUpdate data s).fault = s.fault := rfl
@[simp] theorem cksUpdate_faultReason (data : List Byte) (s : State) : (cksUpdate data s).faultReason = s.faultReason := rfl
@[simp] theorem cksUpdate_rxq (data : List Byte) (s : State) : (cksUpdate data s).rxq = s.rxq := rfl
@[simp] theorem cksUpdate_txlog (data : List Byte) (s : State) : (cksUpdate data s).txlog = s.txlog := rfl
@[simp] theorem cksUpdate_handed (data : List Byte) (s : State) : (cksUpdate data s).handed = s.handed := rfl
@[simp] theorem cksUpdate_crcShown (data : List Byte) (s : State) : (cksUpdate data s).crcShown = true := rfl
@[simp] theorem cksUpdate_rxShown (data : List Byte) (s : State) : (cksUpdate data s).rxShown = s.rxShown := rfl
@[simp] theorem cksUpdate_quota (data : List Byte) (s : State) : (cksUpdate data s).quota = s.quota := rfl
@[simp] theorem cksUpdate_sched (data : List Byte) (s : State) : (cksUpdate data s).sched = s.sched := rfl
@[simp] theorem cksUpdate_port (data : List Byte) (s : State) : (cksUpdate data s).port = s.port := rfl
@[simp] theorem cksUpdate_devq (data : List Byte) (s : State) : (cksUpdate data s).devq = s.devq := rfl

/-! ## A turn of the device agent: only RXQ and the script change -/

@[simp] theorem deviceTurn_cfg (s : State) : (deviceTurn s).cfg = s.cfg := by
  unfold deviceTurn; split <;> rfl
@[simp] theorem deviceTurn_crc (s : State) : (deviceTurn s).crc = s.crc := by
  unfold deviceTurn; split <;> rfl
@[simp] theorem deviceTurn_rxbuf (s : State) : (deviceTurn s).rxbuf = s.rxbuf := by
  unfold deviceTurn; split <;> rfl
@[simp] theorem deviceTurn_plen (s : State) : (deviceTurn s).plen = s.plen := by
  unfold deviceTurn; split <;> rfl
@[simp] theorem deviceTurn_rw (s : State) : (deviceTurn s).rw = s.rw := by
  unfold deviceTurn; split <;> rfl
@[simp] theorem deviceTurn_rxcnt (s : State) : (deviceTurn s).rxcnt = s.rxcnt := by
  unfold deviceTurn; split <;> rfl
@[simp] theorem deviceTurn_fstate (s : State) : (deviceTurn s).fstate = s.fstate := by
  unfold deviceTurn; split <;> rfl
@[simp] theorem deviceTurn_fstatus (s : State) : (deviceTurn s).fstatus = s.fstatus := by
  unfold deviceTurn; split <;> rfl
@[simp] theorem deviceTurn_pktValid (s : State) : (deviceTurn s).pktValid = s.pktValid := by
  unfold deviceTurn; split <;> rfl
@[simp] theorem deviceTurn_txbuf (s : State) : (deviceTurn s).txbuf = s.txbuf := by
  unfold deviceTurn; split <;> rfl
@[simp] theorem deviceTurn_txlen (s : State) : (deviceTurn s).txlen = s.txlen := by
  unfold deviceTurn; split <;> rfl
@[simp] theorem deviceTurn_txcnt (s : State) : (deviceTurn s).txcnt = s.txcnt := by
  unfold deviceTurn; split <;> rfl
@[simp] theorem deviceTurn_cmd (s : State) : (deviceTurn s).cmd = s.cmd := by
  unfold deviceTurn; split <;> rfl
@[simp] theorem deviceTurn_iswr (s : State) : (deviceTurn s).iswr = s.iswr := by
  unfold deviceTurn; split <;> rfl
@[simp] theorem deviceTurn_attempts (s : State) : (deviceTurn s).attempts = s.attempts := by
  unfold deviceTurn; split <;> rfl
@[simp] theorem deviceTurn_tstate (s : State) : (deviceTurn s).tstate = s.tstate := by
  unfold deviceTurn; split <;> rfl
@[simp] theorem deviceTurn_tresult (s : State) : (deviceTurn s).tresult = s.tresult := by
  unfold deviceTurn; split <;> rfl
@[simp] theorem deviceTurn_sfAlarm (s : State) : (deviceTurn s).sfAlarm = s.sfAlarm := by
  unfold deviceTurn; split <;> rfl
@[simp] theorem deviceTurn_sfPps (s : State) : (deviceTurn s).sfPps = s.sfPps := by
  unfold deviceTurn; split <;> rfl
@[simp] theorem deviceTurn_sfFwd (s : State) : (deviceTurn s).sfFwd = s.sfFwd := by
  unfold deviceTurn; split <;> rfl
@[simp] theorem deviceTurn_sfMv (s : State) : (deviceTurn s).sfMv = s.sfMv := by
  unfold deviceTurn; split <;> rfl
@[simp] theorem deviceTurn_sfRev (s : State) : (deviceTurn s).sfRev = s.sfRev := by
  unfold deviceTurn; split <;> rfl
@[simp] theorem deviceTurn_sfTotal (s : State) : (deviceTurn s).sfTotal = s.sfTotal := by
  unfold deviceTurn; split <;> rfl
@[simp] theorem deviceTurn_sfCount (s : State) : (deviceTurn s).sfCount = s.sfCount := by
  unfold deviceTurn; split <;> rfl
@[simp] theorem deviceTurn_sfStart (s : State) : (deviceTurn s).sfStart = s.sfStart := by
  unfold deviceTurn; split <;> rfl
@[simp] theorem deviceTurn_sfDist (s : State) : (deviceTurn s).sfDist = s.sfDist := by
  unfold deviceTurn; split <;> rfl
@[simp] theorem deviceTurn_sfValid (s : State) : (deviceTurn s).sfValid = s.sfValid := by
  unfold deviceTurn; split <;> rfl
@[simp] theorem deviceTurn_sstatus (s : State) : (deviceTurn s).sstatus = s.sstatus := by
  unfold deviceTurn; split <;> rfl
@[simp] theorem deviceTurn_busy (s : State) : (deviceTurn s).busy = s.busy := by
  unfold deviceTurn; split <;> rfl
@[simp] theorem deviceTurn_op (s : State) : (deviceTurn s).op = s.op := by
  unfold deviceTurn; split <;> rfl
@[simp] theorem deviceTurn_fault (s : State) : (deviceTurn s).fault = s.fault := by
  unfold deviceTurn; split <;> rfl
@[simp] theorem deviceTurn_faultReason (s : State) : (deviceTurn s).faultReason = s.faultReason := by
  unfold deviceTurn; split <;> rfl
@[simp] theorem deviceTurn_txlog (s : State) : (deviceTurn s).txlog = s.txlog := by
  unfold deviceTurn; split <;> rfl
@[simp] theorem deviceTurn_handed (s : State) : (deviceTurn s).handed = s.handed := by
  unfold deviceTurn; split <;> rfl
@[simp] theorem deviceTurn_crcShown (s : State) : (deviceTurn s).crcShown = s.crcShown := by
  unfold deviceTurn; split <;> rfl
@[simp] theorem deviceTurn_rxShown (s : State) : (deviceTurn s).rxShown = s.rxShown := by
  unfold deviceTurn; split <;> rfl
@[simp] theorem deviceTurn_quota (s : State) : (deviceTurn s).quota = s.quota := by
  unfold deviceTurn; split <;> rfl
@[simp] theorem deviceTurn_sched (s : State) : (deviceTurn s).sched = s.sched := by
  unfold deviceTurn; split <;> rfl
@[simp] theorem deviceTurn_port (s : State) : (deviceTurn s).port = s.port := by
  unfold deviceTurn; split <;> rfl

@[simp] theorem deviceTurn_rxq (s : State) : (deviceTurn s).rxq = s.rxq ++ s.devq.headD [] := by
  unfold deviceTurn; split <;> simp [*]

@[simp] theorem deviceTurn_devq (s : State) : (deviceTurn s).devq = s.devq.tail := by
  unfold deviceTurn; split <;> simp [*]

theorem deviceTurn_eq (s : State) :
    deviceTurn s = { s with rxq := s.rxq ++ s.devq.headD [], devq := s.devq.tail } := by
  unfold deviceTurn
  cases s with | mk => split <;> simp_all

end Sys2Proof.Machine
end

