-- ==== Sys2Proof/Laws/Framer.lean ====
section
/-! SUPPORT. What the framer's steps can do: 41_framer R141 to R147. -/

namespace Sys2Proof.Machine

@[simp] theorem except_ok_bind {α β : Type} (a : α) (f : α → Except Fault β) : (Except.ok a >>= f) = f a := rfl

@[simp] theorem except_error_bind {α β : Type} (e : Fault) (f : α → Except Fault β) :
    ((Except.error e : Except Fault α) >>= f) = .error e := rfl

/-- What succeeded in sequence succeeded in each part. -/
theorem bind_ok {α β : Type} {x : Except Fault α} {f : α → Except Fault β} {b : β} (h : x >>= f = .ok b) :
    ∃ a, x = .ok a ∧ f a = .ok b := by
  cases x with
  | error e => cases h
  | ok a => exact ⟨a, rfl, h⟩

@[simp] theorem spent_of_unlimited {s : State} (h : s.unlimited) : s.spent = false := by simp [State.spent, h]

theorem spend_of_unlimited {s : State} (h : s.unlimited) : spend s = s := by
  cases s
  simp only [State.unlimited] at h
  simp [spend, h]

/-- `n` byte steps without a limit take what RXQ has of `n` bytes and store it behind the bytes already there
(R142, R146). -/
theorem frmRead_ofBytes (n : Nat) (s : State) (bs : List Byte) (hb : s.rxbuf = Mem.ofBytes bs)
    (hc : s.rxcnt = bs.length) (hm : bs.length + n ≤ s.cfg.maxResponseSize) (hu : s.unlimited) :
    frmRead n s = .ok { s with
      rxbuf := Mem.ofBytes (bs ++ s.rxq.take n), rxcnt := bs.length + (s.rxq.take n).length, rxq := s.rxq.drop n } := by
  induction n generalizing s bs with
  | zero => cases s; simp_all [frmRead]
  | succ n ih =>
    cases hq : s.rxq with
    | nil => cases s; simp_all [frmRead, chRead]
    | cons b q =>
      have hw := bufWrite_ofBytes (c := s.cfg) (bs := bs) b (by omega)
      simp only [frmRead, chRead, hq, spent_of_unlimited hu, Bool.false_eq_true, if_false]
      rw [spend_of_unlimited (by simpa using hu)]
      simp only [frmStore, hb, hc, hw, except_ok_bind]
      rw [ih _ (bs ++ [b]) rfl (by simp) (by simp; omega) (by simpa using hu)]
      simp [Nat.add_assoc, Nat.add_comm 1]

/-- Whatever the step's limit, `n` byte steps store at most `n` more bytes of RXQ behind those already there, and change
nothing else but RXQ and what is left of the limit. -/
theorem frmRead_stores (n : Nat) (s : State) (bs : List Byte) (hb : s.rxbuf = Mem.ofBytes bs)
    (hc : s.rxcnt = bs.length) (hm : bs.length + n ≤ s.cfg.maxResponseSize) :
    ∃ bs' q u, frmRead n s = .ok { s with rxbuf := Mem.ofBytes bs', rxcnt := bs'.length, rxq := q, quota := u }
      ∧ bs.length ≤ bs'.length ∧ bs'.length ≤ bs.length + n := by
  induction n generalizing s bs with
  | zero => exact ⟨bs, s.rxq, s.quota, by cases s; simp_all [frmRead], by omega, by omega⟩
  | succ n ih =>
    unfold frmRead
    split
    · exact ⟨bs, s.rxq, s.quota, by cases s; simp_all, by omega, by omega⟩
    · cases hq : s.rxq with
      | nil => exact ⟨bs, s.rxq, s.quota, by cases s; simp_all [chRead], by omega, by omega⟩
      | cons b q =>
        have hw := bufWrite_ofBytes (c := s.cfg) (bs := bs) b (by omega)
        simp only [chRead, hq, frmStore, spend_cfg, spend_rxbuf, spend_rxcnt, hb, hc, hw, except_ok_bind]
        obtain ⟨bs', q', u, h, h1, h2⟩ := ih { spend { s with rxq := q } with
            rxbuf := Mem.ofBytes (bs ++ [b]), rxcnt := bs.length + 1 } (bs ++ [b]) rfl (by simp) (by simp; omega)
        exact ⟨bs', q', u, h, by simp at h1; omega, by simp at h2; omega⟩

/-- Byte steps on an empty queue do nothing: `ChRead()` holds (R149). -/
theorem frmRead_empty (n : Nat) (s : State) (h : s.rxq = []) : frmRead n s = .ok s := by
  cases n with
  | zero => rfl
  | succ n => simp [frmRead, chRead, h]

/-- A first byte that is not the start byte ends the attempt (R143). -/
theorem frmHeader_badStart (s : State) (b0 b1 b2 : Byte) (hm : 3 ≤ s.cfg.maxResponseSize)
    (hb : s.rxbuf = Mem.ofBytes [b0, b1, b2]) (h : b0 ≠ startByte) :
    frmHeader s = .ok (frmEnd .badStartByte s) := by
  have h0 : bufRead s.cfg s.rxbuf 0 = .ok b0 := by rw [hb]; exact bufRead_ofBytes (by omega) rfl
  simp [frmHeader, h0, h]

/-- With a good start byte the header is decoded and its length tested (R144, R145). -/
theorem frmHeader_good (s : State) (b1 b2 : Byte) (hm : 3 ≤ s.cfg.maxResponseSize)
    (hb : s.rxbuf = Mem.ofBytes [startByte, b1, b2]) :
    frmHeader s =
      if legalPlen s.cfg (hdrPlen (le16 b1 b2)) then
        .ok { s with rw := hdrRw (le16 b1 b2), plen := hdrPlen (le16 b1 b2), fstate := .body }
      else
        .ok { s with
          rw := hdrRw (le16 b1 b2), plen := hdrPlen (le16 b1 b2), fstatus := .invalidLength, fstate := .idle } := by
  have h0 : bufRead s.cfg s.rxbuf 0 = .ok startByte := by rw [hb]; exact bufRead_ofBytes (by omega) rfl
  have h1 : bufRead2 s.cfg s.rxbuf 1 = .ok (le16 b1 b2) := by
    rw [hb]; exact bufRead2_ofBytes (by omega) rfl rfl
  simp only [frmHeader, h0, h1, except_ok_bind, ne_eq, not_true_eq_false, if_false, legalPlen, frmEnd]
  split
  · split
    · omega
    · rfl
  · split
    · rfl
    · omega

/-- The checksum test on a whole packet in RXBUF (R147). -/
theorem frmCheck_ofBytes (s : State) (hdr ck : Half) (pl : List Byte) (hp : s.plen.toNat = pl.length)
    (hm : pl.length + 5 ≤ s.cfg.maxResponseSize) (hb : s.rxbuf = Mem.ofBytes (packetBytes hdr pl ck)) :
    frmCheck s =
      if cks (packetHead hdr pl) = ck then
        .ok { s with crc := cks (packetHead hdr pl), fstatus := .ok, fstate := .idle, pktValid := true }
      else .ok { s with crc := cks (packetHead hdr pl), fstatus := .checksumMismatch, fstate := .idle } := by
  have h0 : bufSlice s.cfg s.rxbuf 0 (3 + s.plen.toNat) = .ok (packetHead hdr pl) := by
    rw [hb, bufSlice_ofBytes _ _ _ (by simp; omega) (by omega)]
    simp only [List.drop_zero, packetBytes]
    rw [List.take_append_of_le_length (by simp; omega), List.take_of_length_le (by simp; omega)]
  have h1 : bufRead2 s.cfg s.rxbuf (3 + s.plen.toNat) = .ok ck := by
    have e := bufRead2_ofBytes (c := s.cfg) (bs := packetBytes hdr pl ck) (i := 3 + s.plen.toNat)
      (b0 := lo8 ck) (b1 := hi8 ck) (by omega)
      (by simp only [packetBytes]; rw [List.getElem?_append_right (by simp; omega)]; simp [hp, Nat.add_comm])
      (by
        simp only [packetBytes]
        rw [List.getElem?_append_right (by simp; omega)]
        have : 3 + s.plen.toNat + 1 - (packetHead hdr pl).length = 1 := by simp; omega
        rw [this]; rfl)
    rw [hb, e, le16_lo8_hi8]
  simp only [frmCheck, h0, h1, except_ok_bind, frmEnd]
  by_cases h : cks (packetHead hdr pl) = ck <;> simp [h]

/-- A head phase with too few bytes in RXQ stops with all of them stored (R142, R149). -/
theorem frmRun_head_short (s : State) (bs : List Byte) (hs : s.fstate = .head) (hb : s.rxbuf = Mem.ofBytes bs)
    (hc : s.rxcnt = bs.length) (hl : bs.length + s.rxq.length < 3) (hm : 3 ≤ s.cfg.maxResponseSize)
    (hu : s.unlimited) :
    frmRun s = .ok { s with
      rxbuf := Mem.ofBytes (bs ++ s.rxq), rxcnt := bs.length + s.rxq.length, rxq := [] } := by
  have hr := frmRead_ofBytes (3 - s.rxcnt) s bs hb hc (by omega) hu
  rw [List.take_of_length_le (by omega), List.drop_eq_nil_of_le (by omega)] at hr
  simp [frmRun, hs, frmHead, hr, hl]

/-- A body phase with too few bytes in RXQ stops with all of them stored (R146, R149). -/
theorem frmRun_body_short (s : State) (bs : List Byte) (hs : s.fstate = .body) (hb : s.rxbuf = Mem.ofBytes bs)
    (hc : s.rxcnt = bs.length) (hl : bs.length + s.rxq.length < s.plen.toNat + 5)
    (hm : s.plen.toNat + 5 ≤ s.cfg.maxResponseSize) (hu : s.unlimited) :
    frmRun s = .ok { s with
      rxbuf := Mem.ofBytes (bs ++ s.rxq), rxcnt := bs.length + s.rxq.length, rxq := [] } := by
  have hr := frmRead_ofBytes (s.plen.toNat + 5 - s.rxcnt) s bs hb hc (by omega) hu
  rw [List.take_of_length_le (by omega), List.drop_eq_nil_of_le (by omega)] at hr
  simp [frmRun, hs, frmBody, hr, hl]

/-- A head phase that gets its three bytes tests them and goes on (R142 to R145). -/
theorem frmRun_head_full (s : State) (bs : List Byte) (hs : s.fstate = .head) (hb : s.rxbuf = Mem.ofBytes bs)
    (hc : s.rxcnt = bs.length) (h3 : bs.length ≤ 3) (hl : 3 ≤ bs.length + s.rxq.length)
    (hm : 3 ≤ s.cfg.maxResponseSize) (hu : s.unlimited) :
    frmRun s = (frmHeader { s with
        rxbuf := Mem.ofBytes (bs ++ s.rxq.take (3 - bs.length)), rxcnt := 3, rxq := s.rxq.drop (3 - bs.length) }
      >>= fun t => if t.fstate = .body then frmBody t else .ok t) := by
  have hr := frmRead_ofBytes (3 - bs.length) s bs hb hc (by omega) hu
  have hlen : bs.length + (s.rxq.take (3 - bs.length)).length = 3 := by simp; omega
  rw [hlen] at hr
  simp [frmRun, hs, frmHead, hr, hc]

/-- A body phase that gets all its bytes is tested (R146, R147). -/
theorem frmBody_full (s : State) (bs : List Byte) (hb : s.rxbuf = Mem.ofBytes bs)
    (hc : s.rxcnt = bs.length) (h5 : bs.length ≤ s.plen.toNat + 5) (hl : s.plen.toNat + 5 ≤ bs.length + s.rxq.length)
    (hm : s.plen.toNat + 5 ≤ s.cfg.maxResponseSize) (hu : s.unlimited) :
    frmBody s = frmCheck { s with
      rxbuf := Mem.ofBytes (bs ++ s.rxq.take (s.plen.toNat + 5 - bs.length)), rxcnt := s.plen.toNat + 5
      rxq := s.rxq.drop (s.plen.toNat + 5 - bs.length) } := by
  have hr := frmRead_ofBytes (s.plen.toNat + 5 - bs.length) s bs hb hc (by omega) hu
  have hlen : bs.length + (s.rxq.take (s.plen.toNat + 5 - bs.length)).length = s.plen.toNat + 5 := by simp; omega
  rw [hlen] at hr
  simp [frmBody, hr, hc]

/-- An attempt that has just started, with a whole packet of a legal length at the head of RXQ: exactly its bytes are
consumed and the checksum decides (R142 to R147). -/
theorem frmRun_packet (s : State) (hdr ck : Half) (pl rest : List Byte) (hs : s.fstate = .head) (hb : s.rxbuf = [])
    (hc : s.rxcnt = 0) (hq : s.rxq = packetBytes hdr pl ck ++ rest) (hp : (hdrPlen hdr).toNat = pl.length)
    (hl : legalPlen s.cfg (hdrPlen hdr)) (hm : 6 ≤ s.cfg.maxResponseSize)
    (hu : s.unlimited) :
    frmRun s = .ok { s with
      rxbuf := Mem.ofBytes (packetBytes hdr pl ck), rxcnt := pl.length + 5, rxq := rest
      plen := hdrPlen hdr, rw := hdrRw hdr, crc := cks (packetHead hdr pl), fstate := .idle
      fstatus := if cks (packetHead hdr pl) = ck then .ok else .checksumMismatch
      pktValid := if cks (packetHead hdr pl) = ck then true else s.pktValid } := by
  have hl' := hl
  obtain ⟨h1, h2⟩ := hl'
  have hq3 : s.rxq = startByte :: lo8 hdr :: hi8 hdr :: (pl ++ [lo8 ck, hi8 ck] ++ rest) := by
    simp [hq, packetBytes, packetHead]
  rw [frmRun_head_full s [] hs hb hc (by simp) (by simp [hq3]) (by omega) hu]
  simp only [hq3, List.nil_append, List.length_nil, Nat.sub_zero, List.take_succ_cons, List.take_zero,
    List.drop_succ_cons, List.drop_zero]
  rw [frmHeader_good _ (lo8 hdr) (hi8 hdr) (by simpa using (by omega : 3 ≤ s.cfg.maxResponseSize)) rfl]
  simp only [le16_lo8_hi8]
  rw [if_pos hl, except_ok_bind, if_pos rfl]
  rw [frmBody_full _ [startByte, lo8 hdr, hi8 hdr] rfl rfl (by simp) (by simp; omega) (by simp; omega) (by simpa using hu)]
  have ht : (pl ++ [lo8 ck, hi8 ck] ++ rest).take (pl.length + 5 - 3) = pl ++ [lo8 ck, hi8 ck] :=
    List.take_left' (by simp)
  have hd : (pl ++ [lo8 ck, hi8 ck] ++ rest).drop (pl.length + 5 - 3) = rest := List.drop_left' (by simp)
  simp only [hp, List.length_cons, List.length_nil, Nat.zero_add, Nat.reduceAdd, ht, hd]
  rw [frmCheck_ofBytes _ hdr ck pl hp (by simp; omega) (by simp [packetBytes, packetHead])]
  have he : startByte :: lo8 hdr :: hi8 hdr :: (pl ++ [lo8 ck, hi8 ck]) = packetBytes hdr pl ck := rfl
  by_cases h : cks (packetHead hdr pl) = ck <;> simp [h, he]

/-! ## What an attempt may change, and what it keeps -/

/-- `t` differs from `s` at most in CRC, FRM's registers, RXQ, and what is left of the step's limit (10_state R29,
41_framer R140). -/
def frmFrame (s t : State) : Prop :=
  t = { s with
    crc := t.crc, rxbuf := t.rxbuf, plen := t.plen, rw := t.rw, rxcnt := t.rxcnt, fstate := t.fstate
    fstatus := t.fstatus, pktValid := t.pktValid, rxq := t.rxq, quota := t.quota }

theorem frmFrame_refl (s : State) : frmFrame s s := rfl

theorem frmFrame_trans {s t u : State} (h₁ : frmFrame s t) (h₂ : frmFrame t u) : frmFrame s u := by
  unfold frmFrame at *
  rw [h₂, h₁]

/-- The start of an attempt also takes away what the host may read of RXBUF (44_host_ops R212). -/
theorem frmStart_frame (s : State) : frmFrame { s with rxShown := .none } (frmStart s) := rfl

theorem frmRead_frame {n : Nat} {s t : State} (h : frmRead n s = .ok t) : frmFrame s t := by
  induction n generalizing s with
  | zero => cases h; rfl
  | succ n ih =>
    unfold frmRead at h
    split at h
    · cases h; rfl
    · cases hq : s.rxq with
      | nil => simp only [chRead, hq] at h; cases h; rfl
      | cons b q =>
        simp only [chRead, hq] at h
        obtain ⟨u, hu, h⟩ := bind_ok h
        obtain ⟨m, -, hu⟩ := bind_ok hu
        cases hu
        have hf : frmFrame s { spend { s with rxq := q } with rxbuf := m, rxcnt := s.rxcnt + 1 } := rfl
        exact frmFrame_trans hf (ih h)

theorem frmHeader_frame {s t : State} (h : frmHeader s = .ok t) : frmFrame s t := by
  obtain ⟨b, -, h⟩ := bind_ok h
  split at h
  · cases h; rfl
  · obtain ⟨v, -, h⟩ := bind_ok h
    dsimp only at h
    split at h <;> cases h <;> rfl

theorem frmCheck_frame {s t : State} (h : frmCheck s = .ok t) : frmFrame s t := by
  obtain ⟨b, -, h⟩ := bind_ok h
  obtain ⟨v, -, h⟩ := bind_ok h
  dsimp only at h
  split at h <;> cases h <;> rfl

theorem frmBody_frame {s t : State} (h : frmBody s = .ok t) : frmFrame s t := by
  obtain ⟨u, hu, h⟩ := bind_ok h
  split at h
  · cases h; exact frmRead_frame hu
  · exact frmFrame_trans (frmRead_frame hu) (frmCheck_frame h)

/-- An attempt changes only what `frmFrame` names. -/
theorem frmRun_frame {s t : State} (h : frmRun s = .ok t) : frmFrame s t := by
  unfold frmRun at h
  split at h
  · cases h; rfl
  · obtain ⟨u, hu, h⟩ := bind_ok h
    split at h
    · cases h; exact frmRead_frame hu
    · obtain ⟨v, hv, h⟩ := bind_ok h
      have hf := frmFrame_trans (frmRead_frame hu) (frmHeader_frame hv)
      split at h
      · exact frmFrame_trans hf (frmBody_frame h)
      · cases h; exact hf
  · exact frmBody_frame h

/-- FRM's part of the invariant (R22, R32, R40, R43, R142, R146). -/
structure FrmInv (s : State) : Prop where
  rx : Mem.filled s.cfg s.rxbuf s.rxcnt
  head : s.fstate = .head → s.rxcnt < 3
  body : s.fstate = .body → legalPlen s.cfg s.plen ∧ s.rxcnt < s.plen.toNat + 5
  noOutcome : s.fstate ≠ .idle → s.fstatus = .none
  valid_iff : s.pktValid = true ↔ s.fstatus = .ok
  valid : s.pktValid = true → legalPlen s.cfg s.plen ∧ s.rxcnt = s.plen.toNat + 5
  shown : s.rxShown ≠ .none → s.pktValid = true

theorem frmStart_inv (s : State) : FrmInv (frmStart s) where
  rx := Mem.filled_nil _
  head := by simp
  body := by simp
  noOutcome := by simp
  valid_iff := by simp
  valid := by simp
  shown := by simp

/-- From a body phase in order, the attempt stops or ends in order, and never faults (R146, R147). -/
theorem frmBody_inv (s : State) (hs : s.fstate = .body) (bs : List Byte) (hb : s.rxbuf = Mem.ofBytes bs)
    (hc : s.rxcnt = bs.length) (h5 : bs.length < s.plen.toNat + 5) (hl : legalPlen s.cfg s.plen)
    (hm : 6 ≤ s.cfg.maxResponseSize) (hn : s.fstatus = .none) (hv : s.pktValid = false) (hw : s.rxShown = .none) :
    ∃ t, frmBody s = .ok t ∧ FrmInv t := by
  have hl' := hl
  obtain ⟨h1, h2⟩ := hl'
  obtain ⟨bs', q, u, hr, h3, h4⟩ := frmRead_stores (s.plen.toNat + 5 - bs.length) s bs hb hc (by omega)
  simp only [frmBody, hc, hr, except_ok_bind]
  have hf := Mem.filled_ofBytes (c := s.cfg) (bs := bs') (by omega)
  split
  · exact ⟨_, rfl, ⟨hf, by simp [hs], fun _ => ⟨hl, ‹_›⟩, by simp [hn], by simp [hn, hv], by simp [hv], by simp [hw]⟩⟩
  · have he : bs'.length = s.plen.toNat + 5 := by omega
    rw [he] at hf
    obtain ⟨sl, hsl⟩ := bufSlice_filled hf 0 (3 + s.plen.toNat) (by omega)
    obtain ⟨r, hr⟩ := bufRead2_filled hf (i := 3 + s.plen.toNat) (by omega)
    simp only [frmCheck, hsl, hr, except_ok_bind, he]
    split
    · exact ⟨_, rfl, ⟨hf, by simp, by simp, by simp, by simp [hv], by simp [hv], by simp [hw]⟩⟩
    · exact ⟨_, rfl, ⟨hf, by simp, by simp, by simp, by simp, fun _ => ⟨hl, rfl⟩, by simp⟩⟩

/-- From FRM in order an attempt stops or ends in order, and never faults (R142 to R149). -/
theorem frmRun_inv (s : State) (h : FrmInv s) (hm : 6 ≤ s.cfg.maxResponseSize) :
    ∃ t, frmRun s = .ok t ∧ FrmInv t := by
  obtain ⟨bs, hb, hc⟩ := Mem.filled_eq_ofBytes h.rx
  have hc := hc.symm
  have hrun : s.fstate ≠ .idle → s.fstatus = .none ∧ s.pktValid = false ∧ s.rxShown = .none := by
    intro hne
    have hn := h.noOutcome hne
    have hv : s.pktValid = false := Bool.eq_false_iff.mpr fun hv => by simp [h.valid_iff.mp hv] at hn
    refine ⟨hn, hv, ?_⟩
    by_contra hw
    exact absurd (h.shown hw) (by simp [hv])
  cases hs : s.fstate with
  | idle => exact ⟨s, by simp [frmRun, hs], h⟩
  | body =>
    obtain ⟨hn, hv, hw⟩ := hrun (by simp [hs])
    obtain ⟨hl, h5⟩ := h.body hs
    simpa [frmRun, hs] using frmBody_inv s hs bs hb hc (by omega) hl hm hn hv hw
  | head =>
    obtain ⟨hn, hv, hw⟩ := hrun (by simp [hs])
    have h3 := h.head hs
    obtain ⟨bs', q, u, hr, h4, h5⟩ := frmRead_stores (3 - bs.length) s bs hb hc (by omega)
    have hf := Mem.filled_ofBytes (c := s.cfg) (bs := bs') (by omega)
    simp only [frmRun, hs, frmHead, hc, hr, except_ok_bind]
    split
    · exact ⟨_, rfl, ⟨hf, fun _ => ‹_›, by simp, by simp [hn], by simp [hn, hv], by simp [hv], by simp [hw]⟩⟩
    · have he : bs'.length = 3 := by omega
      rw [he] at hf
      obtain ⟨b, hr, -⟩ := bufRead_filled hf (i := 0) (by omega)
      obtain ⟨v, hr2⟩ := bufRead2_filled hf (i := 1) (by omega)
      simp only [frmHeader, hr, hr2, except_ok_bind, he]
      split
      · exact ⟨_, rfl, ⟨hf, by simp, by simp, by simp, by simp [hv], by simp [hv], by simp [hw]⟩⟩
      · split
        · exact ⟨_, rfl, ⟨hf, by simp, by simp, by simp, by simp [hv], by simp [hv], by simp [hw]⟩⟩
        · rw [except_ok_bind, if_pos rfl]
          exact frmBody_inv _ rfl bs' rfl he.symm (by simp only [he]; omega) (by simp only [legalPlen]; omega) hm hn hv hw

end Sys2Proof.Machine
end

