-- ==== Sys2Proof/Laws/StreamDecoder.lean ====
section
/-! SUPPORT. What the stream decoder can do: 43_stream_decoder R190 to R202. -/

namespace Sys2Proof.Machine

/-- A slice that could be read gives each of its bytes. -/
theorem bufSlice_read {c : Cfg} {m : Mem} {i n : Nat} {bs : List Byte} (h : bufSlice c m i n = .ok bs) :
    bs.length = n ∧ ∀ j b, bs[j]? = some b → bufRead c m (i + j) = .ok b := by
  induction n generalizing i bs with
  | zero => cases h; simp
  | succ n ih =>
    obtain ⟨b0, h0, h⟩ := bind_ok h
    obtain ⟨bs', h1, h⟩ := bind_ok h
    cases h
    obtain ⟨hl, hr⟩ := ih h1
    refine ⟨by simp [hl], fun j b hj => ?_⟩
    cases j with
    | zero => simp at hj; subst hj; exact h0
    | succ j =>
      have := hr j b (by simpa using hj)
      rwa [Nat.add_assoc, Nat.add_comm 1 j] at this

/-- The bytes of a valid packet are the bytes RXBUF reads (R151, R190). -/
theorem pay_of_packet {s : State} {hdr ck : Half} {pl : List Byte} (h : s.packet = some (packetBytes hdr pl ck)) {i : Nat}
    {b : Byte} (hi : pl[i]? = some b) : pay s i = .ok b := by
  unfold State.packet State.rxBytes at h
  split at h
  · split at h
    · rename_i bs hb
      cases h
      refine (bufSlice_read hb).2 (3 + i) b ?_ |>.symm ▸ (by simp [pay])
      have hlt : i < pl.length := (List.getElem?_eq_some_iff.mp hi).1
      have e : (packetBytes hdr pl ck)[3 + i]? = (pl ++ [lo8 ck, hi8 ck])[i]? := by
        rw [Nat.add_comm]; rfl
      rw [e, List.getElem?_append_left hlt, hi]
    · cases h
  · cases h

theorem pay16_of_packet {s : State} {hdr ck : Half} {pl : List Byte} (h : s.packet = some (packetBytes hdr pl ck))
    {i : Nat} {b0 b1 : Byte} (h0 : pl[i]? = some b0) (h1 : pl[i + 1]? = some b1) : pay16 s i = .ok (le16 b0 b1) := by
  have e0 := pay_of_packet h h0
  have e1 := pay_of_packet h h1
  simp only [pay] at e0 e1
  simp only [pay16, bufRead2, e0, except_ok_bind]
  rw [show 3 + i + 1 = 3 + (i + 1) by omega, e1]
  rfl

/-- A valid packet is marked valid. -/
theorem pktValid_of_packet {s : State} {bs : List Byte} (h : s.packet = some bs) : s.pktValid = true := by
  unfold State.packet at h
  split at h
  · assumption
  · cases h

/-- The samples are the little-endian pairs of the payload from `i` on (R107, R197). -/
theorem samples_of_packet {s : State} {hdr ck : Half} {pl : List Byte} (h : s.packet = some (packetBytes hdr pl ck))
    (pre : List Byte) (ds : List Half) (extra : List Byte) (hp : pl = pre ++ (sampleBytes ds ++ extra)) :
    samples s pre.length ds.length = .ok ds := by
  induction ds generalizing pre with
  | nil => rfl
  | cons d ds ih =>
    have h0 : pl[pre.length]? = some (lo8 d) := by simp [hp, sampleBytes]
    have h1 : pl[pre.length + 1]? = some (hi8 d) := by
      rw [hp, List.getElem?_append_right (by omega)]
      simp [sampleBytes]
    have h2 := ih (pre ++ [lo8 d, hi8 d]) (by simp [hp, sampleBytes])
    simp only [List.length_append, List.length_cons, List.length_nil] at h2
    simp [samples, pay16_of_packet h h0 h1, h2]

/-- `t` differs from `s` at most in what SDEC may write: the stream-frame registers, SF_VALID, SSTATUS, BUSY, the fault
register, and whether a result is handed over (R190 to R200). -/
def sdecFrame (s t : State) : Prop :=
  t = { s with
    sfAlarm := t.sfAlarm, sfPps := t.sfPps, sfFwd := t.sfFwd, sfMv := t.sfMv, sfRev := t.sfRev, sfTotal := t.sfTotal
    sfCount := t.sfCount, sfStart := t.sfStart, sfDist := t.sfDist, sfValid := t.sfValid, sstatus := t.sstatus
    busy := t.busy, fault := t.fault, faultReason := t.faultReason, handed := t.handed }

theorem sdecFrame_trans {s t u : State} (h₁ : sdecFrame s t) (h₂ : sdecFrame t u) : sdecFrame s u := by
  unfold sdecFrame at *
  rw [h₂, h₁]

/-- The fixed fields are written whole and nothing else is (R194). -/
theorem sdecFields_cases {s t : State} (h : sdecFields s = .ok t) :
    ∃ alarm pps fwd mv rev total count start,
      t = { s with
        sfAlarm := lo8 alarm, sfPps := pps, sfFwd := fwd, sfMv := mv, sfRev := lo8 rev, sfTotal := total
        sfCount := count, sfStart := start } := by
  obtain ⟨a, -, h⟩ := bind_ok h
  obtain ⟨b, -, h⟩ := bind_ok h
  obtain ⟨c, -, h⟩ := bind_ok h
  obtain ⟨d, -, h⟩ := bind_ok h
  obtain ⟨e, -, h⟩ := bind_ok h
  obtain ⟨f, -, h⟩ := bind_ok h
  obtain ⟨g, -, h⟩ := bind_ok h
  obtain ⟨i, -, h⟩ := bind_ok h
  cases h
  exact ⟨a, b, c, d, e, f, g, i, rfl⟩

/-- What the count tests and the samples can do (R195 to R198). -/
theorem sdecSamples_cases {s t : State} (h : sdecSamples s = .ok t) :
    (s.cfg.streamMaxPoints < s.sfCount.toNat ∧ t = violation .pointCountOverCapacity s)
    ∨ (s.plen.toNat < s.cfg.layout.fixed + 2 * s.sfCount.toNat ∧ t = violation .streamTruncated s)
    ∨ ∃ ds, s.sfCount.toNat ≤ s.cfg.streamMaxPoints ∧ s.cfg.layout.fixed + 2 * s.sfCount.toNat ≤ s.plen.toNat ∧
        samples s s.cfg.layout.fixed s.sfCount.toNat = .ok ds ∧
        t = finish { s with sfDist := ds, sstatus := .ok, sfValid := true } := by
  unfold sdecSamples at h
  split at h
  · cases h; exact .inl ⟨‹_›, rfl⟩
  · split at h
    · cases h; exact .inr (.inl ⟨‹_›, rfl⟩)
    · obtain ⟨ds, hd, h⟩ := bind_ok h
      cases h
      exact .inr (.inr ⟨ds, by omega, by omega, hd, rfl⟩)

/-- As many samples as asked for. -/
theorem samples_length {s : State} {i k : Nat} {ds : List Half} (h : samples s i k = .ok ds) : ds.length = k := by
  induction k generalizing i ds with
  | zero => cases h; rfl
  | succ k ih =>
    obtain ⟨d, -, h⟩ := bind_ok h
    obtain ⟨ds', h', h⟩ := bind_ok h
    cases h
    simp [ih h']

/-- The ways SDEC can end (R190 to R198). -/
theorem sdecDecode_cases {s t : State} (h : sdecDecode s = .ok t) :
    (s.pktValid = false ∧ t = violation .noValidPacket { s with sfValid := false, sstatus := .none })
    ∨ (s.pktValid = true ∧ t = finish { s with sfValid := false, sstatus := .notStreamData })
    ∨ (s.pktValid = true ∧ t = violation .streamTruncated { s with sfValid := false, sstatus := .none })
    ∨ (s.pktValid = true ∧
        ∃ u, sdecFields { s with sfValid := false, sstatus := .none } = .ok u ∧ sdecSamples u = .ok t) := by
  unfold sdecDecode at h
  dsimp only at h
  split at h
  · obtain ⟨c, -, h⟩ := bind_ok h
    split at h
    · cases h; exact .inr (.inl ⟨‹_›, rfl⟩)
    · split at h
      · cases h; exact .inr (.inr (.inl ⟨‹_›, rfl⟩))
      · obtain ⟨u, hu, h⟩ := bind_ok h
        exact .inr (.inr (.inr ⟨‹_›, u, hu, h⟩))
  · cases h; exact .inl ⟨Bool.eq_false_iff.mpr ‹_›, rfl⟩

/-- SDEC writes only what `sdecFrame` names. -/
theorem sdecDecode_frame {s t : State} (h : sdecDecode s = .ok t) : sdecFrame s t := by
  rcases sdecDecode_cases h with ⟨-, rfl⟩ | ⟨-, rfl⟩ | ⟨-, rfl⟩ | ⟨-, u, hu, h⟩
  · rfl
  · rfl
  · rfl
  · obtain ⟨a, b, c, d, e, f, g, i, rfl⟩ := sdecFields_cases hu
    rcases sdecSamples_cases h with ⟨-, rfl⟩ | ⟨-, rfl⟩ | ⟨ds, -, -, -, rfl⟩ <;> rfl

end Sys2Proof.Machine
end

