-- ==== Sys2Proof/Laws/Transactor.lean ====
section
/-! SUPPORT. What the transactor's phases can do: 42_transactor R161 to R173. -/

namespace Sys2Proof.Machine

/-! ## Build, sign, transmit -/

/-- The build phase leaves start byte, header and payload in TXBUF; a read request has no data (R162). -/
theorem txnBuild_ofBytes (n : Nat) (data : List Byte) (s : State) (hd : s.iswr = false → data = [])
    (h : data.length + 4 ≤ s.cfg.maxResponseSize) :
    txnBuild n data s = .ok { s with
      txbuf := Mem.ofBytes (packetHead (hdrEncode s.cfg (plenField n) s.iswr) (s.cmd :: data)) } := by
  have h0 : bufWrite s.cfg [] 0 startByte = .ok (Mem.ofBytes [startByte]) := bufWrite_ofBytes (bs := []) _ (by simp; omega)
  have h1 := fun v => bufWrite2_ofBytes (c := s.cfg) (bs := [startByte]) v (by simp; omega)
  have h2 := fun b1 b2 => bufWrite_ofBytes (c := s.cfg) (bs := [startByte, b1, b2]) s.cmd (by simp; omega)
  have h3 := fun b1 b2 => bufFill_ofBytes (c := s.cfg) data [startByte, b1, b2, s.cmd] (by simp; omega)
  simp only [List.length_cons, List.length_nil, Nat.zero_add, Nat.reduceAdd, List.cons_append, List.nil_append]
    at h1 h2 h3
  simp only [txnBuild, h0, h1, h2, except_ok_bind]
  cases hw : s.iswr
  · simp [hd hw, packetHead]
  · simp [h3, packetHead]

/-- The sign phase appends the checksum of what TXBUF holds, low byte first (R163). -/
theorem txnSign_ofBytes (n : Nat) (s : State) (bs : List Byte) (hb : s.txbuf = Mem.ofBytes bs)
    (hl : bs.length = 3 + n) (hm : n + 5 ≤ s.cfg.maxResponseSize) :
    txnSign n s = .ok { s with
      crc := cks bs, txbuf := Mem.ofBytes (bs ++ [lo8 (cks bs), hi8 (cks bs)]), txlen := n + 5 } := by
  have h1 := bufSlice_ofBytes (c := s.cfg) bs 0 (3 + n) (by omega) (by omega)
  have h2 := bufWrite2_ofBytes (c := s.cfg) (bs := bs) (cks bs) (by omega)
  have ht : bs.take (3 + n) = bs := List.take_of_length_le (by omega)
  rw [hl] at h2
  simp only [List.drop_zero, ht] at h1
  simp [txnSign, hb, h1, h2]

/-- Whatever the step's limit, the transmit phase sends a run of TXBUF's bytes in buffer order, at most `n` of them, and
changes nothing else but TXCNT and what is left of the limit (R164). -/
theorem txnSend_sends (n : Nat) (s : State) (bs : List Byte) (hb : s.txbuf = Mem.ofBytes bs)
    (hl : s.txcnt + n ≤ bs.length) (hm : bs.length ≤ s.cfg.maxResponseSize) :
    ∃ k u, k ≤ n ∧ txnSend n s = .ok { s with
      txcnt := s.txcnt + k, txlog := s.txlog ++ (bs.drop s.txcnt).take k, quota := u } := by
  induction n generalizing s with
  | zero => exact ⟨0, s.quota, by omega, by simp [txnSend]⟩
  | succ n ih =>
    unfold txnSend
    split
    · exact ⟨0, s.quota, by omega, by simp⟩
    · have hi : s.txcnt < bs.length := by omega
      have hr : bufRead s.cfg s.txbuf s.txcnt = .ok bs[s.txcnt] := by
        rw [hb]; exact bufRead_ofBytes (by omega) (by simp [hi])
      obtain ⟨k, u, hk, h⟩ := ih (spend { chSend bs[s.txcnt] s with txcnt := s.txcnt + 1 }) (by simpa using hb)
        (by simp; omega) (by simpa using hm)
      refine ⟨k + 1, u, by omega, ?_⟩
      rw [hr, except_ok_bind, h, List.drop_eq_getElem_cons hi, List.take_succ_cons]
      simp [Nat.add_assoc, Nat.add_comm 1, chSend, spend]

/-- Without a limit all `n` bytes go (R164). -/
theorem txnSend_ofBytes (n : Nat) (s : State) (bs : List Byte) (hb : s.txbuf = Mem.ofBytes bs)
    (hl : s.txcnt + n ≤ bs.length) (hm : bs.length ≤ s.cfg.maxResponseSize) (hu : s.unlimited) :
    txnSend n s = .ok { s with
      txcnt := s.txcnt + n, txlog := s.txlog ++ (bs.drop s.txcnt).take n } := by
  induction n generalizing s with
  | zero => simp [txnSend]
  | succ n ih =>
    have hi : s.txcnt < bs.length := by omega
    have hr : bufRead s.cfg s.txbuf s.txcnt = .ok bs[s.txcnt] := by
      rw [hb]; exact bufRead_ofBytes (by omega) (by simp [hi])
    simp only [txnSend, spent_of_unlimited hu, Bool.false_eq_true, if_false, hr, except_ok_bind]
    rw [spend_of_unlimited (by simpa using hu)]
    rw [ih _ (by simpa using hb) (by simp; omega) (by simpa using hm) (by simpa using hu)]
    simp only [chSend_txlog, List.append_assoc, List.singleton_append]
    rw [List.drop_eq_getElem_cons hi, List.take_succ_cons]
    simp [Nat.add_assoc, Nat.add_comm 1, chSend]

/-- Without a limit the rest of the packet goes and TXN awaits (R164, R165). -/
theorem txnTransmit_ofBytes (s : State) (bs : List Byte) (hb : s.txbuf = Mem.ofBytes bs) (hl : s.txlen = bs.length)
    (hc : s.txcnt ≤ s.txlen) (hm : bs.length ≤ s.cfg.maxResponseSize) (hu : s.unlimited) :
    txnTransmit s = .ok (txnAwait { s with txcnt := s.txlen, txlog := s.txlog ++ bs.drop s.txcnt }) := by
  have he : s.txcnt + (s.txlen - s.txcnt) = s.txlen := by omega
  simp only [txnTransmit]
  rw [txnSend_ofBytes _ _ _ hb (by omega) hm hu, except_ok_bind, List.take_of_length_le (by simp; omega), he]
  simp

/-- Whatever the step's limit, TXN sends a run of what is left of the packet: all of it, and then it awaits, or less, and
then it is still transmitting (R164, R165; 10_state R33). -/
theorem txnTransmit_sends (s : State) (bs : List Byte) (hb : s.txbuf = Mem.ofBytes bs) (hl : s.txlen = bs.length)
    (hc : s.txcnt ≤ s.txlen) (hm : bs.length ≤ s.cfg.maxResponseSize) :
    ∃ k u, s.txcnt + k ≤ s.txlen ∧
      let t := { s with txcnt := s.txcnt + k, txlog := s.txlog ++ (bs.drop s.txcnt).take k, quota := u }
      txnTransmit s = .ok (if s.txcnt + k < s.txlen then t else txnAwait t) := by
  obtain ⟨k, u, hk, h⟩ := txnSend_sends (s.txlen - s.txcnt) s bs hb (by omega) hm
  exact ⟨k, u, by omega, by simp [txnTransmit, h]⟩

/-- A request that fits is sent whole (R161 to R165). -/
theorem txnRequest_fits (o : Op) (isWrite : Bool) (cmd : Byte) (data : List Byte) (s : State)
    (hd : isWrite = false → data = []) (hm : data.length + 6 ≤ s.cfg.maxResponseSize) (hu : s.unlimited) :
    txnRequest o isWrite cmd data s = .ok (s.sent o isWrite cmd data) := by
  have hn : requestLen isWrite data = 1 + data.length := by
    cases isWrite
    · simp [requestLen, hd rfl]
    · rfl
  have hle : ¬ s.cfg.maxResponseSize - 5 < 1 + data.length := by omega
  simp only [txnRequest, hn, if_neg hle]
  rw [txnBuild_ofBytes _ _ _ hd (by simp only [txnAccept, accept]; omega), except_ok_bind]
  simp only [txnAccept, accept]
  rw [txnSign_ofBytes _ _ _ rfl (by simp; omega) (by simp; omega), except_ok_bind]
  have hpk : ∀ (h : Half) (pl : List Byte) (k : Half), packetHead h pl ++ [lo8 k, hi8 k] = packetBytes h pl k :=
    fun _ _ _ => rfl
  have hu' : s.quota = none := hu
  rw [hpk, txnTransmit_ofBytes _ _ (by simp [txnFlush]; split <;> rfl) (by simp [txnFlush]; split <;> simp <;> omega)
    (by simp) (by simp [txnFlush]; split <;> simp <;> omega) (by simp [txnFlush]; split <;> simp [hu', chFlush])]
  by_cases hf : s.cfg.flushOnRequest <;>
    simp [txnFlush, txnAwait, State.sent, hf, chFlush, spend, hu', Nat.add_comm 1]

/-- A request that does not fit is the contract violation, with nothing else changed (R161). -/
theorem txnRequest_tooLong (o : Op) (isWrite : Bool) (cmd : Byte) (data : List Byte) (s : State)
    (h : s.cfg.maxResponseSize - 5 < requestLen isWrite data) :
    txnRequest o isWrite cmd data s = .ok (violation .requestTooLong s) := by
  simp [txnRequest, h]

/-! ## The poll loop -/

/-- `t` differs from `s` at most in what the wait may write: CRC, FRM's registers, the channel's unread bytes, the device's
script, ATTEMPTS, TSTATE, TRESULT and BUSY (R166 to R173), what the host may read of it, and what is left of the step's
limit. -/
def pollFrame (s t : State) : Prop :=
  t = { s with
    crc := t.crc, rxbuf := t.rxbuf, plen := t.plen, rw := t.rw, rxcnt := t.rxcnt, fstate := t.fstate
    fstatus := t.fstatus, pktValid := t.pktValid, rxq := t.rxq, devq := t.devq, attempts := t.attempts
    tstate := t.tstate, tresult := t.tresult, busy := t.busy, handed := t.handed, rxShown := t.rxShown
    quota := t.quota }

theorem pollFrame_refl (s : State) : pollFrame s s := rfl

theorem pollFrame_trans {s t u : State} (h₁ : pollFrame s t) (h₂ : pollFrame t u) : pollFrame s u := by
  unfold pollFrame at *
  rw [h₂, h₁]

theorem pollFrame_of_frm {s t : State} (h : frmFrame s t) : pollFrame s t := by
  unfold frmFrame at h
  unfold pollFrame
  rw [h]

theorem txnTick_frame (s : State) : pollFrame s (spend (txnTick s)) := by
  simp only [txnTick, sleep, deviceTurn_eq]
  rfl

/-- How an iteration ends from its framing attempt on: in a hold, in a match delivered as `Success`, or in the budget
test (R169 to R172, R175). -/
theorem txnFinishAttempt_cases {next : State → Except Fault State} {s t : State}
    (h : txnFinishAttempt next s = .ok t) :
    ∃ u, frmRun s = .ok u ∧
      ((u.fstate ≠ .idle ∧ t = u)
      ∨ (u.fstate = .idle ∧ txnMatched u = .ok true ∧ t = txnDeliver (txnSuccess u))
      ∨ (u.fstate = .idle ∧ txnMatched u = .ok false ∧ txnBudget next u = .ok t)) := by
  obtain ⟨u, hu, h⟩ := bind_ok h
  refine ⟨u, hu, ?_⟩
  split at h
  · cases h; exact .inl ⟨‹_›, rfl⟩
  · obtain ⟨hit, hh, h⟩ := bind_ok h
    cases hit
    · exact .inr (.inr ⟨by simpa using ‹¬ u.fstate ≠ .idle›, hh, by simpa using h⟩)
    · cases h; exact .inr (.inl ⟨by simpa using ‹¬ u.fstate ≠ .idle›, hh, rfl⟩)

/-- How the budget test ends (R172). -/
theorem txnBudget_cases {next : State → Except Fault State} {s t : State} (h : txnBudget next s = .ok t) :
    (s.attempts = s.cfg.nAttempts ∧ t = txnDeliver (txnTimeout s))
    ∨ (s.attempts ≠ s.cfg.nAttempts ∧ next s = .ok t) := by
  unfold txnBudget at h
  split at h
  · cases h; exact .inl ⟨‹_›, rfl⟩
  · exact .inr ⟨‹_›, h⟩

/-- What a match means: the last attempt ended `F_OK` and its command byte is the request's (R170). -/
theorem txnMatched_true {s : State} (h : txnMatched s = .ok true) :
    s.fstatus = .ok ∧ s.rxbuf.read 3 = some s.cmd := by
  unfold txnMatched at h
  split at h
  · obtain ⟨b, hb, h⟩ := bind_ok h
    have hbc : b = s.cmd := by
      injection h with h
      simpa using h
    subst hbc
    refine ⟨‹_›, ?_⟩
    unfold bufRead at hb
    split at hb
    · split at hb
      · cases hb; assumption
      · cases hb
    · cases hb
  · cases h

theorem txnBudget_frame {next : State → Except Fault State} (hn : ∀ s t, next s = .ok t → pollFrame s t) {s t : State}
    (h : txnBudget next s = .ok t) : pollFrame s t := by
  rcases txnBudget_cases h with ⟨-, rfl⟩ | ⟨-, h⟩
  · rfl
  · exact hn _ _ h

theorem txnFinishAttempt_frame {next : State → Except Fault State} (hn : ∀ s t, next s = .ok t → pollFrame s t)
    {s t : State} (h : txnFinishAttempt next s = .ok t) : pollFrame s t := by
  obtain ⟨u, hu, h⟩ := txnFinishAttempt_cases h
  have hf := pollFrame_of_frm (frmRun_frame hu)
  rcases h with ⟨-, rfl⟩ | ⟨-, -, rfl⟩ | ⟨-, -, h⟩
  · exact hf
  · exact pollFrame_trans hf rfl
  · exact pollFrame_trans hf (txnBudget_frame hn h)

/-- The wait changes only what `pollFrame` names. -/
theorem txnPoll_frame (n : Nat) : ∀ s t : State, txnPoll n s = .ok t → pollFrame s t := by
  induction n with
  | zero => intro s t h; cases h; rfl
  | succ n ih =>
    intro s t h
    simp only [txnPoll] at h
    split at h
    · cases h; rfl
    · refine pollFrame_trans (txnTick_frame s) ?_
      split at h
      · exact pollFrame_trans (t := frmStart _) rfl (txnFinishAttempt_frame ih h)
      · exact txnBudget_frame ih h

theorem txnLoop_frame (s t : State) (h : txnLoop s = .ok t) : pollFrame s t := txnPoll_frame _ s t h

/-- `n` silent iterations of the poll loop only count and let the device have its turns (R166 to R168, R172). -/
theorem txnPoll_skip (k n : Nat) (s : State) (hq : s.rxq = []) (hd : ∀ bs ∈ s.devq.take k, bs = [])
    (ha : s.attempts + k < s.cfg.nAttempts) (hu : s.unlimited) :
    txnPoll (k + n) s = txnPoll n { s with attempts := s.attempts + k, devq := s.devq.drop k } := by
  induction k generalizing s with
  | zero => simp
  | succ k ih =>
    have hh : s.devq.headD [] = [] := by
      cases hdq : s.devq with
      | nil => rfl
      | cons b q => exact hd b (by simp [hdq])
    rw [Nat.add_right_comm]
    have ht : txnTick s = { s with attempts := s.attempts + 1, devq := s.devq.tail } := by
      simp only [txnTick, sleep, deviceTurn_eq, hq, hh, List.nil_append]
    have hne : ¬ s.attempts + 1 = s.cfg.nAttempts := by omega
    simp only [txnPoll, spent_of_unlimited hu, ht]
    rw [spend_of_unlimited (by simpa using hu)]
    simp only [chCanRead, hq, List.isEmpty_nil, Bool.not_true, Bool.false_eq_true, if_false, txnBudget, hne]
    rw [ih _ (by simp) (fun bs hb => hd bs ?_) (by simp; omega) (by simpa using hu)]
    · simp [Nat.add_assoc, Nat.add_comm 1]
    · cases hdq : s.devq with
      | nil => simp [hdq] at hb
      | cons b q => simp [hdq] at hb ⊢; exact .inr hb

/-- The last iteration of the budget with nothing to read delivers `Timeout` (R172, R173). -/
theorem txnPoll_last_silent (s : State) (hq : s.rxq = []) (hd : s.devq.headD [] = [])
    (ha : s.attempts + 1 = s.cfg.nAttempts) (hu : s.unlimited) :
    txnPoll 1 s = .ok { s.timedOut with attempts := s.cfg.nAttempts, devq := s.devq.tail } := by
  have ht : txnTick s = { s with attempts := s.cfg.nAttempts, devq := s.devq.tail } := by
    simp only [txnTick, sleep, deviceTurn_eq, hq, hd, ha, List.nil_append]
  simp only [txnPoll, spent_of_unlimited hu, ht]
  rw [spend_of_unlimited (by simpa using hu)]
  simp [chCanRead, hq, txnBudget, txnDeliver, txnTimeout, finish, State.timedOut]

/-- An iteration with something to read runs a fresh framing attempt (R169). -/
theorem txnPoll_read (n : Nat) (s : State) (h : s.rxq ++ s.devq.headD [] ≠ []) (hu : s.unlimited) :
    txnPoll (n + 1) s = txnFinishAttempt (txnPoll n) (frmStart { s with
      attempts := s.attempts + 1, rxq := s.rxq ++ s.devq.headD [], devq := s.devq.tail }) := by
  have ht : txnTick s = { s with
      attempts := s.attempts + 1, rxq := s.rxq ++ s.devq.headD [], devq := s.devq.tail } := by
    simp [txnTick, sleep, deviceTurn_eq]
  have hc : chCanRead { s with
      attempts := s.attempts + 1, rxq := s.rxq ++ s.devq.headD [], devq := s.devq.tail } = true := by
    simpa [chCanRead] using h
  simp only [txnPoll, spent_of_unlimited hu, ht]
  rw [spend_of_unlimited (by simpa using hu)]
  simp only [hc, Bool.false_eq_true, if_true, if_false]

/-! ## The wait keeps the engine in order -/

/-- How a wait stands when it stops: FRM in order, the budget respected, and either the transaction still awaits, inside a
framing attempt or with budget left, or the result has been delivered (R33, R35, R172, R173, R175). -/
structure PollPost (s t : State) : Prop where
  frm : FrmInv t
  attempts_le : t.attempts ≤ t.cfg.nAttempts
  ends : (t.tstate = .await ∧ t.busy = s.busy ∧ (t.fstate = .idle → t.attempts < t.cfg.nAttempts))
    ∨ (t.tstate = .idle ∧ t.busy = false ∧ t.fstate = .idle)

theorem FrmInv.update {s : State} (h : FrmInv s) (a : Nat) (ts : TState) (tr : TResult) (b hd : Bool) (q : List Byte)
    (u : Option Nat) (d : List (List Byte)) :
    FrmInv { s with attempts := a, tstate := ts, tresult := tr, busy := b, handed := hd, rxq := q, quota := u, devq := d } :=
  ⟨h.rx, h.head, h.body, h.noOutcome, h.valid_iff, h.valid, h.shown⟩

/-- Delivering `Success` keeps FRM in order: the packet it shows is valid (R170, R171). -/
theorem FrmInv.success {s : State} (h : FrmInv s) (hm : s.fstatus = .ok) : FrmInv (txnDeliver (txnSuccess s)) :=
  ⟨h.rx, h.head, h.body, h.noOutcome, h.valid_iff, h.valid, fun _ => h.valid_iff.mpr hm⟩

/-- With FRM in order the correlation test reads no byte without a value (R170). -/
theorem txnMatched_inv {s : State} (h : FrmInv s) : ∃ b, txnMatched s = .ok b := by
  unfold txnMatched
  split
  · have hv := h.valid (h.valid_iff.mpr ‹_›)
    obtain ⟨b, hb, -⟩ := bufRead_filled h.rx (i := 3) (by omega)
    exact ⟨b == s.cmd, by simp [hb]⟩
  · exact ⟨false, rfl⟩

/-- One iteration from its framing attempt on, if the iterations after it keep the engine in order. -/
theorem txnFinishAttempt_inv {next : State → Except Fault State} (s : State) (h : FrmInv s)
    (hm : 6 ≤ s.cfg.maxResponseSize) (ha : s.attempts ≤ s.cfg.nAttempts) (ht : s.tstate = .await)
    (hn : ∀ u, FrmInv u → frmFrame s u → u.fstate = .idle → u.attempts ≠ u.cfg.nAttempts →
      ∃ t, next u = .ok t ∧ PollPost u t) :
    ∃ t, txnFinishAttempt next s = .ok t ∧ PollPost s t := by
  obtain ⟨u, hu, hi⟩ := frmRun_inv s h hm
  have hf := frmRun_frame hu
  have e1 : u.attempts = s.attempts := by rw [hf]
  have e2 : u.cfg = s.cfg := by rw [hf]
  have e3 : u.tstate = s.tstate := by rw [hf]
  have e4 : u.busy = s.busy := by rw [hf]
  simp only [txnFinishAttempt, hu, except_ok_bind]
  split
  · exact ⟨u, rfl, hi, by rw [e1, e2]; exact ha, .inl ⟨by rw [e3, ht], e4, fun hf => absurd hf ‹_›⟩⟩
  · have hidle : u.fstate = .idle := by simpa using ‹¬ u.fstate ≠ .idle›
    obtain ⟨hit, hh⟩ := txnMatched_inv hi
    simp only [hh, except_ok_bind]
    split
    · rename_i hit'
      exact ⟨_, rfl, hi.success (txnMatched_true (hit' ▸ hh)).1,
        by simp [e1, e2, ha], .inr ⟨rfl, rfl, hidle⟩⟩
    · unfold txnBudget
      split
      · exact ⟨_, rfl, hi.update _ _ _ _ _ _ _ _, by simp [e1, e2, ha],
          .inr ⟨rfl, rfl, hidle⟩⟩
      · obtain ⟨t, h1, h2⟩ := hn u hi hf hidle ‹_›
        refine ⟨t, h1, h2.frm, h2.attempts_le, ?_⟩
        rw [← e4]
        exact h2.ends

/-- The poll loop with `n` iterations of its budget left, from FRM in order: it never faults, and it stops in a hold or
with its result delivered (R166 to R173). -/
theorem txnPoll_inv (n : Nat) (s : State) (h : FrmInv s) (hm : 6 ≤ s.cfg.maxResponseSize) (ht : s.tstate = .await)
    (hi : s.fstate = .idle) (ha : s.attempts + n = s.cfg.nAttempts) (hn : 1 ≤ n) :
    ∃ t, txnPoll n s = .ok t ∧ PollPost s t := by
  induction n generalizing s with
  | zero => omega
  | succ n ih =>
    simp only [txnPoll, txnTick, sleep, deviceTurn_eq]
    split
    · exact ⟨s, rfl, h, by omega, .inl ⟨ht, rfl, fun _ => by omega⟩⟩
    · split
      · obtain ⟨t, h1, h2⟩ := txnFinishAttempt_inv (next := txnPoll n) (frmStart (spend { s with
            attempts := s.attempts + 1, rxq := s.rxq ++ s.devq.headD [], devq := s.devq.tail }))
          (frmStart_inv _) hm (by simp; omega) ht (fun u hu hf hidle hne => by
            have e1 : u.attempts = s.attempts + 1 := by rw [hf]; rfl
            have e2 : u.cfg = s.cfg := by rw [hf]; rfl
            have e3 : u.tstate = s.tstate := by rw [hf]; rfl
            exact ih u hu (by rw [e2]; exact hm) (by rw [e3]; exact ht) hidle (by rw [e1, e2]; omega)
              (by rw [e1, e2] at hne; omega))
        exact ⟨t, h1, h2.frm, h2.attempts_le, h2.ends⟩
      · unfold txnBudget
        split
        · exact ⟨_, rfl, h.update _ _ _ _ _ _ _ _, by simp; omega, .inr ⟨rfl, rfl, hi⟩⟩
        · rename_i hne
          simp only [spend_attempts, spend_cfg] at hne
          obtain ⟨t, h1, h2⟩ := ih (spend { s with
              attempts := s.attempts + 1, rxq := s.rxq ++ s.devq.headD [], devq := s.devq.tail })
            (h.update _ _ _ _ _ _ _ _) hm ht hi (by simp; omega) (by omega)
          exact ⟨t, h1, h2.frm, h2.attempts_le, h2.ends⟩

end Sys2Proof.Machine
end

