-- ==== Sys2Proof/Laws/Ops.lean ====
section
/-! SUPPORT. What the shared operations around a meaning can do: acceptance, refusal, going on, fetching. -/

namespace Sys2Proof.Machine

open Host

theorem outcome_next {x : Except Fault State} {t : State} (h : outcome x = .next t) : x = .ok t := by
  cases x <;> cases h
  rfl

theorem outcome_fault {x : Except Fault State} {f : Fault} (h : outcome x = .fault f) : x = .error f := by
  cases x <;> cases h
  rfl

theorem whenIdle_next {s t : State} {x : Except Fault State} (h : whenIdle s x = .next t) :
    s.busy = false ∧ x = .ok t := by
  unfold whenIdle at h
  split at h
  · cases h
  · exact ⟨Bool.eq_false_iff.mpr ‹_›, outcome_next h⟩

theorem whenIdle_fault {s : State} {x : Except Fault State} {f : Fault} (h : whenIdle s x = .fault f) :
    s.busy = false ∧ x = .error f := by
  unfold whenIdle at h
  split at h
  · cases h
  · exact ⟨Bool.eq_false_iff.mpr ‹_›, outcome_fault h⟩

theorem whenAtRest_next {s t : State} {x : Except Fault State} (h : whenAtRest s x = .next t) :
    s.atRest ∧ x = .ok t := by
  unfold whenAtRest at h
  split at h
  · cases h
  · split at h
    · exact ⟨⟨Bool.eq_false_iff.mpr ‹_›, ‹_ ∧ _›.1, ‹_ ∧ _›.2⟩, outcome_next h⟩
    · cases h

theorem whenAtRest_fault {s : State} {x : Except Fault State} {f : Fault} (h : whenAtRest s x = .fault f) :
    s.atRest ∧ x = .error f := by
  unfold whenAtRest at h
  split at h
  · cases h
  · split at h
    · exact ⟨⟨Bool.eq_false_iff.mpr ‹_›, ‹_ ∧ _›.1, ‹_ ∧ _›.2⟩, outcome_fault h⟩
    · cases h

theorem whenAtRest_of {s : State} {x : Except Fault State} (h : s.atRest) : whenAtRest s x = outcome x := by
  obtain ⟨h1, h2, h3⟩ := h
  simp [whenAtRest, h1, h2, h3]

theorem whenIdle_of {s : State} {x : Except Fault State} (h : s.busy = false) : whenIdle s x = outcome x := by
  simp [whenIdle, h]

/-- How an operation in progress goes on: RDPKT its attempt, a request its transaction, nothing else (R36). -/
theorem proceed_cases {s t : State} (h : proceed s = .ok t) :
    t = s ∨ (s.busy = true ∧ s.op = .rdpkt ∧ rdpktResume s = .ok t) ∨ (s.requesting ∧ txnResume s = .ok t) := by
  unfold proceed at h
  split at h
  · split at h
    · exact .inr (.inl ⟨‹_›, ‹_›, h⟩)
    · exact .inr (.inr ⟨⟨‹_›, .inl ‹_›⟩, h⟩)
    · exact .inr (.inr ⟨⟨‹_›, .inr ‹_›⟩, h⟩)
    · cases h; exact .inl rfl
  · cases h; exact .inl rfl

/-- RDPKT goes on: its attempt runs, and its result is handed over when it has ended (R140, R149). -/
theorem rdpktResume_cases {s t : State} (h : rdpktResume s = .ok t) :
    ∃ u, frmRun s = .ok u ∧ ((u.fstate = .idle ∧ t = rdpktDeliver u) ∨ (u.fstate ≠ .idle ∧ t = u)) := by
  obtain ⟨u, hu, h⟩ := bind_ok h
  refine ⟨u, hu, ?_⟩
  split at h <;> cases h
  · exact .inl ⟨‹_›, rfl⟩
  · exact .inr ⟨‹_›, rfl⟩

/-- What a fetch can give: the operation at the port with the device's turn taken, or the device's next bytes. -/
theorem fetch_cases {s s' : State} {i : Instr} (h : fetch s = .ok (i, s')) :
    (s.busy = false ∧ ∃ w ws, s.port = w :: ws ∧ decodePort w = .ok i ∧ s' = deviceTurn { s with port := ws })
    ∨ ((s.busy = true ∨ s.port = []) ∧ (i, s') = fetchWire s) := by
  unfold fetch at h
  split at h
  · exact .inr ⟨.inl ‹_›, (Except.ok.inj h).symm⟩
  · split at h
    · exact .inr ⟨.inr ‹_›, (Except.ok.inj h).symm⟩
    · rename_i hb _ w ws hp
      refine .inl ⟨by simpa using hb, w, ws, hp, ?_⟩
      unfold fetchPort at h
      split at h
      · cases h; exact ⟨‹_›, rfl⟩
      · cases h

/-- A fetch changes only the channel's unread bytes and the two scripts (R66, R211). -/
theorem fetch_frame {s s' : State} {i : Instr} (h : fetch s = .ok (i, s')) :
    s' = { s with rxq := s'.rxq, port := s'.port, devq := s'.devq } := by
  rcases fetch_cases h with ⟨-, w, ws, -, -, rfl⟩ | ⟨-, h⟩
  · rw [deviceTurn_eq]
  · unfold fetchWire at h
    split at h
    · cases h; rfl
    · split at h <;> cases h <;> rfl

theorem runStep_next {s t : State} (h : runStep s = .next t) : ∃ i s', fetch s = .ok (i, s') ∧ exec i s' = .next t := by
  unfold runStep at h
  split at h
  · exact ⟨_, _, ‹_›, h⟩
  · cases h

theorem runStep_fault {s : State} {f : Fault} (h : runStep s = .fault f) :
    ∃ i s', fetch s = .ok (i, s') ∧ exec i s' = .fault f := by
  unfold runStep at h
  split at h
  · exact ⟨_, _, ‹_›, h⟩
  · cases h

/-- A step is a reset, where the schedule says so, and otherwise the engine runs on what it takes up (log 4). -/
theorem step_eq (s : State) :
    (∃ rest, s.sched = .reset :: rest ∧ step s = .next (resetPE { s with sched := rest }))
    ∨ (s.running ∧ step s = runStep s.entered) := by
  unfold step State.entered State.running
  split <;> simp_all

/-- Taking up a step writes only its limit and the schedule. -/
theorem entered_frame (s : State) : s.entered = { s with quota := s.entered.quota, sched := s.entered.sched } := by
  unfold State.entered
  split <;> rfl

/-- A step is a reset or a fetch and then the instruction's meaning. -/
theorem step_next {s t : State} (h : step s = .next t) :
    (∃ rest, s.sched = .reset :: rest ∧ t = resetPE { s with sched := rest })
    ∨ (s.running ∧ ∃ i s', fetch s.entered = .ok (i, s') ∧ exec i s' = .next t) := by
  rcases step_eq s with ⟨rest, hs, he⟩ | ⟨hr, he⟩
  · rw [he] at h; cases h; exact .inl ⟨rest, hs, rfl⟩
  · rw [he] at h; exact .inr ⟨hr, runStep_next h⟩

theorem step_fault {s : State} {f : Fault} (h : step s = .fault f) :
    s.running ∧ ∃ i s', fetch s.entered = .ok (i, s') ∧ exec i s' = .fault f := by
  rcases step_eq s with ⟨rest, hs, he⟩ | ⟨hr, he⟩
  · rw [he] at h; cases h
  · rw [he] at h; exact ⟨hr, runStep_fault h⟩

end Sys2Proof.Machine
end

