-- ==== Sys2Proof/Laws/PerInstr.lean ====
section
/-! SUPPORT. A law of every instruction as syntax: the first byte of its encoding tells an operation from a packet
(30_encoding R91, R100). -/

namespace Sys2Proof.Laws.EncodeHead

open Sys2Proof Sys2Proof.Machine

/-- An operation's encoding starts with its OPC, below 8; a packet's starts with the start byte. -/
def Statement (i : Instr) : Prop :=
  ∃ b rest, encode i = b :: rest ∧ (b = startByte ↔ i.side ≠ .host) ∧ (i.side = .host → b.toNat < 8)

theorem cks (data : List Byte) : Statement (.cks data) := ⟨_, _, rfl, by simp [Instr.side, startByte], by simp [Instr.side]⟩

theorem rdpkt : Statement (.rdpkt) := ⟨_, _, rfl, by simp [Instr.side, startByte], by simp [Instr.side]⟩

theorem reqr (cmd : Byte) : Statement (.reqr cmd) := ⟨_, _, rfl, by simp [Instr.side, startByte], by simp [Instr.side]⟩

theorem reqw (cmd : Byte) (data : List Byte) : Statement (.reqw cmd data) := ⟨_, _, rfl, by simp [Instr.side, startByte], by simp [Instr.side]⟩

theorem sdec : Statement (.sdec) := ⟨_, _, rfl, by simp [Instr.side, startByte], by simp [Instr.side]⟩

theorem flush : Statement (.flush) := ⟨_, _, rfl, by simp [Instr.side, startByte], by simp [Instr.side]⟩

theorem opNone : Statement (.opNone) := ⟨_, _, rfl, by simp [Instr.side, startByte], by simp [Instr.side]⟩

theorem opReserved : Statement (.opReserved) := ⟨_, _, rfl, by simp [Instr.side, startByte], by simp [Instr.side]⟩

theorem pkt (p : Packet) : Statement (.pkt p) := ⟨_, _, rfl, by simp [Instr.side, startByte], by simp [Instr.side]⟩

theorem pktRdreq (cmd : Byte) (ck : Half) : Statement (.pktRdreq cmd ck) := ⟨_, _, rfl, by simp [Instr.side, startByte], by simp [Instr.side]⟩

theorem pktWrreq (plen : BitVec 10) (cmd : Byte) (data : List Byte) (ck : Half) :
    Statement (.pktWrreq plen cmd data ck) := ⟨_, _, rfl, by simp [Instr.side, startByte], by simp [Instr.side]⟩

theorem pktResp (p : Packet) : Statement (.pktResp p) := ⟨_, _, rfl, by simp [Instr.side, startByte], by simp [Instr.side]⟩

theorem pktStream (f : StreamPacket) : Statement (.pktStream f) := ⟨_, _, rfl, by simp [Instr.side, startByte], by simp [Instr.side]⟩

end Sys2Proof.Laws.EncodeHead
end

