-- ==== Sys2Proof/Machine/Pseudo.lean ====
section
/-! DEFINITION. The host's pseudo-operations as the operations they expand to: 44_host_ops R213, R216. They add neither
state nor rules to the engine. -/

namespace Sys2Proof.Machine

/-- The low `n` bytes of a value, little-endian: `bytes(v)` of R216 (20_memory R72). -/
def leBytes : Nat → Nat → List Byte
  | 0, _ => []
  | n + 1, v => BitVec.ofNat 8 v :: leBytes n (v / 256)

/-- A multi-byte unsigned value assembled from a response's bytes, little-endian, by bitwise OR of shifted bytes (R216). -/
def assemble : List Byte → Nat
  | [] => 0
  | b :: bs => b.toNat ||| (assemble bs <<< 8)

/-- The same bytes as a signed value (R216; two's complement: log 13). -/
def assembleSigned (bs : List Byte) : Int := (BitVec.ofNat (8 * bs.length) (assemble bs)).toInt

/-- The bytes a parameter read hands the host for reinterpretation: those after the command identifier of the response, if
the operation that ended last is a REQR with `Success` (R216, 42 R171). -/
def State.parameterBytes (s : State) : Option (List Byte) :=
  match s.result with
  | some (.response _ (_ :: bs)) => some bs
  | _ => none

/-- A parameter's value, all of those bytes read as one unsigned little-endian number. Which bytes make which value is in
no source (91_not_in_source N12): DESIGN CHOICE (log 24). -/
def State.parameter (s : State) : Option Nat := s.parameterBytes.map assemble

/-- The pseudo-operations of R216. The command identifiers are the host's: the spec gives no table of them. -/
inductive Pseudo where
  /-- Read parameter `X`. -/
  | readParameter (id : Byte)
  /-- Write parameter `X` with a value of so many bytes. -/
  | writeParameter (id : Byte) (width value : Nat)
  /-- `compute(data)` as a library call. -/
  | compute (data : List Byte)
  /-- Read a stream frame (R213). -/
  | readStreamFrame
  /-- Enable or disable streaming; the payload's format is not in the source. -/
  | streamControl (id : Byte) (payload : List Byte)
  /-- Save parameters or restart the device: read the token, then write it back. -/
  | authorized (tokenId id : Byte)
  deriving DecidableEq, Repr

/-- The first operation of the expansion (R216). -/
def Pseudo.first : Pseudo → Instr
  | .readParameter id => .reqr id
  | .writeParameter id width value => .reqw id (leBytes width value)
  | .compute data => .cks data
  | .readStreamFrame => .rdpkt
  | .streamControl id payload => .reqw id payload
  | .authorized tokenId _ => .reqr tokenId

/-- The operation the host presents when the first has ended, if there is one: SDEC only on `F_OK` (R213), and the token
only where one was read. -/
def Pseudo.second (s : State) : Pseudo → Option Instr
  | .readStreamFrame => if s.fstatus = .ok then some .sdec else none
  | .authorized _ id => s.parameterBytes.map (.reqw id)
  | .readParameter _ => none
  | .writeParameter _ _ _ => none
  | .compute _ => none
  | .streamControl _ _ => none

/-- The host presents an operation: its bytes stand at the port (R211). -/
def present (i : Instr) (s : State) : State := { s with port := s.port ++ [encode i] }

end Sys2Proof.Machine
end

