-- ==== Sys2Proof/Tests/Slice0.lean ====
section
/-! SUPPORT. Small tests. Expected bytes and values are those of spec/95_test_vectors.md (the vector is named in each
docstring) or are written out from the cited rule. The last part holds, for every statement with hypotheses, one theorem
that shows values meeting them all. -/

namespace Sys2Proof.Tests

open Sys2Proof Sys2Proof.Machine Host

/-- TC1 with a budget of two iterations. -/
def c1 : Cfg := { Config.tc1 with nAttempts := 2 }

/-- Reset state under it. -/
def s1 : State := State.resetWith c1

/-- The next state, if there is one. -/
def nextOf : Outcome State Fault Refusal → Option State
  | .next s => some s
  | .fault _ => none
  | .refused _ => none

/-- The refusal, if there is one. -/
def refusalOf : Outcome State Fault Refusal → Option Refusal
  | .next _ => none
  | .fault _ => none
  | .refused r => some r

/-- One field of the next state. -/
def after {α : Type} (f : State → α) (o : Outcome State Fault Refusal) : Option α := (nextOf o).map f

/-- The instruction bytes are read as, if any. -/
def readAs (side : Side) (bs : List Byte) : Option Instr :=
  match decode side bs with
  | .ok i => some i
  | .error _ => none

/-- E27, an acknowledgment of command 0x0C. -/
def ack : Packet := ⟨false, 0, 1, 0x0C, [], 0x5EFC⟩

/-- E27's bytes. -/
def ackBytes : List Byte := [0xAA, 0x40, 0x00, 0x0C, 0xFC, 0x5E]

/-- D1's stream frame: two samples, 100 and -50. -/
def d1 : StreamPacket :=
  ⟨false, 0, 19, 0x30, 0x81, 0x4E2A, 0xFFFB, 0x04B0, 0xFF, 0x0184, 2, 0x0182, [0x0064, 0xFFCE], [], 0xA19B⟩

/-- D1's bytes. -/
def d1Bytes : List Byte :=
  [0xAA, 0xC0, 0x04, 0x30, 0x81, 0x2A, 0x4E, 0xFB, 0xFF, 0xB0, 0x04, 0xFF, 0x84, 0x01, 0x02, 0x00, 0x82, 0x01,
    0x64, 0x00, 0xCE, 0xFF, 0x9B, 0xA1]

/-- RXBUF and FRM's registers as after an RDPKT of D1. -/
def s1d1 : State := s1.framed d1.packet

/-! ## Decoding: words written out from R90, R91, R92, R100, R106 -/

theorem test_decode_opNone : readAs .host [0b00000000] = some .opNone := by decide
theorem test_decode_cks : readAs .host [0b00000001, 0xAA, 0x00] = some (.cks [0xAA, 0x00]) := by decide
theorem test_decode_rdpkt : readAs .host [0b00000010] = some .rdpkt := by decide
theorem test_decode_reqr : readAs .host [0b00000011, 0x1E] = some (.reqr 0x1E) := by decide
theorem test_decode_reqw : readAs .host [0b00000100, 0x1E, 0x05] = some (.reqw 0x1E [0x05]) := by decide
theorem test_decode_sdec : readAs .host [0b00000101] = some .sdec := by decide
theorem test_decode_flush : readAs .host [0b00000110] = some .flush := by decide
theorem test_decode_opReserved : readAs .host [0b00000111] = some .opReserved := by decide
theorem test_decode_eight_refused : readAs .host [0b00001000] = none := by decide
theorem test_decode_trailing_refused : readAs .host [0b00000010, 0x00] = none := by decide

/-- E20. -/
theorem test_decode_pktRdreq :
    readAs .tx [0b10101010, 0b01000000, 0b00000000, 0x03, 0x13, 0xAF] = some (.pktRdreq 0x03 0xAF13) := by decide

/-- E22. -/
theorem test_decode_pktWrreq :
    readAs .tx [0b10101010, 0b11000001, 0b00000000, 0x0A, 0x34, 0x12, 0x20, 0xC2]
      = some (.pktWrreq 3 0x0A [0x34, 0x12] 0xC220) := by decide

/-- E35: reserved bits all ones. -/
theorem test_decode_pkt :
    readAs (.rx none none) [0b10101010, 0b10111110, 0b00000000, 0x03, 0x10, 0x23, 0x78]
      = some (.pkt ⟨false, 0b11111, 2, 0x03, [0x10], 0x7823⟩) := by decide

/-- E27. -/
theorem test_decode_pktResp : readAs (.rx (some 0x0C) none) ackBytes = some (.pktResp ack) := by decide

/-- D1. -/
theorem test_decode_pktStream : readAs (.rx none (some 0x30)) d1Bytes = some (.pktStream d1) := by decide

theorem test_decode_badStart_refused : readAs (.rx none none) [0xAB, 0x40, 0x00, 0x0C, 0xFC, 0x5E] = none := by decide

/-- The opcode table's word for PKT: bit 0 is the low bit of 0xAA; every later byte 0. -/
theorem test_tableWord_pkt : decodeTableWord 48 0xAA = some (.pkt ⟨false, 0, 0, 0, [], 0⟩) := by decide

/-- E21's header, read as the table's word of a write request of one data byte. -/
theorem test_tableWord_wrreq :
    decodeTableWord 56 0x400F051E0081AA = some (.pktWrreq 2 0x1E [0x05] 0x400F) := by decide

/-! ## Ill-formed terms are refused, one for each check of WellFormed -/

set_option maxRecDepth 4000 in
theorem test_wf_good : (Instr.pkt ack).wf c1 = true ∧ (Instr.pktStream d1).wf c1 = true := by decide

/-- PLEN is 2, the payload one byte. -/
theorem test_wf_length :
    Packet.lenOk { ack with plen := 2 } = false ∧ (Instr.pkt { ack with plen := 2 }).wf c1 = false := by decide

/-- PLEN is 28, above the 27 of TC1. -/
theorem test_wf_too_long :
    Packet.fits c1 { ack with plen := 28 } = false ∧ (Instr.pkt { ack with plen := 28 }).wf c1 = false := by decide

/-- One bit of the checksum is wrong. -/
theorem test_wf_checksum :
    Packet.ckOk { ack with ck := 0x5EFD } = false ∧ (Instr.pktResp { ack with ck := 0x5EFD }).wf c1 = false := by decide

/-- Three samples announced, two carried. -/
theorem test_wf_count :
    StreamPacket.countOk { d1 with count := 3 } = false ∧ (Instr.pktStream { d1 with count := 3 }).wf c1 = false := by
  decide

/-- Not the stream identifier. -/
theorem test_wf_id :
    StreamPacket.idOk c1 { d1 with id := 0x31 } = false ∧ (Instr.pktStream { d1 with id := 0x31 }).wf c1 = false := by
  decide

/-- E36: 27 data bytes under TC1; 26 are well-formed. -/
theorem test_wf_reqw :
    (Instr.reqw 9 (List.replicate 27 0)).wf c1 = false ∧ (Instr.reqw 9 (List.replicate 26 0)).wf c1 = true := by decide

/-- A request row fixes the reserved bits to zero, so `TX_RESERVED` must be zero. -/
theorem test_wf_reserved :
    (Instr.pktRdreq 3 0xAF13).wf c1 = true ∧ (Instr.pktRdreq 3 0xAF13).wf { c1 with txReserved := 1 } = false
    ∧ (Instr.pktWrreq 3 0x0A [0x34, 0x12] 0xC220).wf { c1 with txReserved := 1 } = false := by decide

/-! ## One step of each instruction -/

/-- K2 (S2). -/
theorem test_cks : after (·.crc) (exec (.cks [0xAA, 0x00, 0x04, 0x03]) s1) = some 0x7E7A := by decide

/-- K1 (S1). -/
theorem test_cks_empty : after (·.crc) (exec (.cks []) { s1 with crc := 0x1234 }) = some 0 := by decide

/-- F1's packet cut to E27, with F2's two bytes behind it. -/
theorem test_rdpkt :
    after (fun t => (t.fstatus, t.plen, t.hostPayload, t.rxq)) (exec .rdpkt { s1 with rxq := ackBytes ++ [0x11, 0x22] })
      = some (.ok, 1, some [0x0C], [0x11, 0x22]) := by decide

/-- F16: not `InvalidLength`. -/
theorem test_rdpkt_badStart :
    after (fun t => (t.fstatus, t.rxq)) (exec .rdpkt { s1 with rxq := [0x00, 0x00, 0x00, 0xAA] })
      = some (.badStartByte, [0xAA]) := by decide

/-- E20 goes out; with no answer in two iterations: `Timeout` (S6). -/
theorem test_reqr :
    after (fun t => (t.txlog, t.tresult, t.attempts)) (exec (.reqr 0x03) s1)
      = some ([0xAA, 0x40, 0x00, 0x03, 0x13, 0xAF], .timeout, 2) := by decide

/-- E29 answers E28 in the second iteration; its RW bit plays no part. -/
theorem test_reqr_response :
    after (fun t => (t.tresult, t.attempts, t.hostPayload))
        (exec (.reqr 0x55) { s1 with devq := [[], [0xAA, 0x41, 0x00, 0x55, 0x10, 0xA2]] })
      = some (.success, 2, some [0x55]) := by decide

/-- E22 goes out. -/
theorem test_reqw :
    after (fun t => (t.txlog, t.tresult)) (exec (.reqw 0x0A [0x34, 0x12]) s1)
      = some ([0xAA, 0xC1, 0x00, 0x0A, 0x34, 0x12, 0x20, 0xC2], .timeout) := by decide

/-- E36: 27 data bytes under TC1. -/
theorem test_reqw_tooLong :
    after (fun t => (t.txlog, t.faultReason, t.busy)) (exec (.reqw 0x09 (List.replicate 27 0)) s1)
      = some ([], .requestTooLong, false) := by decide

/-- D1 (S7): the distances are 100 and -50. -/
theorem test_sdec :
    after (fun t => t.frame) (exec .sdec s1d1)
      = some (some ⟨0x81, 20010, -5, 1200, 255, 388, 2, 386, [100, -50]⟩) := by decide

/-- R192: another command is no fault. -/
theorem test_sdec_notStream :
    after (fun t => (t.sstatus, t.fault)) (exec .sdec (s1.framed ack)) = some (.notStreamData, false) := by decide

theorem test_flush : after (·.rxq) (exec .flush { s1 with rxq := [1, 2] }) = some [] := by decide

theorem test_opNone : nextOf (exec .opNone s1) = some s1 := by decide

/-- R101: code 5, and the reason already recorded stays. -/
theorem test_opReserved :
    after (·.faultReason.code) (exec .opReserved s1) = some 5
    ∧ after (·.faultReason.code) (exec .opReserved { s1 with fault := true, faultReason := .noValidPacket }) = some 1 := by
  decide

theorem test_pkt : after (·.rxq) (exec (.pkt ack) { s1 with rxq := [7] }) = some (7 :: ackBytes) := by decide

/-- E20 and the wait. -/
theorem test_pktRdreq :
    after (fun t => (t.txlog, t.tstate, t.busy)) (exec (.pktRdreq 0x03 0xAF13) s1)
      = some ([0xAA, 0x40, 0x00, 0x03, 0x13, 0xAF], .await, true) := by decide

/-- E22 and the wait. -/
theorem test_pktWrreq :
    after (fun t => (t.txlog, t.tstate)) (exec (.pktWrreq 3 0x0A [0x34, 0x12] 0xC220) s1)
      = some ([0xAA, 0xC1, 0x00, 0x0A, 0x34, 0x12, 0x20, 0xC2], .await) := by decide

/-- E27 answers E26. -/
theorem test_pktResp :
    after (fun t => (t.tresult, t.attempts, t.rxbuf.read 3)) (exec (.pktResp ack) (s1.sent .reqw true 0x0C []))
      = some (.success, 1, some 0x0C) := by decide

set_option maxRecDepth 4000 in
/-- D1 in one piece while RDPKT waits. -/
theorem test_pktStream :
    (after (fun t => (t.fstatus, t.plen)) ((exec (.pktStream d1) (frmStart (rdpktAccept s1)))))
      = some (.ok, 19) := by decide

/-- A second operation is refused while one is in progress (R270). -/
theorem test_busy : refusalOf (exec .flush { s1 with busy := true }) = some .hostBusy := by decide

/-- A step takes the operation from the port. -/
theorem test_step :
    after (fun t => (t.crc, t.port)) (step { s1 with port := [[0b00000001, 0x01], [0b00000010]] })
      = some (0x1021, [[0b00000010]]) := by decide

/-- A word placed where the step fetches is run by the very next step. -/
theorem test_withFetchWord : after (·.faultReason) (step (s1.withFetchWord 8 0b111)) = some .badOp := by decide

/-- R213, R216: reading a stream frame is RDPKT, then SDEC on `F_OK` and nothing on an error. -/
theorem test_pseudo :
    Pseudo.first .readStreamFrame = .rdpkt
    ∧ (nextOf (exec .rdpkt { s1 with rxq := ackBytes })).map (Pseudo.second · .readStreamFrame) = some (some .sdec)
    ∧ (nextOf (exec .rdpkt { s1 with rxq := [1, 2, 3] })).map (Pseudo.second · .readStreamFrame) = some none := by decide

/-- E22: the two-byte value 0x1234 is written low byte first (R216). A parameter is read of a REQR's response only: 0x10
where E35 answers command 0x03, nothing of a REQW's acknowledgment. -/
theorem test_parameter :
    Pseudo.first (.writeParameter 0x0A 2 0x1234) = .reqw 0x0A [0x34, 0x12]
    ∧ after (·.parameter)
        (exec (.reqr 0x03) { s1 with rxq := [0xAA, 0xBE, 0x00, 0x03, 0x10, 0x23, 0x78] }) = some (some 0x10)
    ∧ after (·.parameter) (exec (.reqw 0x0C []) { s1 with rxq := ackBytes }) = some none := by decide

/-- E20's packet goes out one byte a step; a reset after three of them leaves those three in TXLOG (R77, R261). -/
theorem test_reset_midPacket :
    let s := { s1 with port := [[0b00000011, 0x03]], sched := [.run (some 1), .run (some 2), .reset] }
    after (fun t => (t.txlog, t.busy)) (step s) = some ([0xAA], true)
    ∧ ((nextOf (step s)).bind fun t => (nextOf (step t)).bind fun u =>
        after (fun v => (v.txlog, v.busy, v.txlen)) (step u)) = some ([0xAA, 0x40, 0x00], false, 0) := by decide

/-- Two bytes in RXQ and a limit of one: RDPKT reads one, and the device may append before the next (R77). -/
theorem test_limit :
    after (fun t => (t.rxcnt, t.rxq)) (exec .rdpkt { s1 with rxq := [0xAA, 0x40], quota := some 1 })
      = some (1, [0x40]) := by decide

/-- A layout that calls SF_PPS signed: 0xFFFF reads -1 (R15). -/
theorem test_layout_sign :
    State.frame
        { s1 with
          cfg := { c1 with layout := { Layout.r106 with pps := ⟨2, .two, true⟩ } }, sfValid := true, sfPps := 0xFFFF }
      = some ⟨0, -1, 0, 0, 0, 0, 0, 0, []⟩ := by decide

/-- CKS, then FLUSH: the checksum is still the host's to read, and the result is FLUSH's (R212, R28). -/
theorem test_hostCrc :
    ((nextOf (exec (.cks [0x01]) s1)).bind fun t => after (fun u => (u.hostCrc, u.result)) (exec .flush t))
      = some (some 0x1021, some .nothing) := by decide

/-! ## Witnesses: values that meet every hypothesis of a statement -/

/-- A transaction for command 0x0C that awaits its response. -/
def waiting : State := s1.sent .reqw true 0x0C []

/-- An RDPKT that waits for its first byte. -/
def held : State := frmStart (rdpktAccept s1)

/-- An RDPKT that holds after the first four bytes of E27. -/
def heldBody : State :=
  { s1 with
    op := .rdpkt, busy := true, rxbuf := Mem.ofBytes [0xAA, 0x40, 0x00, 0x0C], rxcnt := 4, plen := 1, fstate := .body }

/-- A transaction for command 0x0C in its first iteration that holds after the same four bytes. -/
def heldTxn : State :=
  { waiting with rxbuf := Mem.ofBytes [0xAA, 0x40, 0x00, 0x0C], rxcnt := 4, plen := 1, fstate := .body, attempts := 1 }

/-- RXBUF and FRM's registers as after an RDPKT of E27. -/
def s1ack : State := s1.framed ack

/-- A stream packet one byte short of the fixed fields: PLEN 14. -/
def shortFrame : Packet := ⟨false, 0, 14, 0x30, List.replicate 13 0, 0⟩

/-- A stream packet of the fixed fields alone, with the count given: PLEN 15. -/
def fixedFrame (count : Byte) : Packet :=
  ⟨false, 0, 15, 0x30, List.replicate 10 0 ++ [count, 0] ++ List.replicate 2 0, 0⟩

/-- Every constructor is well-formed somewhere, REQW at its largest and a packet at PLEN 1 included. -/
theorem witness_DecodeReadsBackEveryEncoding :
    ([.cks [1], .rdpkt, .reqr 3, .reqw 9 (List.replicate 26 0), .sdec, .flush, .opNone, .opReserved, .pkt ack,
      .pktRdreq 3 0xAF13, .pktWrreq 3 0x0A [0x34, 0x12] 0xC220, .pktResp ack] : List Instr).all (Instr.wf c1) = true
    ∧ c1.ok = true := by decide

theorem witness_EncodeGivesBackDecodedBytes :
    decode .host [3, 9] = .ok (.reqr 9) ∧ decode .tx [0xAA, 0x40, 0x00, 0x03, 0x13, 0xAF] = .ok (.pktRdreq 3 0xAF13)
    ∧ decode (.rx (some 0x0C) none) ackBytes = .ok (.pktResp ack) := ⟨rfl, rfl, rfl⟩

theorem witness_HeaderEncodeAndDecode : c1.txReserved = 0 := rfl

/-- Also for FLUSH, OP.NONE, OP.RESERVED and ArrivedPacketWaitsForAnOperation: an idle engine. -/
theorem witness_CksWritesOnlyTheChecksum : s1.busy = false := rfl

theorem witness_RdpktFramesAPacket :
    s1.ready ∧ s1.cfg.ok = true ∧ ack.wf s1.cfg = true
    ∧ ({ s1 with rxq := ackBytes ++ [0x11] } : State).rxq = ack.bytes ++ [0x11] := by decide

theorem witness_RdpktReportsBadStartByte :
    (s1.ready ∧ s1.cfg.ok = true ∧ (0xAB : Byte) ≠ 0xAA
      ∧ ({ s1 with rxq := [0xAB, 0x40, 0x00] } : State).rxq = 0xAB :: 0x40 :: 0x00 :: [])
    ∧ let s : State := { s1 with fstate := .head, rxbuf := Mem.ofBytes [0xAB, 0x40], rxcnt := 2, rxq := [0x00, 0x07] }
      s.cfg.ok = true ∧ s.fstate = .head ∧ s.unlimited ∧ s.rxbuf = Mem.ofBytes [0xAB, 0x40] ∧ s.rxcnt = [(0xAB : Byte), 0x40].length
      ∧ [(0xAB : Byte), 0x40].length < 3 ∧ [0xAB, 0x40] ++ s.rxq = 0xAB :: 0x40 :: 0x00 :: [0x07] := by decide

/-- Both ends of the range: PLEN 0 (F4) and PLEN 28 under TC1 (F6). -/
theorem witness_RdpktReportsInvalidLength :
    s1.ready ∧ s1.cfg.ok = true ∧ ¬ legalPlen s1.cfg (hdrPlen (le16 0x00 0x00))
    ∧ ¬ legalPlen s1.cfg (hdrPlen (le16 0x00 0x07))
    ∧ ({ s1 with rxq := [0xAA, 0x00, 0x07, 0x99] } : State).rxq = 0xAA :: 0x00 :: 0x07 :: [0x99] := by decide

/-- One bit of the low checksum byte flipped (F7's kind). -/
theorem witness_RdpktReportsChecksumMismatch :
    s1.ready ∧ s1.cfg.ok = true ∧ ({ ack with ck := 0x5EFD } : Packet).lenOk = true
    ∧ ({ ack with ck := 0x5EFD } : Packet).fits s1.cfg = true
    ∧ ({ ack with ck := 0x5EFD } : Packet).ck ≠ cks (packetHead ack.hdr ack.payload)
    ∧ ({ s1 with rxq := [0xAA, 0x40, 0x00, 0x0C, 0xFD, 0x5E] } : State).rxq
        = ({ ack with ck := 0x5EFD } : Packet).bytes ++ [] := by decide

/-- None and two of the three bytes. -/
theorem witness_RdpktHoldsInTheHead :
    s1.ready ∧ s1.cfg.ok = true ∧ s1.rxq.length < 3
    ∧ ({ s1 with rxq := [0xAA, 0x40] } : State).rxq.length < 3 := by decide

/-- The first byte after the head missing, and the last one. -/
theorem witness_RdpktHoldsInTheBody :
    s1.ready ∧ s1.cfg.ok = true ∧ legalPlen s1.cfg (hdrPlen (le16 0x40 0x00))
    ∧ ({ s1 with rxq := [0xAA, 0x40, 0x00] } : State).rxq = 0xAA :: 0x40 :: 0x00 :: []
    ∧ ([] : List Byte).length < (hdrPlen (le16 0x40 0x00)).toNat + 2
    ∧ ([0x0C, 0xFC] : List Byte).length < (hdrPlen (le16 0x40 0x00)).toNat + 2 := by decide

/-- RDPKT cut after four bytes of E27; a transaction inside an attempt that one more byte does not end. -/
theorem witness_HeldAttemptGoesOnWhereItStopped :
    (s1.atRest ∧ nextOf (exec .rdpkt { s1 with rxq := [0xAA, 0x40, 0x00, 0x0C] }) = some heldBody
      ∧ heldBody.busy = true)
    ∧ heldTxn.requesting ∧ heldTxn.tstate = .await ∧ heldTxn.fstate ≠ .idle
    ∧ after (fun t => (t.fstate, t.attempts)) (exec .opNone (arrive [0xFC] heldTxn))
        = some (.body, heldTxn.attempts) := by decide

/-- RDPKT in its head, RDPKT in its body, and a transaction in its body. -/
theorem witness_HeldEngineWaits :
    (held.busy = true ∧ held.rxq = [] ∧ held.fstate = .head ∧ held.rxcnt < 3 ∧ held.op = .rdpkt)
    ∧ (heldBody.busy = true ∧ heldBody.rxq = [] ∧ heldBody.fstate = .body ∧ heldBody.rxcnt < heldBody.plen.toNat + 5
      ∧ heldBody.op = .rdpkt)
    ∧ ({ heldBody with op := .reqr, tstate := .await } : State).tstate = .await := by decide

/-- Nothing more to come, and silent turns. -/
theorem witness_ReqrTimesOutOnASilentDevice :
    s1.ready ∧ s1.cfg.ok = true ∧ s1.silent ∧ ({ s1 with devq := [[], [], []] } : State).silent := by decide

/-- The largest data that fits. -/
theorem witness_ReqwTimesOutOnASilentDevice :
    s1.ready ∧ s1.cfg.ok = true ∧ s1.silent ∧ (List.replicate 26 (0 : Byte)).length + 6 ≤ s1.cfg.maxResponseSize := by
  decide

/-- The smallest data that does not. -/
theorem witness_ReqwTooLongIsAContractViolation :
    s1.atRest ∧ s1.cfg.maxResponseSize - 5 < 1 + (List.replicate 27 (0 : Byte)).length := by decide

/-- The first iteration and the last one of the budget. -/
theorem witness_ReqrSucceedsOnItsResponse :
    s1.ready ∧ s1.cfg.ok = true ∧ s1.rxq = [] ∧ ack.wf s1.cfg = true ∧ ack.cmd = 0x0C ∧ 0 < s1.cfg.nAttempts
    ∧ 1 < s1.cfg.nAttempts
    ∧ ({ s1 with devq := [[], ackBytes ++ [0x11], [0x22]] } : State).devq
        = List.replicate 1 [] ++ (ack.bytes ++ [0x11]) :: [[0x22]] := by decide

theorem witness_ReqwSucceedsOnItsResponse :
    s1.ready ∧ s1.cfg.ok = true ∧ s1.rxq = [] ∧ ([0x01] : List Byte).length + 6 ≤ s1.cfg.maxResponseSize
    ∧ ack.wf s1.cfg = true ∧ ack.cmd = 0x0C ∧ 1 < s1.cfg.nAttempts
    ∧ ({ s1 with devq := [[], ackBytes] } : State).devq = List.replicate 1 [] ++ (ack.bytes ++ []) :: [] := by decide

theorem witness_RequestTakesAStalePacket :
    s1.ready ∧ s1.cfg.ok = true ∧ s1.cfg.flushOnRequest = false ∧ ack.wf s1.cfg = true ∧ ack.cmd = 0x0C
    ∧ ({ s1 with rxq := ackBytes } : State).rxq = ack.bytes ++ []
    ∧ ([0x01] : List Byte).length + 6 ≤ s1.cfg.maxResponseSize := by decide

/-- E26 answered by E27, and the same for a read request. -/
theorem witness_SuccessMeansACorrelatedPacket :
    s1.cfg.ok = true ∧ ([] : List Byte).length + 6 ≤ s1.cfg.maxResponseSize
    ∧ after (fun t => (t.busy, t.tresult)) (exec (.reqw 0x0C []) { s1 with devq := [ackBytes] })
        = some (false, .success)
    ∧ after (fun t => (t.busy, t.tresult)) (exec (.reqr 0x0C) { s1 with devq := [ackBytes] })
        = some (false, .success) := by decide

/-- One iteration left after this one. -/
theorem witness_MismatchedPacketIsDiscarded :
    waiting.cfg.ok = true ∧ waiting.awaitingResponse ∧ waiting.rxq = [] ∧ waiting.devq = []
    ∧ (⟨false, 0, 1, 0x1E, [], 0x6C8F⟩ : Packet).wf waiting.cfg = true ∧ (0x1E : Byte) ≠ waiting.cmd
    ∧ waiting.attempts + 1 < waiting.cfg.nAttempts := by decide

/-- All four forms, in the first iteration and in the last one of the budget: a good packet with another command, a wrong
first byte, lengths 0 and 28, and a wrong checksum, with bytes behind them and bytes still to come. -/
theorem witness_DiscardedAttemptsUseUpTheBudget :
    let last := { waiting with attempts := 1 }
    waiting.awaitingResponse ∧ last.awaitingResponse ∧ waiting.cfg.ok = true ∧ waiting.attempts + 1 ≠ waiting.cfg.nAttempts
    ∧ last.attempts + 1 = last.cfg.nAttempts
    ∧ (⟨false, 0, 1, 0x1E, [], 0x6C8F⟩ : Packet).wf waiting.cfg = true ∧ (0x1E : Byte) ≠ waiting.cmd
    ∧ ({ waiting with rxq := [0xAA, 0x40], devq := [[0x00, 0x1E, 0x8F, 0x6C, 0x99], []] } : State).rxq
        ++ [0x00, 0x1E, 0x8F, 0x6C, 0x99] = (⟨false, 0, 1, 0x1E, [], 0x6C8F⟩ : Packet).bytes ++ [0x99]
    ∧ (0xAB : Byte) ≠ startByte ∧ ¬ legalPlen waiting.cfg (hdrPlen (le16 0x00 0x00))
    ∧ ¬ legalPlen waiting.cfg (hdrPlen (le16 0x00 0x07))
    ∧ ({ ack with ck := 0x5EFD } : Packet).lenOk = true ∧ ({ ack with ck := 0x5EFD } : Packet).fits waiting.cfg = true
    ∧ ({ ack with ck := 0x5EFD } : Packet).ck ≠ cks (packetHead ack.hdr ack.payload) := by decide

/-- The first iteration, and the last one of the budget. -/
theorem witness_PktRespEndsTheTransaction :
    waiting.cfg.ok = true ∧ waiting.awaitingResponse ∧ ({ waiting with attempts := 1 } : State).awaitingResponse
    ∧ waiting.rxq = [] ∧ ack.wf waiting.cfg = true ∧ ack.cmd = waiting.cmd := by decide

theorem witness_PktRdreqIsSent : s1.ready ∧ s1.cfg.ok = true := by decide

theorem witness_PktWrreqIsSent :
    s1.ready ∧ s1.cfg.ok = true ∧ (List.replicate 26 (0 : Byte)).length + 6 ≤ s1.cfg.maxResponseSize := by decide

theorem witness_PktEndsAWaitingRdpkt : held.waitingRdpkt ∧ held.cfg.ok = true ∧ ack.wf held.cfg = true := by decide

set_option maxRecDepth 4000 in
theorem witness_PktStreamIsFramedAndDecoded :
    held.waitingRdpkt ∧ held.cfg.ok = true ∧ held.cfg.layout = Layout.r106 ∧ (Instr.pktStream d1).wf held.cfg = true
    ∧ d1.dist.length ≤ held.cfg.streamMaxPoints := by decide

/-- E21 sent by REQW, and E20 by the row PKT.RDREQ. -/
theorem witness_SentPacketIsFramedBack :
    s1.cfg.ok = true ∧ s1.ready ∧ ([0x05, 0x00, 0x00, 0x00] : List Byte).length + 6 ≤ s1.cfg.maxResponseSize
    ∧ after (·.txlog) (exec (.reqw 0x1E [0x05, 0x00, 0x00, 0x00]) s1)
        = some (s1.txlog ++ [0xAA, 0x41, 0x01, 0x1E, 0x05, 0x00, 0x00, 0x00, 0x0F, 0x40])
    ∧ after (·.txlog) (exec (.pktRdreq 0x03 0) s1) = some (s1.txlog ++ [0xAA, 0x40, 0x00, 0x03, 0x13, 0xAF])
    ∧ ({ s1 with rxq := [0xAA, 0x40, 0x00, 0x03, 0x13, 0xAF] } : State).ready := by decide

/-- Two samples, and none. -/
theorem witness_SdecDecodesAFrame :
    s1d1.busy = false ∧ s1d1.cfg.layout = Layout.r106 ∧ s1d1.plen = d1.plen ∧ s1d1.packet = some d1.packet.bytes
    ∧ d1.packet.lenOk = true ∧ d1.countOk = true ∧ d1.idOk s1d1.cfg = true
    ∧ d1.dist.length ≤ s1d1.cfg.streamMaxPoints := by decide

theorem witness_SdecNeedsAValidPacket : s1.busy = false ∧ s1.pktValid = false := by decide

theorem witness_SdecReportsNotStreamData :
    s1ack.busy = false ∧ s1ack.plen = ack.plen ∧ ack.lenOk = true ∧ s1ack.packet = some ack.bytes
    ∧ ack.cmd ≠ s1ack.cfg.streamCmdId := by decide

/-- The longest that is too short. -/
theorem witness_SdecFaultsOnAShortFrame :
    (s1.framed shortFrame).busy = false ∧ (s1.framed shortFrame).plen = shortFrame.plen ∧ shortFrame.lenOk = true
    ∧ (s1.framed shortFrame).packet = some shortFrame.bytes
    ∧ shortFrame.cmd = (s1.framed shortFrame).cfg.streamCmdId ∧ shortFrame.plen.toNat < s1.cfg.layout.fixed := by decide

/-- One sample too many for the payload, and one beyond the capacity of TC1; the shortest legal frame. -/
theorem witness_SdecFaultsOnTheCount :
    (s1.framed (fixedFrame 1)).busy = false ∧ (s1.framed (fixedFrame 1)).cfg.layout = Layout.r106
    ∧ (s1.framed (fixedFrame 1)).plen = (fixedFrame 1).plen ∧ (fixedFrame 1).lenOk = true
    ∧ (s1.framed (fixedFrame 1)).packet = some (fixedFrame 1).bytes
    ∧ (fixedFrame 1).cmd = s1.cfg.streamCmdId ∧ 15 ≤ (fixedFrame 1).plen.toNat
    ∧ (fixedFrame 1).plen.toNat < 15 + 2 * (le16 ((fixedFrame 1).payload.getD 11 0) ((fixedFrame 1).payload.getD 12 0)).toNat
    ∧ s1.cfg.streamMaxPoints < (le16 ((fixedFrame 5).payload.getD 11 0) ((fixedFrame 5).payload.getD 12 0)).toNat
    ∧ (s1.framed (fixedFrame 5)).packet = some (fixedFrame 5).bytes := by decide

theorem witness_SdecKeepsPacketAndChannel :
    after (fun t => t.sfDist) (exec .sdec s1d1) = some [0x0064, 0xFFCE] := by decide

set_option maxRecDepth 4000 in
/-- D1 with a capacity of six: all that TC1's packets can hold. -/
theorem witness_EnoughCapacityDecodesEveryConsistentFrame :
    let s := ({ s1 with cfg := { c1 with streamMaxPoints := 6 } } : State).framed d1.packet
    s.busy = false ∧ s.cfg.layout = Layout.r106 ∧ s.plen = d1.packet.plen ∧ d1.packet.wf s.cfg = true
    ∧ s.packet = some d1.packet.bytes ∧ d1.packet.cmd = s.cfg.streamCmdId ∧ 15 ≤ d1.packet.plen.toNat
    ∧ 15 + 2 * (le16 (d1.packet.payload.getD 11 0) (d1.packet.payload.getD 12 0)).toNat ≤ d1.packet.plen.toNat
    ∧ (s.cfg.maxResponseSize - 20) / 2 ≤ s.cfg.streamMaxPoints := by decide

/-- An RDPKT in its body phase has the invariant, and steps on: a state other than reset, with a byte to come. -/
theorem inv_heldBody (d : List (List Byte)) : State.Inv { heldBody with devq := d } where
  cfgOk := (by decide : c1.ok = true)
  rx := Mem.filled_ofBytes (c := c1) (bs := [0xAA, 0x40, 0x00, 0x0C]) (by decide)
  tx := Mem.filled_nil c1
  txcnt_le := Nat.le_refl 0
  attempts_le := Nat.zero_le _
  head := by simp [heldBody]
  body := fun _ => (by decide : legalPlen c1 1 ∧ 4 < 1 + 5)
  running := by simp [heldBody]
  noOutcome := fun _ => rfl
  valid_iff := by simp [heldBody, s1, State.resetWith]
  valid := by simp [heldBody, s1, State.resetWith]
  resting := .inl rfl
  awaiting := by simp [heldBody, s1, State.resetWith]
  busyOp := fun _ => .inl rfl
  frame := by simp [heldBody, s1, State.resetWith]
  frameOk := by simp [heldBody, s1, State.resetWith]
  shown := by simp [heldBody, s1, State.resetWith]
  faultReason := by simp [heldBody, s1, State.resetWith]

/-- A reset that stands first, and a request stopped after none and after five of its six bytes. -/
theorem witness_ResetAbandonsAndKeepsTheChannel :
    ({ waiting with sched := [.reset, .run none] } : State).sched = .reset :: [.run none]
    ∧ s1.atRest ∧ s1.cfg.ok = true ∧ s1.cfg.flushOnRequest = false
    ∧ ({ s1 with quota := some 0 } : State).quota = some 0 ∧ 0 < 6 ∧ ({ s1 with quota := some 5 } : State).quota = some 5
    ∧ 5 < 6 := by decide

theorem witness_LimitedStepsAddUp :
    State.Inv { heldBody with devq := [] } ∧ Instr.side (.pkt ack) ≠ .tx
    ∧ after (fun t => (t.rxcnt, t.rxq.length)) (exec (.pkt ack) { heldBody with quota := some 1 }) = some (5, 5) :=
  ⟨inv_heldBody _, by decide⟩

/-- A read request whose last byte is still to be sent, ATTEMPTS a leftover of the request before. -/
def lastByte : State := { s1.sent .reqr false 0x03 [] with tstate := .idle, txcnt := 5, attempts := 2 }

/-- Each clause's premises, the second conjunct at the boundary where a step crosses from the sending into the wait: limit 2
is one byte sent and one iteration, counted from 0. -/
theorem witness_LimitBoundsTheStep :
    after (fun t => (t.rxcnt, t.rxq.length)) (exec .opNone { heldBody with rxq := [0xFC, 0x5E], quota := some 1 })
      = some (5, 1)
    ∧ after (fun t => (t.polls, t.txlog.length, lastByte.polls, lastByte.txlog.length))
        (exec .opNone { lastByte with quota := some 2 }) = some (1, 7, 0, 6)
    ∧ (nextOf (exec (.pkt ack) { heldBody with quota := some 1 })).isSome = true
    ∧ (nextOf (exec (.pktStream d1) { heldBody with quota := some 1 })).isSome = true
    ∧ s1.cfg.ok = true ∧ ([] : List Byte).length + 6 ≤ s1.cfg.maxResponseSize
    ∧ after (·.txlog) (exec (.reqr 0x03) { s1 with quota := some 1 }) = some [0xAA]
    ∧ s1.cfg.maxResponseSize < (List.replicate 27 (0 : Byte)).length + 6
    ∧ after (·.txlog) (exec (.reqw 0x03 (List.replicate 27 0)) s1) = some [] := by decide

/-- A request's `ChFlush()` under limit 0: RXQ is emptied and nothing is sent (R164, log 4). -/
theorem test_flush_limit :
    after (fun t => (t.rxq, t.txlog, t.busy))
        (exec (.reqr 0x03) { s1 with cfg := { c1 with flushOnRequest := true }, rxq := [7], quota := some 0 })
      = some ([], [], true) := by decide

/-- Each clause's premises: a checksum, FLUSH, RDPKT that ends well and badly, requests that succeed and one that times out,
SDEC on a frame and on another packet, and a new contract violation. -/
theorem witness_HostReadsWhatWasHandedOver :
    s1.busy = false ∧ s1.cfg.ok = true ∧ ([] : List Byte).length + 6 ≤ s1.cfg.maxResponseSize
    ∧ (nextOf (exec .flush s1)).isSome = true ∧ (nextOf (exec (.cks []) s1)).isSome = true
    ∧ after (fun t => (t.busy, t.fstatus)) (exec .rdpkt { s1 with rxq := ackBytes }) = some (false, .ok)
    ∧ after (fun t => (t.busy, t.fstatus)) (exec .rdpkt { s1 with rxq := [1, 2, 3] }) = some (false, .badStartByte)
    ∧ after (fun t => (t.busy, t.tresult)) (exec (.reqr 0x0C) { s1 with rxq := ackBytes }) = some (false, .success)
    ∧ after (fun t => (t.busy, t.tresult)) (exec (.reqw 0x0C []) { s1 with rxq := ackBytes }) = some (false, .success)
    ∧ after (fun t => (t.busy, t.tresult)) (exec (.reqr 0x0C) s1) = some (false, .timeout)
    ∧ after (·.sstatus) (exec .sdec s1d1) = some .ok ∧ after (·.sstatus) (exec .sdec s1ack) = some .notStreamData
    ∧ s1.fault = false ∧ after (·.fault) (exec .opReserved s1) = some true := by decide

/-- An operation, and a request's packet. -/
theorem witness_BusyEngineRefusesOperations :
    held.busy = true ∧ Instr.side .flush = .host ∧ Instr.side (.pktRdreq 3 0xAF13) = .tx
    ∧ Instr.flush ≠ .opNone := by decide

/-- FRM not at rest, and TXN not at rest. -/
theorem witness_UnitNotAtRestRefusesOperations :
    ({ s1 with fstate := .head } : State).busy = false ∧ ({ s1 with fstate := .head } : State).fstate ≠ .idle
    ∧ ({ s1 with tstate := .await } : State).tstate ≠ .idle ∧ Instr.side (.pktRdreq 3 0xAF13) = .tx := by decide

theorem witness_StepRefusesBytesThatAreNoOperation :
    s1.running ∧ s1.busy = false ∧ ({ s1 with port := [[0b00001000]] } : State).port = [0b00001000] :: []
    ∧ decodePort [0b00001000] = .error .badOpcode := ⟨by decide, rfl, rfl, rfl⟩

theorem witness_InvariantHoldsAtReset : c1.ok = true := by decide

/-- Also for NoStepReadsAByteWithoutValue and NoStepChangesTheConfiguration. -/
theorem witness_EveryStepKeepsTheInvariant :
    State.Inv { heldBody with devq := [[0xFC, 0x5E]] }
    ∧ after (fun t => (t.fstatus, t.busy)) (step { heldBody with devq := [[0xFC, 0x5E]] }) = some (.ok, false) :=
  ⟨inv_heldBody _, by decide⟩

/-- A second fault after the first. -/
theorem witness_FaultsAreStickyAndFirstWins :
    s1.running ∧ after (·.faultReason)
      (step { s1 with fault := true, faultReason := .noValidPacket, port := [[0b00000111]] }) = some .noValidPacket := by
  decide

/-- A step that transmits, one that does not, and the second clause's premises. -/
theorem witness_OnlyRequestsTransmit :
    after (fun t => t.txlog.length) (step { s1 with port := [[3, 3]] }) = some 6
    ∧ after (fun t => t.txlog.length) (exec (.pktResp ack) waiting) = some 6 ∧ waiting.tstate = .await := by decide

theorem witness_OnlySdecWritesTheFrame :
    Instr.rdpkt ≠ .sdec ∧ after (·.sfValid) (exec .rdpkt { s1 with rxq := ackBytes, sfValid := true }) = some true := by
  decide

/-- `s1` has the invariant. -/
theorem inv_s1 : s1.Inv where
  cfgOk := by decide
  rx := Mem.filled_nil c1
  tx := Mem.filled_nil c1
  txcnt_le := Nat.le_refl 0
  attempts_le := Nat.zero_le _
  head := by simp [s1, State.resetWith]
  body := by simp [s1, State.resetWith]
  running := by simp [s1, State.resetWith]
  noOutcome := fun _ => rfl
  valid_iff := by simp [s1, State.resetWith]
  valid := by simp [s1, State.resetWith]
  resting := .inl rfl
  awaiting := by simp [s1, State.resetWith]
  busyOp := by simp [s1, State.resetWith]
  frame := by simp [s1, State.resetWith]
  frameOk := by simp [s1, State.resetWith]
  shown := by simp [s1, State.resetWith]
  faultReason := by simp [s1, State.resetWith]

/-- The engine at rest after reset, and STATUS as sampled. -/
theorem witness_HostSeesTheTransactorIdle :
    s1.Inv ∧ s1.status = some ⟨false, 0, 0, 0, 0, false, false, false, 0⟩ := ⟨inv_s1, by decide⟩

theorem witness_StepRunsThePresentedOperation :
    s1.running ∧ ({ s1 with sched := [.run (some 1)] } : State).running
    ∧ s1.busy = false ∧ ({ s1 with port := [[3, 9]] } : State).port = [3, 9] :: []
    ∧ decodePort [3, 9] = .ok (.reqr 9) := ⟨by decide, by decide, rfl, rfl, rfl⟩

/-- While an operation is in progress, and with nothing at the port; a packet to come, a part of one, and nothing. -/
theorem witness_StepRunsTheArrivingPacket :
    waiting.running ∧ s1.running ∧ waiting.devq = [] ∧ waiting.busy = true ∧ s1.port = []
    ∧ ({ waiting with devq := [ackBytes] } : State).devq = ackBytes :: []
    ∧ decode (rxSide waiting) ackBytes = .ok (.pktResp ack)
    ∧ ({ waiting with devq := [[0xAA, 0x40]] } : State).devq = [0xAA, 0x40] :: []
    ∧ decode (rxSide waiting) [0xAA, 0x40] = .error .truncated :=
  ⟨by decide, by decide, rfl, rfl, rfl, rfl, rfl, rfl, rfl⟩

end Sys2Proof.Tests
end

section
/-! SDEC on a stream frame in the layout of R106: what each stage of the decoder leaves (43_stream_decoder R190 to
R198), and how the host reads the registers (10_state R26, R27). -/

namespace Sys2Proof.Machine

/-! ## Where the fields of a stream frame lie -/

@[simp] theorem lo8_setWidth (b : Byte) : lo8 (b.setWidth 16) = b := by simp [lo8]

@[simp] theorem sampleBytes_length (ds : List Half) : (sampleBytes ds).length = 2 * ds.length := by
  induction ds with
  | nil => rfl
  | cons d ds ih => simp [sampleBytes, ih]; omega

/-- The command identifier and the fixed fields take `SF_FIXED` = 15 payload bytes, each sample two (R106, R107). -/
theorem streamPayload_length (f : StreamPacket) :
    f.packet.payload.length = 15 + 2 * f.dist.length + f.extra.length := by
  simp [StreamPacket.packet, Packet.payload, StreamPacket.data]; omega

/-- PLEN covers the samples, since it counts the payload's bytes (R92, R196). -/
theorem fixed_and_samples_le_plen {f : StreamPacket} (h : f.packet.lenOk = true) :
    15 + 2 * f.dist.length ≤ f.plen.toNat := by
  have hlen : f.plen.toNat = f.packet.payload.length := beq_iff_eq.mp h
  rw [hlen, streamPayload_length]
  omega

theorem field_one_of_packet {s : State} {hdr ck : Half} {pl : List Byte} (h : s.packet = some (packetBytes hdr pl ck))
    {off : Nat} {b : Byte} (hb : pl[off]? = some b) : field s ⟨off, .one, false⟩ = .ok (b.setWidth 16) := by
  simp [field, pay_of_packet h hb]

/-- Two payload bytes that hold a register's value low byte first give the value, under either sign (R17, R106). -/
theorem field_two_of_packet {s : State} {hdr ck : Half} {pl : List Byte} (h : s.packet = some (packetBytes hdr pl ck))
    {off : Nat} {sgn : Bool} {v : Half} (h0 : pl[off]? = some (lo8 v)) (h1 : pl[off + 1]? = some (hi8 v)) :
    field s ⟨off, .two, sgn⟩ = .ok v := by
  simp [field, pay16_of_packet h h0 h1]

/-! ## The stages of the decoder -/

/-- `s` with the scalar fields of `f` in the SF registers (R194): what `sdecFields` leaves, by `sdecFields_of_frame`. -/
def State.fieldsWritten (s : State) (f : StreamPacket) : State :=
  { s with
    sfAlarm := f.alarm, sfPps := f.pps, sfFwd := f.fwd, sfMv := f.mv, sfRev := f.rev, sfTotal := f.total
    sfCount := f.count, sfStart := f.start }

theorem sdecFields_of_frame {s : State} {f : StreamPacket} (hl : s.cfg.layout = Layout.r106)
    (hp : s.packet = some f.packet.bytes) : sdecFields s = .ok (s.fieldsWritten f) := by
  have alarm : field s Layout.r106.alarm = .ok (f.alarm.setWidth 16) := field_one_of_packet hp rfl
  have pps : field s Layout.r106.pps = .ok f.pps := field_two_of_packet hp rfl rfl
  have fwd : field s Layout.r106.fwd = .ok f.fwd := field_two_of_packet hp rfl rfl
  have mv : field s Layout.r106.mv = .ok f.mv := field_two_of_packet hp rfl rfl
  have rev : field s Layout.r106.rev = .ok (f.rev.setWidth 16) := field_one_of_packet hp rfl
  have total : field s Layout.r106.total = .ok f.total := field_two_of_packet hp rfl rfl
  have count : field s Layout.r106.count = .ok f.count := field_two_of_packet hp rfl rfl
  have start : field s Layout.r106.start = .ok f.start := field_two_of_packet hp rfl rfl
  simp [sdecFields, hl, alarm, pps, fwd, mv, rev, total, count, start, State.fieldsWritten]

/-- The samples of a frame lie from payload offset 15 on (R106, R197). -/
theorem samples_of_frame {s : State} {f : StreamPacket} (hp : s.packet = some f.packet.bytes) :
    samples s 15 f.dist.length = .ok f.dist :=
  samples_of_packet hp (f.packet.payload.take 15) f.dist f.extra rfl

/-- A count that passes both tests is followed by the samples and completion (R195 to R198). -/
theorem sdecSamples_of_samples {s : State} {ds : List Half} (hcap : s.sfCount.toNat ≤ s.cfg.streamMaxPoints)
    (hfit : s.cfg.layout.fixed + 2 * s.sfCount.toNat ≤ s.plen.toNat)
    (hds : samples s s.cfg.layout.fixed s.sfCount.toNat = .ok ds) :
    sdecSamples s = .ok (finish { s with sfDist := ds, sstatus := .ok, sfValid := true }) := by
  simp [sdecSamples, Nat.not_lt.mpr hcap, Nat.not_lt.mpr hfit, hds]

/-- `s` with no frame valid and no outcome, as every decode starts (R190): what the tests of `sdecDecode` run on, by
`sdecDecode_of_streamPacket`. -/
def State.undecoded (s : State) : State := { s with sfValid := false, sstatus := .none }

/-- A valid stream packet that is long enough passes the tests of R191 to R193: its fields and samples are decoded. -/
theorem sdecDecode_of_streamPacket {s : State} (hv : s.pktValid = true) (hid : pay s 0 = .ok s.cfg.streamCmdId)
    (hfix : s.cfg.layout.fixed ≤ s.plen.toNat) :
    sdecDecode s = sdecFields s.undecoded >>= sdecSamples := by
  have hid' : pay { s with sfValid := false, sstatus := .none } 0 = .ok s.cfg.streamCmdId := hid
  unfold sdecDecode
  dsimp only
  rw [if_pos hv, hid', except_ok_bind, if_neg (not_not_intro rfl), if_neg (Nat.not_lt.mpr hfix)]
  rfl

@[simp] theorem packet_undecoded (s : State) : s.undecoded.packet = s.packet := rfl

@[simp] theorem packet_fieldsWritten (s : State) (f : StreamPacket) : (s.fieldsWritten f).packet = s.packet := rfl

/-- A frame whose fields have been written passes both count tests, and its samples are taken (R195 to R198). -/
theorem sdecSamples_of_frame {s : State} {f : StreamPacket} (hl : s.cfg.layout = Layout.r106) (hplen : s.plen = f.plen)
    (hp : s.packet = some f.packet.bytes) (hlen : f.packet.lenOk = true) (hcount : f.countOk = true)
    (hcap : f.dist.length ≤ s.cfg.streamMaxPoints) :
    sdecSamples (s.fieldsWritten f)
      = .ok (finish { s.fieldsWritten f with sfDist := f.dist, sstatus := .ok, sfValid := true }) := by
  have hn : (s.fieldsWritten f).sfCount.toNat = f.dist.length := beq_iff_eq.mp hcount
  have hfixed : (s.fieldsWritten f).cfg.layout.fixed = 15 := congrArg Layout.fixed hl
  have hroom : 15 + 2 * f.dist.length ≤ (s.fieldsWritten f).plen.toNat := by
    rw [show (s.fieldsWritten f).plen = f.plen from hplen]
    exact fixed_and_samples_le_plen hlen
  apply sdecSamples_of_samples
  · rw [hn]
    exact hcap
  · rw [hfixed, hn]
    exact hroom
  · rw [hfixed, hn]
    exact samples_of_frame (by simpa using hp)

/-- The decode of a consistent frame within capacity, through all its stages (R190 to R198). -/
theorem sdecDecode_of_frame {s : State} {f : StreamPacket} (hl : s.cfg.layout = Layout.r106) (hplen : s.plen = f.plen)
    (hp : s.packet = some f.packet.bytes) (hlen : f.packet.lenOk = true) (hcount : f.countOk = true)
    (hid : f.idOk s.cfg = true) (hcap : f.dist.length ≤ s.cfg.streamMaxPoints) :
    sdecDecode s
      = .ok (finish { s.undecoded.fieldsWritten f with sfDist := f.dist, sstatus := .ok, sfValid := true }) := by
  have hcmd : f.id = s.cfg.streamCmdId := beq_iff_eq.mp hid
  have hpay : pay s 0 = .ok s.cfg.streamCmdId := hcmd ▸ pay_of_packet hp rfl
  have hfix : s.cfg.layout.fixed ≤ s.plen.toNat := by
    rw [hl, hplen]
    exact le_trans (Nat.le_add_right 15 _) (fixed_and_samples_le_plen hlen)
  have hp' : s.undecoded.packet = some f.packet.bytes := by simpa using hp
  rw [sdecDecode_of_streamPacket (pktValid_of_packet hp) hpay hfix,
    sdecFields_of_frame (s := s.undecoded) hl hp', except_ok_bind,
    sdecSamples_of_frame (s := s.undecoded) hl hplen hp' hlen hcount hcap]

/-- SDEC presented to a free engine is accepted and decodes the packet in RXBUF (R190, R211). -/
theorem exec_sdec_of_idle {s : State} (h : s.busy = false) : exec .sdec s = outcome (sdecDecode (accept .sdec s)) :=
  whenIdle_of h

/-- Under the layout of R106 the signed fields are SF_FWD, SF_MV and the samples (R26, R27, R107). -/
theorem frame_decoded {s : State} (f : StreamPacket) (hl : s.cfg.layout = Layout.r106) :
    (s.decoded f).frame = some {
      alarm := f.alarm.toNat, pps := f.pps.toNat, fwd := f.fwd.toInt, mv := f.mv.toInt, rev := f.rev.toNat
      total := f.total.toNat, count := f.count.toNat, start := f.start.toNat, dist := f.dist.map BitVec.toInt } := by
  have hl' : (s.decoded f).cfg.layout = Layout.r106 := hl
  unfold State.frame
  rw [hl']
  rfl

/-- The writes of acceptance, decode and completion together are those of `State.decoded` (R194 to R198). -/
theorem finish_fieldsWritten_accept (s : State) (f : StreamPacket) :
    finish { (accept .sdec s).undecoded.fieldsWritten f with sfDist := f.dist, sstatus := .ok, sfValid := true }
      = s.decoded f := by
  simp only [finish, State.fieldsWritten, State.undecoded, accept, State.decoded]

/-- Settles O34: the tests of R191 to R196 pass one after the other, and each stage writes its part of the frame. -/
theorem sdecDecodesAFrame : Obligations.SdecDecodesAFrame := by
  intro s f hbusy hl hplen hp hlen hcount hid hcap
  refine ⟨?_, frame_decoded f hl⟩
  rw [exec_sdec_of_idle hbusy, sdecDecode_of_frame (s := accept .sdec s) hl hplen hp hlen hcount hid hcap,
    finish_fieldsWritten_accept]
  rfl

end Sys2Proof.Machine
end

section
/-! What an operation may change and what it keeps, whatever state it starts from: the transmit phase (42_transactor R161
to R165), an operation that goes on (10_state R36), SDEC (43_stream_decoder R190 to R198), and from them every instruction
(10_state R29, R46; 60_exceptions R236). -/

namespace Sys2Proof.Machine

/-! ## The transmit phase -/

/-- The transmit phase only moves TXCNT, appends to TXLOG and uses up the step's limit (R164). -/
theorem txnSend_cases {n : Nat} {s t : State} (h : txnSend n s = .ok t) :
    ∃ cnt sent quota, t = { s with txcnt := cnt, txlog := s.txlog ++ sent, quota := quota } := by
  induction n generalizing s with
  | zero => cases h; exact ⟨t.txcnt, [], t.quota, by simp⟩
  | succ n ih =>
    unfold txnSend at h
    split at h
    · cases h; exact ⟨t.txcnt, [], t.quota, by simp⟩
    · obtain ⟨b, -, h⟩ := bind_ok h
      obtain ⟨cnt, sent, quota, rfl⟩ := ih h
      exact ⟨cnt, b :: sent, quota, by simp [chSend, spend]⟩

/-- TXN still transmits, or all of the packet has gone and it awaits (R164, R165; 10_state R33). -/
theorem txnTransmit_cases {s t : State} (h : txnTransmit s = .ok t) :
    ∃ cnt sent quota, let u := { s with txcnt := cnt, txlog := s.txlog ++ sent, quota := quota }
      t = u ∨ t = txnAwait u := by
  obtain ⟨u, hu, h⟩ := bind_ok h
  obtain ⟨cnt, sent, quota, rfl⟩ := txnSend_cases hu
  refine ⟨cnt, sent, quota, ?_⟩
  split at h <;> cases h
  · exact .inl rfl
  · exact .inr rfl

theorem txnBuild_cases {n : Nat} {data : List Byte} {s t : State} (h : txnBuild n data s = .ok t) :
    ∃ m, t = { s with txbuf := m } := by
  obtain ⟨m₁, -, h⟩ := bind_ok h
  obtain ⟨m₂, -, h⟩ := bind_ok h
  obtain ⟨m₃, -, h⟩ := bind_ok h
  split at h
  · obtain ⟨m, -, h⟩ := bind_ok h
    cases h
    exact ⟨m, rfl⟩
  · cases h
    exact ⟨m₃, rfl⟩

theorem txnSign_cases {n : Nat} {s t : State} (h : txnSign n s = .ok t) :
    ∃ crc m, t = { s with crc := crc, txbuf := m, txlen := n + 5 } := by
  obtain ⟨bs, -, h⟩ := bind_ok h
  obtain ⟨m, -, h⟩ := bind_ok h
  cases h
  exact ⟨cks bs, m, rfl⟩

/-- The flush before the first byte may empty RXQ and uses up the step's limit (R164). -/
theorem txnFlush_eq (s : State) : txnFlush s = { s with rxq := (txnFlush s).rxq, quota := (txnFlush s).quota } := by
  unfold txnFlush
  split <;> rfl

/-! ## A request, from its acceptance on -/

/-- `t` differs from `s` at most in what a request that has been accepted may write until it ends: all that the wait may
write, the transmit phase's registers and TXLOG, which only grows (R162 to R173). -/
structure RequestFrame (s t : State) : Prop where
  writes : pollFrame { s with txbuf := t.txbuf, txlen := t.txlen, txcnt := t.txcnt, txlog := t.txlog } t
  txlog : s.txlog <+: t.txlog

theorem RequestFrame.of_poll {s t : State} (h : pollFrame s t) : RequestFrame s t := by
  unfold pollFrame at h
  rw [h]
  exact ⟨rfl, List.prefix_rfl⟩

theorem RequestFrame.refl (s : State) : RequestFrame s s := .of_poll (pollFrame_refl s)

theorem RequestFrame.trans {s t u : State} (h₁ : RequestFrame s t) (h₂ : RequestFrame t u) : RequestFrame s u := by
  refine ⟨?_, h₁.txlog.trans h₂.txlog⟩
  unfold pollFrame
  rw [h₂.writes, h₁.writes]

theorem txnTransmit_frame {s t : State} (h : txnTransmit s = .ok t) : RequestFrame s t := by
  obtain ⟨cnt, sent, quota, rfl | rfl⟩ := txnTransmit_cases h
  · exact ⟨rfl, sent, rfl⟩
  · exact ⟨rfl, sent, rfl⟩

/-- Building, signing and the flush before the first byte are among what a request may write (R162 to R164). -/
theorem RequestFrame.built (s : State) (crc : Half) (m : Mem) (len : Nat) (q : List Byte) (quota : Option Nat) :
    RequestFrame s { s with crc := crc, txbuf := m, txlen := len, txcnt := 0, rxq := q, quota := quota } :=
  ⟨rfl, List.prefix_rfl⟩

/-- A request is turned away for its length, or accepted: then it stands at its first byte, with what FRM holds and what the
host may read of it untouched, and transmits (R161 to R164). -/
theorem txnRequest_cases {o : Op} {isWrite : Bool} {cmd : Byte} {data : List Byte} {s t : State}
    (h : txnRequest o isWrite cmd data s = .ok t) :
    (s.cfg.maxResponseSize - 5 < requestLen isWrite data ∧ t = violation .requestTooLong s)
    ∨ ∃ crc m len q quota, txnTransmit { txnAccept o isWrite cmd s with
        crc := crc, txbuf := m, txlen := len, txcnt := 0, rxq := q, quota := quota } = .ok t := by
  unfold txnRequest at h
  dsimp only at h
  split at h
  · cases h; exact .inl ⟨‹_›, rfl⟩
  · obtain ⟨u, hu, h⟩ := bind_ok h
    obtain ⟨v, hv, h⟩ := bind_ok h
    obtain ⟨m₁, rfl⟩ := txnBuild_cases hu
    obtain ⟨crc, m, rfl⟩ := txnSign_cases hv
    rw [txnFlush_eq] at h
    exact .inr ⟨_, _, _, _, _, h⟩

/-- How a request goes on from wherever it stands (10_state R33, R175). -/
theorem txnResume_cases {s t : State} (h : txnResume s = .ok t) :
    (s.tstate = .idle ∧ ∃ u, txnTransmit s = .ok u ∧ (t = u ∨ u.tstate = .await ∧ txnLoop u = .ok t))
    ∨ (s.fstate = .idle ∧ s.tstate = .await ∧ txnLoop s = .ok t)
    ∨ (s.fstate ≠ .idle ∧ s.tstate = .await ∧ txnFinishAttempt txnLoop s = .ok t)
    ∨ (s.tstate ≠ .idle ∧ s.tstate ≠ .await ∧ t = txnDeliver s) := by
  unfold txnResume at h
  split at h
  · obtain ⟨u, hu, h⟩ := bind_ok h
    split at h
    · exact .inl ⟨‹_›, u, hu, .inr ⟨‹_›, h⟩⟩
    · cases h; exact .inl ⟨‹_›, t, hu, .inl rfl⟩
  · split at h
    · exact .inr (.inl ⟨‹_›, ‹_›, h⟩)
    · exact .inr (.inr (.inl ⟨‹_›, ‹_›, h⟩))
  · cases h; exact .inr (.inr (.inr (by simp [*])))
  · cases h; exact .inr (.inr (.inr (by simp [*])))

/-! ## An operation in progress goes on -/

theorem rdpktResume_frame {s t : State} (h : rdpktResume s = .ok t) : pollFrame s t := by
  obtain ⟨u, hu, ⟨-, rfl⟩ | ⟨-, rfl⟩⟩ := rdpktResume_cases h
  · exact pollFrame_trans (pollFrame_of_frm (frmRun_frame hu)) (t := u) rfl
  · exact pollFrame_of_frm (frmRun_frame hu)

/-- Only a request that is still transmitting sends bytes; any other operation that goes on changes what the wait may
change (R29, R33). -/
theorem proceed_frame {s t : State} (h : proceed s = .ok t) :
    pollFrame s t ∨ ((s.requesting ∧ s.tstate = .idle) ∧ ∃ u, txnTransmit s = .ok u ∧ pollFrame u t) := by
  rcases proceed_cases h with rfl | ⟨-, -, h⟩ | ⟨hr, h⟩
  · exact .inl (pollFrame_refl _)
  · exact .inl (rdpktResume_frame h)
  · rcases txnResume_cases h with ⟨hi, u, hu, rfl | ⟨-, h⟩⟩ | ⟨-, -, h⟩ | ⟨-, -, h⟩ | ⟨-, -, rfl⟩
    · exact .inr ⟨⟨hr, hi⟩, t, hu, pollFrame_refl t⟩
    · exact .inr ⟨⟨hr, hi⟩, u, hu, txnLoop_frame u t h⟩
    · exact .inl (txnLoop_frame s t h)
    · exact .inl (txnFinishAttempt_frame txnLoop_frame h)
    · exact .inl rfl

theorem proceed_requestFrame {s t : State} (h : proceed s = .ok t) : RequestFrame s t := by
  rcases proceed_frame h with h | ⟨-, u, hu, h⟩
  · exact .of_poll h
  · exact (txnTransmit_frame hu).trans (.of_poll h)

/-- With nothing in progress nothing goes on (R36). -/
theorem proceed_of_idle {s : State} (h : s.busy = false) : proceed s = .ok s := by
  simp [proceed, h]

theorem proceed_of_requesting {s : State} (h : s.requesting) : proceed s = txnResume s := by
  obtain ⟨hb, ho | ho⟩ := h <;> simp [proceed, hb, ho]

theorem proceed_of_rdpkt {s : State} (hb : s.busy = true) (ho : s.op = .rdpkt) : proceed s = rdpktResume s := by
  simp [proceed, hb, ho]

/-- A whole request is turned away for its length, or changes what a request may change after its acceptance
(R160, R161). -/
theorem txnRun_cases {o : Op} {isWrite : Bool} {cmd : Byte} {data : List Byte} {s t : State}
    (h : txnRun o isWrite cmd data s = .ok t) :
    (s.cfg.maxResponseSize - 5 < requestLen isWrite data ∧ t = violation .requestTooLong s)
    ∨ RequestFrame (txnAccept o isWrite cmd s) t := by
  obtain ⟨u, hu, h⟩ := bind_ok h
  rcases txnRequest_cases hu with ⟨hl, rfl⟩ | ⟨crc, m, len, q, quota, hu⟩
  · rw [proceed_of_idle (violation_busy _ _)] at h
    cases h
    exact .inl ⟨hl, rfl⟩
  · have hsent := (RequestFrame.built (txnAccept o isWrite cmd s) crc m len q quota).trans (txnTransmit_frame hu)
    exact .inr (hsent.trans (proceed_requestFrame h))

/-! ## SDEC -/

/-- `t` differs from `s` at most in SDEC's scalar registers, with no frame valid and no outcome (R190, R194). -/
def scalarFrame (s t : State) : Prop :=
  t = { s with
    sfAlarm := t.sfAlarm, sfPps := t.sfPps, sfFwd := t.sfFwd, sfMv := t.sfMv, sfRev := t.sfRev, sfTotal := t.sfTotal
    sfCount := t.sfCount, sfStart := t.sfStart, sfValid := false, sstatus := .none }

/-- SDEC ends in a contract violation without a frame, in `NotStreamData`, or in a frame within capacity with SF_COUNT
samples (R190 to R198). -/
theorem sdecDecode_ends {s t : State} (h : sdecDecode s = .ok t) :
    (∃ u r, scalarFrame s u ∧ r ≠ .none ∧ t = violation r u)
    ∨ t = finish { s with sfValid := false, sstatus := .notStreamData }
    ∨ ∃ u ds, scalarFrame s u ∧ u.sfCount.toNat ≤ u.cfg.streamMaxPoints ∧ ds.length = u.sfCount.toNat
        ∧ t = finish { u with sfDist := ds, sstatus := .ok, sfValid := true } := by
  rcases sdecDecode_cases h with ⟨-, rfl⟩ | ⟨-, rfl⟩ | ⟨-, rfl⟩ | ⟨-, u, hu, h⟩
  · exact .inl ⟨{ s with sfValid := false, sstatus := .none }, .noValidPacket, rfl, by simp, rfl⟩
  · exact .inr (.inl rfl)
  · exact .inl ⟨{ s with sfValid := false, sstatus := .none }, .streamTruncated, rfl, by simp, rfl⟩
  · have hf : scalarFrame s u := by
      obtain ⟨a, b, c, d, e, f, g, i, rfl⟩ := sdecFields_cases hu
      rfl
    rcases sdecSamples_cases h with ⟨-, rfl⟩ | ⟨-, rfl⟩ | ⟨ds, hcap, -, hds, rfl⟩
    · exact .inl ⟨u, .pointCountOverCapacity, hf, by simp, rfl⟩
    · exact .inl ⟨u, .streamTruncated, hf, by simp, rfl⟩
    · exact .inr (.inr ⟨u, ds, hf, hcap, samples_length hds, rfl⟩)

theorem sdecDecode_busy {s t : State} (h : sdecDecode s = .ok t) : t.busy = false := by
  rcases sdecDecode_ends h with ⟨u, r, -, -, rfl⟩ | rfl | ⟨u, ds, -, -, -, rfl⟩ <;> rfl

/-- A contract violation of SDEC keeps the first fault's reason, and any other end keeps the fault register
(60_exceptions R236). -/
theorem sdecDecode_fault {s t : State} (h : sdecDecode s = .ok t) :
    (t.fault = s.fault ∧ t.faultReason = s.faultReason)
    ∨ ∃ u r, u.fault = s.fault ∧ u.faultReason = s.faultReason ∧ r ≠ .none ∧ t = violation r u := by
  rcases sdecDecode_ends h with ⟨u, r, hf, hr, rfl⟩ | rfl | ⟨u, ds, hf, -, -, rfl⟩
  · exact .inr ⟨u, r, by rw [hf], by rw [hf], hr, rfl⟩
  · exact .inl ⟨rfl, rfl⟩
  · exact .inl ⟨by rw [finish_fault, hf], by rw [finish_faultReason, hf]⟩

/-! ## Every instruction -/

/-- `t` differs from `s` at most in what an instruction other than SDEC may write without violating a contract: TXLOG only
grows, and Cfg, the stream-frame registers, SF_VALID, SSTATUS, the fault register, the host's script and the schedule stay
(10_state R29, R46; 60_exceptions R236). -/
abbrev OpFrame (s t : State) : Prop :=
  RequestFrame { s with cmd := t.cmd, iswr := t.iswr, op := t.op, crcShown := t.crcShown } t

/-- What an operation that has been accepted changes, its acceptance included. -/
theorem opFrame_of_request {s u t : State} (hu : OpFrame s u) (h : RequestFrame u t) : OpFrame s t := by
  refine ⟨?_, hu.txlog.trans h.txlog⟩
  unfold pollFrame
  rw [h.writes, hu.writes]

theorem opFrame_of_txnAccept {o : Op} {isWrite : Bool} {cmd : Byte} {s t : State}
    (h : RequestFrame (txnAccept o isWrite cmd s) t) : OpFrame s t :=
  opFrame_of_request (u := txnAccept o isWrite cmd s) ⟨rfl, List.prefix_rfl⟩ h

/-- What a packet does that arrives from the device, of whichever row (20_memory R66; log 8). -/
theorem deliver_next {bs : List Byte} {s t : State} (h : deliver bs s = .next t) : proceed (arrive bs s) = .ok t :=
  outcome_next h

theorem deliver_frame {bs : List Byte} {s t : State} (h : deliver bs s = .next t) : OpFrame s t :=
  opFrame_of_request (u := arrive bs s) ⟨rfl, List.prefix_rfl⟩ (proceed_requestFrame (deliver_next h))

theorem execSdec_next {s t : State} (h : exec .sdec s = .next t) :
    s.busy = false ∧ sdecDecode (accept .sdec s) = .ok t := whenIdle_next h

theorem execCks_next {data : List Byte} {s t : State} (h : exec (.cks data) s = .next t) :
    s.busy = false ∧ t = finish (cksUpdate data (accept .cks s)) := by
  obtain ⟨hb, h⟩ := whenIdle_next h
  cases h
  exact ⟨hb, rfl⟩

theorem execFlush_next {s t : State} (h : exec .flush s = .next t) :
    s.busy = false ∧ t = finish (chFlush (accept .flush s)) := by
  obtain ⟨hb, h⟩ := whenIdle_next h
  cases h
  exact ⟨hb, rfl⟩

theorem execOpReserved_next {s t : State} (h : exec .opReserved s = .next t) :
    s.busy = false ∧ t = violation .badOp s := by
  obtain ⟨hb, h⟩ := whenIdle_next h
  cases h
  exact ⟨hb, rfl⟩

theorem execOpNone_next {s t : State} (h : exec .opNone s = .next t) : proceed s = .ok t := outcome_next h

theorem execRdpkt_next {s t : State} (h : exec .rdpkt s = .next t) : s.atRest ∧ rdpktRun s = .ok t := whenAtRest_next h

theorem execReqr_next {cmd : Byte} {s t : State} (h : exec (.reqr cmd) s = .next t) :
    s.atRest ∧ txnRun .reqr false cmd [] s = .ok t := whenAtRest_next h

theorem execReqw_next {cmd : Byte} {data : List Byte} {s t : State} (h : exec (.reqw cmd data) s = .next t) :
    s.atRest ∧ txnRun .reqw true cmd data s = .ok t := whenAtRest_next h

theorem rdpktRun_frame {s t : State} (h : rdpktRun s = .ok t) : pollFrame (frmStart (rdpktAccept s)) t :=
  rdpktResume_frame h

theorem txnRequest_frame {o : Op} {isWrite : Bool} {cmd : Byte} {data : List Byte} {s t : State}
    (h : txnRequest o isWrite cmd data s = .ok t) : t = violation .requestTooLong s ∨ OpFrame s t := by
  rcases txnRequest_cases h with ⟨-, rfl⟩ | ⟨crc, m, len, q, quota, hu⟩
  · exact .inl rfl
  · exact .inr (opFrame_of_txnAccept ((RequestFrame.built ..).trans (txnTransmit_frame hu)))

theorem txnRun_frame {o : Op} {isWrite : Bool} {cmd : Byte} {data : List Byte} {s t : State}
    (h : txnRun o isWrite cmd data s = .ok t) : t = violation .requestTooLong s ∨ OpFrame s t := by
  rcases txnRun_cases h with ⟨-, rfl⟩ | h
  · exact .inl rfl
  · exact .inr (opFrame_of_txnAccept h)

/-- An instruction is SDEC, changes what `OpFrame` names, or is a contract violation (R29, R236). -/
theorem exec_cases {i : Instr} {s t : State} (h : exec i s = .next t) :
    (i = .sdec ∧ s.busy = false ∧ sdecDecode (accept .sdec s) = .ok t)
    ∨ OpFrame s t ∨ ∃ r, r ≠ .none ∧ t = violation r s := by
  have hreq (hx : t = violation .requestTooLong s ∨ OpFrame s t) :
      OpFrame s t ∨ ∃ r, r ≠ .none ∧ t = violation r s :=
    hx.symm.imp_right fun e => ⟨_, by simp, e⟩
  cases i with
  | cks data =>
    obtain ⟨-, rfl⟩ := execCks_next h
    exact .inr (.inl ⟨rfl, List.prefix_rfl⟩)
  | rdpkt =>
    obtain ⟨-, h⟩ := execRdpkt_next h
    exact .inr (.inl (opFrame_of_request (u := frmStart (rdpktAccept s)) ⟨rfl, List.prefix_rfl⟩
      (.of_poll (rdpktRun_frame h))))
  | reqr cmd =>
    obtain ⟨-, h⟩ := execReqr_next h
    exact .inr (hreq (txnRun_frame h))
  | reqw cmd data =>
    obtain ⟨-, h⟩ := execReqw_next h
    exact .inr (hreq (txnRun_frame h))
  | sdec => exact .inl ⟨rfl, execSdec_next h⟩
  | flush =>
    obtain ⟨-, rfl⟩ := execFlush_next h
    exact .inr (.inl ⟨rfl, List.prefix_rfl⟩)
  | opNone => exact .inr (.inl (opFrame_of_request (u := s) ⟨rfl, List.prefix_rfl⟩
      (proceed_requestFrame (execOpNone_next h))))
  | opReserved =>
    obtain ⟨-, rfl⟩ := execOpReserved_next h
    exact .inr (.inr ⟨.badOp, by simp, rfl⟩)
  | pkt p => exact .inr (.inl (deliver_frame h))
  | pktRdreq cmd ck => exact .inr (hreq (txnRequest_frame (whenAtRest_next h).2))
  | pktWrreq plen cmd data ck => exact .inr (hreq (txnRequest_frame (whenAtRest_next h).2))
  | pktResp p => exact .inr (.inl (deliver_frame h))
  | pktStream f => exact .inr (.inl (deliver_frame h))

/-- A fetch and taking up a step change the environment's part of the state and the step's limit only (logs 4 and 6). -/
theorem fetch_entered_frame {s s' : State} {i : Instr} (h : fetch s.entered = .ok (i, s')) :
    s' = { s with rxq := s'.rxq, port := s'.port, devq := s'.devq, quota := s'.quota, sched := s'.sched } := by
  rw [fetch_frame h, entered_frame s]

end Sys2Proof.Machine
end

section
/-! What every step keeps, whatever state it starts from: Cfg (10_state R46), a recorded fault (60_exceptions R236, R246),
the bytes already sent (70_reset_and_hazards R264) and, but for SDEC, the stream frame (10_state R29). -/

namespace Sys2Proof.Machine

/-! ## Cfg -/

theorem exec_cfg {i : Instr} {s t : State} (h : exec i s = .next t) : t.cfg = s.cfg := by
  rcases exec_cases h with ⟨-, -, h⟩ | h | ⟨r, -, rfl⟩
  · rw [sdecDecode_frame h, accept_cfg]
  · rw [h.writes]
  · rfl

/-- Settles O53: a reset takes Cfg over, and no instruction writes it. -/
theorem noStepChangesTheConfiguration : Obligations.NoStepChangesTheConfiguration := by
  intro s t h
  rcases step_next h with ⟨rest, -, rfl⟩ | ⟨-, i, s', hf, h⟩
  · rfl
  · rw [exec_cfg h, fetch_entered_frame hf]

/-! ## The fault register -/

/-- A recorded fault's reason outlasts a further violation (R236). -/
theorem violation_keeps_fault {s : State} (r : FaultReason) (h : s.fault = true) :
    (violation r s).fault = true ∧ (violation r s).faultReason = s.faultReason := by
  simp [h]

theorem exec_keeps_fault {i : Instr} {s t : State} (h : exec i s = .next t) (hs : s.fault = true) :
    t.fault = true ∧ t.faultReason = s.faultReason := by
  rcases exec_cases h with ⟨-, -, h⟩ | h | ⟨r, -, rfl⟩
  · rcases sdecDecode_fault h with ⟨hf, hr⟩ | ⟨u, r, hf, hr, -, rfl⟩
    · exact ⟨hf.trans hs, hr⟩
    · rw [show s.faultReason = u.faultReason from hr.symm]
      exact violation_keeps_fault r (hf.trans hs)
  · rw [h.writes]
    exact ⟨hs, rfl⟩
  · exact violation_keeps_fault r hs

/-- Settles O54: a step that is not a reset runs an instruction, and a further violation keeps the first reason. -/
theorem faultsAreStickyAndFirstWins : Obligations.FaultsAreStickyAndFirstWins := by
  intro s t hrun h hs
  rcases step_next h with ⟨rest, hsched, -⟩ | ⟨-, i, s', hf, h⟩
  · exact absurd (by rw [hsched]; rfl) hrun
  · have he := fetch_entered_frame hf
    obtain ⟨h1, h2⟩ := exec_keeps_fault h (by rw [he]; exact hs)
    exact ⟨h1, by rw [h2, he]⟩

/-! ## TXLOG -/

theorem exec_txlog_grows {i : Instr} {s t : State} (h : exec i s = .next t) : s.txlog <+: t.txlog := by
  rcases exec_cases h with ⟨-, -, h⟩ | h | ⟨r, -, rfl⟩
  · rw [sdecDecode_frame h]
    exact List.prefix_rfl
  · exact h.txlog
  · exact List.prefix_rfl

/-- What goes on without transmitting sends nothing (R33, R164). -/
theorem proceed_txlog {s t : State} (h : proceed s = .ok t) (hs : ¬ (s.requesting ∧ s.tstate = .idle)) :
    t.txlog = s.txlog := by
  rcases proceed_frame h with h | ⟨hs', -⟩
  · rw [h]
  · exact absurd hs' hs

theorem deliver_txlog {bs : List Byte} {s t : State} (h : deliver bs s = .next t)
    (hs : ¬ (s.requesting ∧ s.tstate = .idle)) : t.txlog = s.txlog :=
  proceed_txlog (s := arrive bs s) (deliver_next h) hs

/-- Settles O55: TXLOG begins what a step leaves, and outside the transmit phase only the rows of a request, which
are not asked about, could send. -/
theorem onlyRequestsTransmit : Obligations.OnlyRequestsTransmit := by
  refine ⟨fun s t h => ?_, fun i s t h hs hreqr hreqw hrdreq hwrreq => ?_⟩
  · rcases step_next h with ⟨rest, -, rfl⟩ | ⟨-, i, s', hf, h⟩
    · exact ⟨[], (List.append_nil _).symm⟩
    · have hlog : s'.txlog = s.txlog := by rw [fetch_entered_frame hf]
      obtain ⟨bs, hbs⟩ := exec_txlog_grows h
      exact ⟨bs, by rw [← hbs, hlog]⟩
  · cases i with
    | cks data => obtain ⟨-, rfl⟩ := execCks_next h; rfl
    | rdpkt => rw [rdpktRun_frame (execRdpkt_next h).2]; rfl
    | reqr cmd => exact absurd rfl (hreqr cmd)
    | reqw cmd data => exact absurd rfl (hreqw cmd data)
    | sdec => rw [sdecDecode_frame (execSdec_next h).2]; rfl
    | flush => obtain ⟨-, rfl⟩ := execFlush_next h; rfl
    | opNone => exact proceed_txlog (execOpNone_next h) hs
    | opReserved => obtain ⟨-, rfl⟩ := execOpReserved_next h; rfl
    | pkt p => exact deliver_txlog h hs
    | pktRdreq cmd ck => exact absurd rfl (hrdreq cmd ck)
    | pktWrreq plen cmd data ck => exact absurd rfl (hwrreq plen cmd data ck)
    | pktResp p => exact deliver_txlog h hs
    | pktStream f => exact deliver_txlog h hs

/-! ## The stream frame -/

/-- Settles O56: neither a contract violation nor what the other instructions write is a stream-frame register. -/
theorem onlySdecWritesTheFrame : Obligations.OnlySdecWritesTheFrame := by
  intro i s t hi h
  rcases exec_cases h with ⟨rfl, -⟩ | h | ⟨r, -, rfl⟩
  · exact absurd rfl hi
  · rw [h.writes]
    simp
  · simp

/-! ## Reset -/

/-- Settles O45: each register by the reset state's definition. -/
theorem resetLeavesTheSpecValues : Obligations.ResetLeavesTheSpecValues := by
  intro c i
  simp [State.resetWith]

end Sys2Proof.Machine
end

section
/-! The invariant of the engine (Safety.lean): it holds after reset, every instruction keeps it, and from a state that has it
no rule meets a byte without a value (10_state R22, R31 to R45, R55). -/

namespace Sys2Proof.Machine

/-! ## A legal configuration -/

theorem cfg_ok_iff (c : Cfg) : c.ok = true ↔ 6 ≤ c.maxResponseSize ∧ 1 ≤ c.nAttempts ∧ c.layout.ok = true := by
  simp [Cfg.ok, and_assoc]

theorem six_le_of_ok {c : Cfg} (h : c.ok = true) : 6 ≤ c.maxResponseSize := ((cfg_ok_iff c).mp h).1

theorem one_le_nAttempts_of_ok {c : Cfg} (h : c.ok = true) : 1 ≤ c.nAttempts := by
  obtain ⟨-, hn, -⟩ := (cfg_ok_iff c).mp h
  exact hn

theorem layout_of_ok {c : Cfg} (h : c.ok = true) : c.layout.ok = true := by
  obtain ⟨-, -, hl⟩ := (cfg_ok_iff c).mp h
  exact hl

/-! ## What the invariant says of a free engine, and of FRM -/

/-- Between operations both units are at rest (R31, R33). -/
theorem State.Inv.atRest {s : State} (h : s.Inv) (hb : s.busy = false) : s.atRest := by
  refine ⟨hb, ?_, ?_⟩
  · by_contra hf
    obtain ⟨hbusy, -⟩ := h.running hf
    simp [hb] at hbusy
  · rcases h.resting with ht | ht
    · exact ht
    · obtain ⟨⟨hbusy, -⟩, -⟩ := h.awaiting ht
      simp [hb] at hbusy

theorem State.Inv.frm {s : State} (h : s.Inv) : FrmInv s :=
  ⟨h.rx, h.head, h.body, h.noOutcome, h.valid_iff, h.valid, h.shown⟩

/-- A request that does not await has no framing attempt running (R31). -/
theorem State.Inv.fstate_of_transmitting {s : State} (h : s.Inv) (hr : s.requesting) (ht : s.tstate = .idle) :
    s.fstate = .idle := by
  by_contra hf
  obtain ⟨-, ho | ha⟩ := h.running hf
  · obtain ⟨-, ho' | ho'⟩ := hr <;> simp [ho] at ho'
  · simp [ht] at ha

/-! ## What the environment does keeps the invariant -/

/-- The channel, the scripts, the schedule and a step's limit are no part of the invariant. -/
theorem State.Inv.environment {s : State} (h : s.Inv) (rxq txlog : List Byte) (quota : Option Nat) (sched : List Slot)
    (port devq : List (List Byte)) :
    State.Inv { s with rxq := rxq, txlog := txlog, quota := quota, sched := sched, port := port, devq := devq } :=
  { h with }

theorem arrive_inv {s : State} (bs : List Byte) (h : s.Inv) : (arrive bs s).Inv := h.environment ..

/-- What a fetch gives an instruction to run in has the invariant (logs 4 and 6). -/
theorem fetch_entered_inv {s s' : State} {i : Instr} (h : s.Inv) (hf : fetch s.entered = .ok (i, s')) : s'.Inv := by
  rw [fetch_entered_frame hf]
  exact h.environment ..

/-- Settles O50: nothing holds a value, nothing is in progress and nothing has an outcome. -/
theorem invariantHoldsAtReset : Obligations.InvariantHoldsAtReset := fun c hc =>
  { cfgOk := hc
    rx := Mem.filled_nil c
    tx := Mem.filled_nil c
    txcnt_le := Nat.le_refl 0
    attempts_le := Nat.zero_le _
    head := by simp [State.resetWith]
    body := by simp [State.resetWith]
    running := by simp [State.resetWith]
    noOutcome := fun _ => rfl
    valid_iff := by simp [State.resetWith]
    valid := by simp [State.resetWith]
    resting := .inl rfl
    awaiting := by simp [State.resetWith]
    busyOp := by simp [State.resetWith]
    frame := by simp [State.resetWith]
    frameOk := by simp [State.resetWith]
    shown := by simp [State.resetWith]
    faultReason := by simp [State.resetWith] }

theorem resetPE_inv {s : State} (h : s.Inv) : (resetPE s).Inv :=
  (invariantHoldsAtReset s.cfg h.cfgOk).environment ..

/-! ## Operations that end in the step that accepts them -/

/-- `t` is free and differs from `s` at most in what CKS, SDEC, FLUSH and a contract violation may write (R29). -/
def shortOpFrame (s t : State) : Prop :=
  t = { s with
    sfAlarm := t.sfAlarm, sfPps := t.sfPps, sfFwd := t.sfFwd, sfMv := t.sfMv, sfRev := t.sfRev, sfTotal := t.sfTotal
    sfCount := t.sfCount, sfStart := t.sfStart, sfDist := t.sfDist, sfValid := t.sfValid, sstatus := t.sstatus
    crc := t.crc, op := t.op, busy := false, fault := t.fault, faultReason := t.faultReason, rxq := t.rxq
    handed := t.handed, crcShown := t.crcShown }

/-- A free engine that stays free keeps the invariant if its frame and its fault register are in order. -/
theorem State.Inv.shortOp {s t : State} (h : s.Inv) (hb : s.busy = false) (ht : shortOpFrame s t)
    (hframe : t.sfValid = true →
      t.sstatus = .ok ∧ t.sfDist.length = t.sfCount.toNat ∧ t.sfCount.toNat ≤ t.cfg.streamMaxPoints)
    (hframeOk : t.sstatus = .ok → t.sfValid = true) (hfault : t.fault = true ↔ t.faultReason ≠ .none) : t.Inv := by
  obtain ⟨-, hf, htx⟩ := h.atRest hb
  have hcfg : t.cfg = s.cfg := by rw [ht]
  rw [hcfg] at hframe
  rw [ht]
  exact
    { cfgOk := h.cfgOk, rx := h.rx, tx := h.tx, txcnt_le := h.txcnt_le, attempts_le := h.attempts_le
      head := h.head, body := h.body, noOutcome := h.noOutcome, valid_iff := h.valid_iff, valid := h.valid
      shown := h.shown
      running := fun hne => absurd hf hne
      resting := .inl htx
      awaiting := fun ha => absurd (htx.symm.trans ha) (by simp)
      busyOp := fun hb => absurd hb (by simp)
      frame := hframe, frameOk := hframeOk, faultReason := hfault }

/-- A contract violation records a reason with the fault (R45, R236). -/
theorem violation_fault_iff {s : State} {r : FaultReason} (hr : r ≠ .none)
    (h : s.fault = true ↔ s.faultReason ≠ .none) :
    (violation r s).fault = true ↔ (violation r s).faultReason ≠ .none := by
  by_cases hf : s.fault = true
  · simp [hf, h.mp hf]
  · simp [hf, hr]

theorem violation_inv {s : State} {r : FaultReason} (h : s.Inv) (hb : s.busy = false) (hr : r ≠ .none) :
    (violation r s).Inv :=
  h.shortOp hb rfl h.frame h.frameOk (violation_fault_iff hr h.faultReason)

/-! ## SDEC reads only bytes of the packet -/

/-- A payload byte of a packet that lies whole in RXBUF (R190). -/
theorem pay_filled {s : State} (h : Mem.filled s.cfg s.rxbuf (s.plen.toNat + 5)) {i : Nat} (hi : i < s.plen.toNat) :
    ∃ b, pay s i = .ok b := by
  obtain ⟨b, hb, -⟩ := bufRead_filled h (i := 3 + i) (by omega)
  exact ⟨b, hb⟩

theorem pay16_filled {s : State} (h : Mem.filled s.cfg s.rxbuf (s.plen.toNat + 5)) {i : Nat}
    (hi : i + 2 ≤ s.plen.toNat) : ∃ v, pay16 s i = .ok v :=
  bufRead2_filled h (i := 3 + i) (by omega)

/-- A field inside the fixed part of a payload that is long enough can be read (R193, R194). -/
theorem field_filled {s : State} (h : Mem.filled s.cfg s.rxbuf (s.plen.toNat + 5)) {f : FieldLoc} {fixed : Nat}
    (hf : f.within fixed = true) (hl : fixed ≤ s.plen.toNat) : ∃ v, field s f = .ok v := by
  have hw : f.off + f.width.bytes ≤ fixed := of_decide_eq_true hf
  unfold field
  cases hwidth : f.width with
  | one =>
    simp only [hwidth, FieldWidth.bytes] at hw
    obtain ⟨b, hb⟩ := pay_filled h (i := f.off) (by omega)
    exact ⟨_, by rw [hb]; rfl⟩
  | two =>
    simp only [hwidth, FieldWidth.bytes] at hw
    exact pay16_filled h (by omega)

theorem sdecFields_filled {s : State} (h : Mem.filled s.cfg s.rxbuf (s.plen.toNat + 5)) (hok : s.cfg.layout.ok = true)
    (hl : s.cfg.layout.fixed ≤ s.plen.toNat) : ∃ t, sdecFields s = .ok t := by
  simp only [Layout.ok, Bool.and_eq_true] at hok
  obtain ⟨⟨⟨⟨⟨⟨⟨⟨-, halarm⟩, hpps⟩, hfwd⟩, hmv⟩, hrev⟩, htotal⟩, hcount⟩, hstart⟩ := hok
  obtain ⟨alarm, ealarm⟩ := field_filled h halarm hl
  obtain ⟨pps, epps⟩ := field_filled h hpps hl
  obtain ⟨fwd, efwd⟩ := field_filled h hfwd hl
  obtain ⟨mv, emv⟩ := field_filled h hmv hl
  obtain ⟨rev, erev⟩ := field_filled h hrev hl
  obtain ⟨total, etotal⟩ := field_filled h htotal hl
  obtain ⟨count, ecount⟩ := field_filled h hcount hl
  obtain ⟨start, estart⟩ := field_filled h hstart hl
  simp only [sdecFields, ealarm, epps, efwd, emv, erev, etotal, ecount, estart, except_ok_bind]
  exact ⟨_, rfl⟩

/-- Samples that lie inside the payload can be read (R196, R197). -/
theorem samples_filled {s : State} (h : Mem.filled s.cfg s.rxbuf (s.plen.toNat + 5)) (i k : Nat)
    (hl : i + 2 * k ≤ s.plen.toNat) : ∃ ds, samples s i k = .ok ds := by
  induction k generalizing i with
  | zero => exact ⟨[], rfl⟩
  | succ k ih =>
    obtain ⟨d, hd⟩ := pay16_filled h (i := i) (by omega)
    obtain ⟨ds, hds⟩ := ih (i + 2) (by omega)
    exact ⟨d :: ds, by simp [samples, hd, hds]⟩

theorem sdecSamples_filled {s : State} (h : Mem.filled s.cfg s.rxbuf (s.plen.toNat + 5)) :
    ∃ t, sdecSamples s = .ok t := by
  unfold sdecSamples
  split
  · exact ⟨_, rfl⟩
  · split
    · exact ⟨_, rfl⟩
    · obtain ⟨ds, hds⟩ := samples_filled h s.cfg.layout.fixed s.sfCount.toNat (by omega)
      exact ⟨_, by rw [hds]; rfl⟩

/-- With FRM in order and a legal layout SDEC never faults (R190 to R198). -/
theorem sdecDecode_total {s : State} (h : FrmInv s) (hok : s.cfg.layout.ok = true) : ∃ t, sdecDecode s = .ok t := by
  unfold sdecDecode
  dsimp only
  split
  · obtain ⟨⟨h1, -⟩, hcnt⟩ := h.valid ‹_›
    have hrx := h.rx
    rw [hcnt] at hrx
    obtain ⟨c, hc⟩ := pay_filled (s := { s with sfValid := false, sstatus := .none }) hrx (i := 0) h1
    rw [hc, except_ok_bind]
    split
    · exact ⟨_, rfl⟩
    · split
      · exact ⟨_, rfl⟩
      · obtain ⟨u, hu⟩ := sdecFields_filled (s := { s with sfValid := false, sstatus := .none }) hrx hok
          (Nat.not_lt.mp ‹_›)
        have hrxu : Mem.filled u.cfg u.rxbuf (u.plen.toNat + 5) := by
          obtain ⟨a, b, c, d, e, f, g, i, rfl⟩ := sdecFields_cases hu
          exact hrx
        rw [hu, except_ok_bind]
        exact sdecSamples_filled hrxu
  · exact ⟨_, rfl⟩

/-- Whatever SDEC ends in keeps the invariant of a free engine (R44, R45, R195). -/
theorem sdecDecode_keeps_inv {s t : State} (h : s.Inv) (hb : s.busy = false)
    (hd : sdecDecode (accept .sdec s) = .ok t) : t.Inv := by
  have ht : shortOpFrame s t := by
    have hf := sdecDecode_frame hd
    have hbusy := sdecDecode_busy hd
    unfold sdecFrame at hf
    unfold shortOpFrame
    rw [hbusy] at hf
    rw [hf]
    rfl
  have hfault : t.fault = true ↔ t.faultReason ≠ .none := by
    rcases sdecDecode_fault hd with ⟨hf, hr⟩ | ⟨u, r, hf, hr, hne, rfl⟩
    · rw [hf, hr]
      exact h.faultReason
    · exact violation_fault_iff hne (by rw [hf, hr]; exact h.faultReason)
  rcases sdecDecode_ends hd with ⟨u, r, hf, -, rfl⟩ | rfl | ⟨u, ds, -, hcap, hlen, rfl⟩
  · refine h.shortOp hb ht ?_ ?_ hfault <;> simp [show u.sfValid = false by rw [hf], show u.sstatus = .none by rw [hf]]
  · exact h.shortOp hb ht (by simp) (by simp) hfault
  · exact h.shortOp hb ht (fun _ => ⟨rfl, hlen, hcap⟩) (fun _ => rfl) hfault

/-! ## An operation in progress goes on -/

/-- What the wait may write keeps the invariant if FRM, the budget and the two state machines are left in order. -/
theorem State.Inv.poll {s t : State} (h : s.Inv) (hp : pollFrame s t) (hfrm : FrmInv t)
    (hattempts : t.attempts ≤ t.cfg.nAttempts)
    (hrunning : t.fstate ≠ .idle → t.busy = true ∧ (t.op = .rdpkt ∨ t.tstate = .await))
    (hresting : t.tstate = .idle ∨ t.tstate = .await)
    (hawaiting : t.tstate = .await → t.requesting ∧ (t.fstate = .idle → t.attempts < t.cfg.nAttempts))
    (hbusyOp : t.busy = true → s.busy = true) : t.Inv where
  cfgOk := by rw [hp]; exact h.cfgOk
  rx := hfrm.rx
  tx := by rw [hp]; exact h.tx
  txcnt_le := by rw [hp]; exact h.txcnt_le
  attempts_le := hattempts
  head := hfrm.head
  body := hfrm.body
  running := hrunning
  noOutcome := hfrm.noOutcome
  valid_iff := hfrm.valid_iff
  valid := hfrm.valid
  resting := hresting
  awaiting := hawaiting
  busyOp := fun hb => by rw [hp]; exact h.busyOp (hbusyOp hb)
  frame := by rw [hp]; exact h.frame
  frameOk := by rw [hp]; exact h.frameOk
  shown := hfrm.shown
  faultReason := by rw [hp]; exact h.faultReason

/-- RDPKT going on stops in a hold or hands over its result (R140, R149). -/
theorem rdpktResume_inv {s : State} (h : s.Inv) (hb : s.busy = true) (ho : s.op = .rdpkt) :
    ∃ t, rdpktResume s = .ok t ∧ t.Inv := by
  obtain ⟨u, hu, hfrm⟩ := frmRun_inv s h.frm (six_le_of_ok h.cfgOk)
  have hf := frmRun_frame hu
  have hidle : s.tstate = .idle := h.resting.resolve_right fun ha => by
    obtain ⟨⟨-, ho' | ho'⟩, -⟩ := h.awaiting ha <;> simp [ho] at ho'
  have ht : u.tstate = .idle := by rw [hf]; exact hidle
  have hbu : u.busy = true := by rw [hf]; exact hb
  have hou : u.op = .rdpkt := by rw [hf]; exact ho
  have hatt : u.attempts ≤ u.cfg.nAttempts := by rw [hf]; exact h.attempts_le
  simp only [rdpktResume, hu, except_ok_bind]
  split
  · have hi : u.fstate = .idle := ‹_›
    have hshown : FrmInv (rdpktDeliver u) :=
      ⟨hfrm.rx, hfrm.head, hfrm.body, hfrm.noOutcome, hfrm.valid_iff, hfrm.valid, by simp⟩
    exact ⟨_, rfl, h.poll (pollFrame_trans (pollFrame_of_frm hf) rfl) hshown hatt (by simp [hi]) (.inl ht)
      (by simp [ht]) (by simp)⟩
  · exact ⟨_, rfl, h.poll (pollFrame_of_frm hf) hfrm hatt (fun _ => ⟨hbu, .inl hou⟩) (.inl ht) (by simp [ht])
      (fun _ => hb)⟩

/-- However a wait stops, the engine is in order (R166 to R175). -/
theorem State.Inv.of_pollPost {s t : State} (h : s.Inv) (hr : s.requesting) (hp : pollFrame s t) (hpost : PollPost s t) :
    t.Inv := by
  have ho : t.op = s.op := by rw [hp]
  rcases hpost.ends with ⟨ha, hb, hleft⟩ | ⟨hi, hb, hf⟩
  · have hrt : t.requesting := by rw [State.requesting, hb, ho]; exact hr
    exact h.poll hp hpost.frm hpost.attempts_le (fun _ => ⟨hrt.1, .inr ha⟩) (.inr ha) (fun _ => ⟨hrt, hleft⟩)
      (fun _ => hr.1)
  · exact h.poll hp hpost.frm hpost.attempts_le (by simp [hf]) (.inl hi) (by simp [hi]) (fun _ => hr.1)

/-- The poll loop between two iterations (R166 to R173). -/
theorem txnLoop_inv {s : State} (h : s.Inv) (ht : s.tstate = .await) (hf : s.fstate = .idle) :
    ∃ t, txnLoop s = .ok t ∧ t.Inv := by
  obtain ⟨hr, hleft⟩ := h.awaiting ht
  have hlt := hleft hf
  obtain ⟨t, he, hpost⟩ := txnPoll_inv (s.cfg.nAttempts - s.attempts) s h.frm (six_le_of_ok h.cfgOk) ht hf
    (by omega) (by omega)
  exact ⟨t, he, h.of_pollPost hr (txnPoll_frame _ s t he) hpost⟩

/-- A request that transmits sends what is left or holds, and begins its wait with the whole budget (R164, R165). -/
theorem txnTransmit_inv {s : State} (h : s.Inv) (hr : s.requesting) (ht : s.tstate = .idle) :
    ∃ t, txnTransmit s = .ok t ∧ t.Inv ∧ t.requesting ∧ t.fstate = .idle := by
  obtain ⟨bs, hbs, hlen⟩ := Mem.filled_eq_ofBytes h.tx
  have hmax : bs.length ≤ s.cfg.maxResponseSize := by rw [hlen]; exact h.tx.2.1
  have hf := h.fstate_of_transmitting hr ht
  obtain ⟨k, quota, hk, he⟩ := txnTransmit_sends s bs hbs hlen.symm h.txcnt_le hmax
  dsimp only at he
  have hsent : State.Inv { s with
      txcnt := s.txcnt + k, txlog := s.txlog ++ (bs.drop s.txcnt).take k, quota := quota } := { h with txcnt_le := hk }
  rw [he]
  split
  · exact ⟨_, rfl, hsent, hr, hf⟩
  · refine ⟨_, rfl, ?_, hr, hf⟩
    exact { hsent with
      attempts_le := Nat.zero_le _
      running := fun hne => absurd hf hne
      resting := .inr rfl
      awaiting := fun _ => ⟨hr, fun _ => one_le_nAttempts_of_ok h.cfgOk⟩ }

/-- A request goes on without a fault from wherever it stands (R33, R175). -/
theorem txnResume_inv {s : State} (h : s.Inv) (hr : s.requesting) : ∃ t, txnResume s = .ok t ∧ t.Inv := by
  rcases h.resting with ht | ht
  · obtain ⟨u, hu, hi, -, hf⟩ := txnTransmit_inv h hr ht
    simp only [txnResume, ht, hu, except_ok_bind]
    split
    · exact txnLoop_inv hi ‹_› hf
    · exact ⟨u, rfl, hi⟩
  · by_cases hf : s.fstate = .idle
    · simpa only [txnResume, ht, hf] using txnLoop_inv h ht hf
    · have hres : txnResume s = txnFinishAttempt txnLoop s := by
        cases hs : s.fstate <;> simp_all [txnResume]
      obtain ⟨t, he, hpost⟩ := txnFinishAttempt_inv (next := txnLoop) s h.frm (six_le_of_ok h.cfgOk) h.attempts_le ht
        (fun u hu huf hidle hne => by
          have ha : u.attempts ≤ u.cfg.nAttempts := by rw [huf]; exact h.attempts_le
          have htu : u.tstate = .await := by rw [huf]; exact ht
          have hmax : 6 ≤ u.cfg.maxResponseSize := by rw [huf]; exact six_le_of_ok h.cfgOk
          exact txnPoll_inv (u.cfg.nAttempts - u.attempts) u hu hmax htu hidle (by omega) (by omega))
      exact ⟨t, hres.trans he, h.of_pollPost hr (txnFinishAttempt_frame txnLoop_frame he) hpost⟩

/-- Whatever is in progress goes on without a fault and keeps the invariant (R36). -/
theorem proceed_inv {s : State} (h : s.Inv) : ∃ t, proceed s = .ok t ∧ t.Inv := by
  cases hb : s.busy with
  | false => exact ⟨s, proceed_of_idle hb, h⟩
  | true =>
    rcases h.busyOp hb with ho | ho
    · rw [proceed_of_rdpkt hb ho]
      exact rdpktResume_inv h hb ho
    · have hr : s.requesting := ⟨hb, ho⟩
      rw [proceed_of_requesting hr]
      exact txnResume_inv h hr

/-! ## Acceptance of RDPKT and of a request -/

theorem rdpktRun_inv {s : State} (h : s.Inv) (hs : s.atRest) : ∃ t, rdpktRun s = .ok t ∧ t.Inv := by
  obtain ⟨-, -, ht⟩ := hs
  have hfrm := frmStart_inv (rdpktAccept s)
  have hi : (frmStart (rdpktAccept s)).Inv :=
    { h with
      rx := hfrm.rx, head := hfrm.head, body := hfrm.body, noOutcome := hfrm.noOutcome
      valid_iff := hfrm.valid_iff, valid := hfrm.valid, shown := hfrm.shown
      running := fun _ => ⟨rfl, .inl rfl⟩
      awaiting := fun ha => absurd (ht.symm.trans ha) (by simp)
      busyOp := fun _ => .inl rfl }
  exact rdpktResume_inv hi rfl rfl

/-- `s` after a request has been accepted, its packet built and signed (42_transactor R161 to R163). -/
def State.signed (s : State) (o : Op) (isWrite : Bool) (cmd : Byte) (data : List Byte) : State :=
  { txnAccept o isWrite cmd s with
    crc := cks (packetHead (hdrEncode s.cfg (plenField (1 + data.length)) isWrite) (cmd :: data))
    txbuf := Mem.ofBytes (requestPacket s.cfg isWrite cmd data), txlen := data.length + 6 }

/-- A request that fits is built and signed without a fault, and then transmits (R161 to R164). -/
theorem txnRequest_eq_transmit {o : Op} {isWrite : Bool} {cmd : Byte} {data : List Byte} {s : State}
    (hd : isWrite = false → data = []) (hm : data.length + 6 ≤ s.cfg.maxResponseSize) :
    txnRequest o isWrite cmd data s = txnTransmit { txnFlush (s.signed o isWrite cmd data) with txcnt := 0 } := by
  have hn : requestLen isWrite data = 1 + data.length := by
    cases isWrite
    · simp [requestLen, hd rfl]
    · rfl
  have hle : ¬ s.cfg.maxResponseSize - 5 < 1 + data.length := by omega
  simp only [txnRequest, hn, if_neg hle]
  rw [txnBuild_ofBytes _ _ _ hd (by simp only [txnAccept_cfg]; omega), except_ok_bind,
    txnSign_ofBytes _ _ _ rfl (by simp; omega) (by simp; omega), except_ok_bind]
  simp only [txnAccept_cfg, txnAccept_iswr, txnAccept_cmd]
  rw [show 1 + data.length + 5 = data.length + 6 by omega]
  rfl

/-- A request that has been signed, its queue flushed or not, is in order to transmit (R164). -/
theorem signed_inv {o : Op} {isWrite : Bool} {cmd : Byte} {data : List Byte} {s : State} (h : s.Inv) (hs : s.atRest)
    (ho : o = .reqr ∨ o = .reqw) (hm : data.length + 6 ≤ s.cfg.maxResponseSize) (rxq : List Byte) (quota : Option Nat) :
    State.Inv { s.signed o isWrite cmd data with rxq := rxq, quota := quota, txcnt := 0 } := by
  obtain ⟨-, hf, ht⟩ := hs
  have hlen : (requestPacket s.cfg isWrite cmd data).length = data.length + 6 := by simp [requestPacket]
  have htx := Mem.filled_ofBytes (c := s.cfg) (bs := requestPacket s.cfg isWrite cmd data) (by omega)
  rw [hlen] at htx
  exact
    { h with
      tx := htx
      txcnt_le := Nat.zero_le _
      running := fun hne => absurd hf hne
      awaiting := fun ha => absurd (ht.symm.trans ha) (by simp)
      busyOp := fun _ => .inr ho }

/-- The sending half of a request, turned away or accepted (R161 to R165). -/
theorem txnRequest_inv {o : Op} {isWrite : Bool} {cmd : Byte} {data : List Byte} {s : State} (h : s.Inv) (hs : s.atRest)
    (ho : o = .reqr ∨ o = .reqw) (hd : isWrite = false → data = []) :
    ∃ t, txnRequest o isWrite cmd data s = .ok t ∧ t.Inv := by
  by_cases hl : s.cfg.maxResponseSize - 5 < requestLen isWrite data
  · obtain ⟨hb, -, -⟩ := hs
    exact ⟨_, txnRequest_tooLong o isWrite cmd data s hl, violation_inv h hb (by simp)⟩
  · have hm : data.length + 6 ≤ s.cfg.maxResponseSize := by
      have h6 := six_le_of_ok h.cfgOk
      cases isWrite
      · simpa [hd rfl] using h6
      · simp only [requestLen, if_true] at hl
        omega
    have ⟨_, _, ht⟩ := hs
    rw [txnRequest_eq_transmit hd hm, txnFlush_eq]
    obtain ⟨t, he, hi, -⟩ :=
      txnTransmit_inv (signed_inv (isWrite := isWrite) (cmd := cmd) h hs ho hm _ _) ⟨rfl, ho⟩ ht
    exact ⟨t, he, hi⟩

theorem txnRun_inv {o : Op} {isWrite : Bool} {cmd : Byte} {data : List Byte} {s : State} (h : s.Inv) (hs : s.atRest)
    (ho : o = .reqr ∨ o = .reqw) (hd : isWrite = false → data = []) :
    ∃ t, txnRun o isWrite cmd data s = .ok t ∧ t.Inv := by
  obtain ⟨u, hu, hi⟩ := txnRequest_inv (cmd := cmd) h hs ho hd
  simpa only [txnRun, hu, except_ok_bind] using proceed_inv hi

/-! ## Every step -/

/-- An outcome that is no fault, and a next state with the invariant. -/
def Sound : Host.Outcome State Fault Refusal → Prop
  | .next t => t.Inv
  | .fault _ => False
  | .refused _ => True

theorem sound_outcome {x : Except Fault State} (h : ∃ t, x = .ok t ∧ t.Inv) : Sound (outcome x) := by
  obtain ⟨t, rfl, hi⟩ := h
  exact hi

theorem sound_whenIdle {s : State} {x : Except Fault State} (h : s.busy = false → ∃ t, x = .ok t ∧ t.Inv) :
    Sound (whenIdle s x) := by
  unfold whenIdle
  split
  · trivial
  · exact sound_outcome (h (Bool.eq_false_iff.mpr ‹_›))

theorem sound_whenAtRest {s : State} {x : Except Fault State} (h : s.atRest → ∃ t, x = .ok t ∧ t.Inv) :
    Sound (whenAtRest s x) := by
  unfold whenAtRest
  split
  · trivial
  · split
    · exact sound_outcome (h ⟨Bool.eq_false_iff.mpr ‹_›, ‹_ ∧ _›⟩)
    · trivial

theorem sound_deliver {s : State} (bs : List Byte) (h : s.Inv) : Sound (deliver bs s) :=
  sound_outcome (proceed_inv (arrive_inv bs h))

/-- From a state with the invariant no instruction faults, and what it leaves has the invariant. -/
theorem exec_sound (i : Instr) {s : State} (h : s.Inv) : Sound (exec i s) := by
  cases i with
  | cks data => exact sound_whenIdle fun hb => ⟨_, rfl, h.shortOp hb rfl h.frame h.frameOk h.faultReason⟩
  | rdpkt => exact sound_whenAtRest (rdpktRun_inv h)
  | reqr cmd => exact sound_whenAtRest fun hs => txnRun_inv h hs (.inl rfl) fun _ => rfl
  | reqw cmd data => exact sound_whenAtRest fun hs => txnRun_inv h hs (.inr rfl) (by simp)
  | sdec =>
    refine sound_whenIdle fun hb => ?_
    have hfrm := h.frm
    obtain ⟨t, ht⟩ := sdecDecode_total (s := accept .sdec s) { hfrm with } (layout_of_ok h.cfgOk)
    exact ⟨t, ht, sdecDecode_keeps_inv h hb ht⟩
  | flush => exact sound_whenIdle fun hb => ⟨_, rfl, h.shortOp hb rfl h.frame h.frameOk h.faultReason⟩
  | opNone => exact sound_outcome (proceed_inv h)
  | opReserved => exact sound_whenIdle fun hb => ⟨_, rfl, violation_inv h hb (by simp)⟩
  | pkt p => exact sound_deliver _ h
  | pktRdreq cmd ck => exact sound_whenAtRest fun hs => txnRequest_inv h hs (.inl rfl) fun _ => rfl
  | pktWrreq plen cmd data ck => exact sound_whenAtRest fun hs => txnRequest_inv h hs (.inr rfl) (by simp)
  | pktResp p => exact sound_deliver _ h
  | pktStream f => exact sound_deliver _ h

/-- Settles O51: a reset gives the reset state, and any other step runs an instruction in a state with the invariant. -/
theorem everyStepKeepsTheInvariant : Obligations.EveryStepKeepsTheInvariant := by
  intro s t h hst
  rcases step_next hst with ⟨rest, -, rfl⟩ | ⟨-, i, s', hf, he⟩
  · exact resetPE_inv (h.environment ..)
  · have hs := exec_sound i (fetch_entered_inv h hf)
    rwa [he] at hs

/-- Settles O52: a step that faults is an instruction that faults, in a state with the invariant. -/
theorem noStepReadsAByteWithoutValue : Obligations.NoStepReadsAByteWithoutValue := by
  intro s f h hst
  obtain ⟨-, i, s', hf, he⟩ := step_fault hst
  have hs := exec_sound i (fetch_entered_inv h hf)
  rwa [he] at hs

/-! ## What the host sees of a free engine -/

theorem FStatus.code_le (x : FStatus) : x.code.toNat ≤ 4 := by cases x <;> decide

theorem TResult.code_le (x : TResult) : x.code.toNat ≤ 2 := by cases x <;> decide

theorem SStatus.code_le (x : SStatus) : x.code.toNat ≤ 2 := by cases x <;> decide

theorem FaultReason.code_ne_zero_iff (x : FaultReason) : x.code ≠ 0 ↔ x ≠ .none := by cases x <;> decide

/-- Settles O57: STATUS can be sampled only of a free engine, and there TXN is at rest. -/
theorem hostSeesTheTransactorIdle : Obligations.HostSeesTheTransactorIdle := by
  intro s st h hst
  unfold State.status at hst
  split at hst
  · cases hst
  · have hb : s.busy = false := Bool.eq_false_iff.mpr ‹_›
    obtain ⟨-, -, ht⟩ := h.atRest hb
    cases hst
    exact ⟨by rw [ht]; rfl, hb, s.fstatus.code_le, s.tresult.code_le, s.sstatus.code_le,
      h.faultReason.trans s.faultReason.code_ne_zero_iff.symm⟩

end Sys2Proof.Machine
end

section
/-! What the host reads after each operation (44_host_ops R212; 10_state R28; 60_exceptions R236; log 26): first how a
request ends (42_transactor R171 to R175), then the views of State, then R212's table row by row. -/

namespace Sys2Proof.Machine

/-! ## How a request ends -/

/-- Of RXBUF the host may read nothing any more in `t`, or what it could read in `s` (R212). -/
def rxUntouched (s t : State) : Prop :=
  t.rxShown = .none ∨ (t.rxbuf = s.rxbuf ∧ t.plen = s.plen ∧ t.rxShown = s.rxShown)

theorem rxUntouched_refl (s : State) : rxUntouched s s := .inr ⟨rfl, rfl, rfl⟩

theorem rxUntouched_trans {s t u : State} (h₁ : rxUntouched s t) (h₂ : rxUntouched t u) : rxUntouched s u := by
  rcases h₂ with h₂ | ⟨hb, hp, hs⟩
  · exact .inl h₂
  · rcases h₁ with h₁ | ⟨hb', hp', hs'⟩
    · exact .inl (hs.trans h₁)
    · exact .inr ⟨hb.trans hb', hp.trans hp', hs.trans hs'⟩

/-- How a request that stands in `s` stops: it goes on later, or its result has been delivered, `Success` with a valid
packet in RXBUF and `Timeout` with what no framing attempt has replaced (R171 to R175). -/
inductive RequestEnd (s : State) : State → Prop
  | holds {t : State} (hf : RequestFrame s t) (hb : t.busy = s.busy) : RequestEnd s t
  | success {u : State} (hf : RequestFrame s u) (hfrm : FrmInv u) (hm : txnMatched u = .ok true) :
      RequestEnd s (txnDeliver (txnSuccess u))
  | timeout {u : State} (hf : RequestFrame s u) (hrx : rxUntouched s u) : RequestEnd s (txnDeliver (txnTimeout u))

/-- A request that has gone on from `s` to `u` ends as it does from `u`. -/
theorem RequestEnd.trans {s u t : State} (hf : RequestFrame s u) (hb : u.busy = s.busy) (hrx : rxUntouched s u)
    (h : RequestEnd u t) : RequestEnd s t := by
  cases h with
  | holds hf' hb' => exact .holds (hf.trans hf') (hb'.trans hb)
  | success hf' hfrm hm => exact .success (hf.trans hf') hfrm hm
  | timeout hf' hrx' => exact .timeout (hf.trans hf') (rxUntouched_trans hrx hrx')

theorem txnBudget_ends {next : State → Except Fault State} {s t : State}
    (hn : ∀ t, next s = .ok t → RequestEnd s t) (h : txnBudget next s = .ok t) : RequestEnd s t := by
  rcases txnBudget_cases h with ⟨-, rfl⟩ | ⟨-, h⟩
  · exact .timeout (.refl s) (rxUntouched_refl s)
  · exact hn t h

/-- An iteration that reads runs a framing attempt of its own, which takes away what the host could read of RXBUF before
(R169 to R172, R212). -/
theorem txnFinishAttempt_ends {next : State → Except Fault State} {s t : State} (hmax : 6 ≤ s.cfg.maxResponseSize)
    (hn : ∀ u, u.cfg = s.cfg → ∀ t, next u = .ok t → RequestEnd u t)
    (h : txnFinishAttempt next (frmStart s) = .ok t) : RequestEnd s t := by
  obtain ⟨u, hu, h⟩ := txnFinishAttempt_cases h
  have hf := frmRun_frame hu
  have hreq : RequestFrame s u := .of_poll (pollFrame_trans (t := frmStart s) rfl (pollFrame_of_frm hf))
  have hb : u.busy = s.busy := by rw [hf]; rfl
  have hfrm : FrmInv u := by
    obtain ⟨u', hu', hfrm⟩ := frmRun_inv (frmStart s) (frmStart_inv s) hmax
    rw [hu] at hu'
    cases hu'
    exact hfrm
  rcases h with ⟨-, rfl⟩ | ⟨-, hm, rfl⟩ | ⟨-, -, h⟩
  · exact .holds hreq hb
  · exact .success hreq hfrm hm
  · have hrx : rxUntouched s u := .inl (by rw [hf]; rfl)
    exact .trans hreq hb hrx (txnBudget_ends (hn u (by rw [hf]; rfl)) h)

/-- The poll loop (R166 to R173). -/
theorem txnPoll_ends {n : Nat} {s t : State} (hmax : 6 ≤ s.cfg.maxResponseSize) (h : txnPoll n s = .ok t) :
    RequestEnd s t := by
  induction n generalizing s t with
  | zero => cases h; exact .holds (.refl s) rfl
  | succ n ih =>
    simp only [txnPoll] at h
    split at h
    · cases h; exact .holds (.refl s) rfl
    · have htick := txnTick_frame s
      have hcfg : (spend (txnTick s)).cfg = s.cfg := by rw [htick]
      have hrx : rxUntouched s (spend (txnTick s)) := .inr (by simp [txnTick, sleep])
      refine .trans (.of_poll htick) (by simp [txnTick, sleep]) hrx ?_
      split at h
      · exact txnFinishAttempt_ends (by rwa [hcfg]) (fun u hu t h => ih (by rw [hu, hcfg]; exact hmax) h) h
      · exact txnBudget_ends (fun t h => ih (by rwa [hcfg]) h) h

/-- The transmit phase leaves FRM and the operation as they are, and TXN still transmits or awaits (R164, R165). -/
theorem txnTransmit_keeps {s t : State} (h : txnTransmit s = .ok t) :
    rxUntouched s t ∧ t.busy = s.busy ∧ t.op = s.op ∧ t.fstate = s.fstate
      ∧ (t.tstate = s.tstate ∨ t.tstate = .await) := by
  obtain ⟨cnt, sent, quota, rfl | rfl⟩ := txnTransmit_cases h
  · exact ⟨rxUntouched_refl s, rfl, rfl, rfl, .inl rfl⟩
  · exact ⟨rxUntouched_refl s, rfl, rfl, rfl, .inr rfl⟩

/-- A request that transmits or stands between two iterations (R33, R164 to R173). -/
theorem txnResume_ends {s t : State} (hmax : 6 ≤ s.cfg.maxResponseSize) (hf : s.fstate = .idle)
    (ht : s.tstate = .idle ∨ s.tstate = .await) (h : txnResume s = .ok t) : RequestEnd s t := by
  rcases txnResume_cases h with ⟨-, u, hu, h⟩ | ⟨-, -, h⟩ | ⟨hf', -, -⟩ | ⟨hi, ha, -⟩
  · have hreq := txnTransmit_frame hu
    obtain ⟨hrx, hb, -, -, -⟩ := txnTransmit_keeps hu
    rcases h with rfl | ⟨-, h⟩
    · exact .holds hreq hb
    · exact .trans hreq hb hrx (txnPoll_ends (by rw [hreq.writes]; exact hmax) h)
  · exact txnPoll_ends hmax h
  · exact absurd hf hf'
  · exact absurd ht (by simp [hi, ha])

/-- A whole request that fits, from its acceptance on (R160 to R173). -/
theorem txnRun_ends {o : Op} {isWrite : Bool} {cmd : Byte} {data : List Byte} {s t : State} (hs : s.atRest)
    (ho : o = .reqr ∨ o = .reqw) (hmax : 6 ≤ s.cfg.maxResponseSize)
    (hfits : requestLen isWrite data ≤ s.cfg.maxResponseSize - 5) (h : txnRun o isWrite cmd data s = .ok t) :
    RequestEnd (txnAccept o isWrite cmd s) t := by
  obtain ⟨-, hf, ht⟩ := hs
  obtain ⟨u, hu, h⟩ := bind_ok h
  rcases txnRequest_cases hu with ⟨hl, -⟩ | ⟨crc, m, len, q, quota, hu⟩
  · omega
  · have hreq := (RequestFrame.built (txnAccept o isWrite cmd s) crc m len q quota).trans (txnTransmit_frame hu)
    obtain ⟨hrx, hb, hop, hfu, htu⟩ := txnTransmit_keeps hu
    rw [proceed_of_requesting ⟨hb, by rw [hop]; exact ho⟩] at h
    exact .trans hreq hb hrx
      (txnResume_ends (by rw [hreq.writes]; exact hmax) (hfu.trans hf) (htu.imp_left fun e => e.trans ht) h)

/-- REQR from its acceptance on; a read request always fits (R8, R161). -/
theorem execReqr_ends {cmd : Byte} {s t : State} (hok : s.cfg.ok = true) (h : exec (.reqr cmd) s = .next t) :
    s.busy = false ∧ RequestEnd (txnAccept .reqr false cmd s) t := by
  obtain ⟨hs, h⟩ := execReqr_next h
  have h6 := six_le_of_ok hok
  refine ⟨hs.1, txnRun_ends hs (.inl rfl) h6 ?_ h⟩
  show 1 ≤ s.cfg.maxResponseSize - 5
  omega

theorem execReqw_ends {cmd : Byte} {data : List Byte} {s t : State} (hok : s.cfg.ok = true)
    (hfits : data.length + 6 ≤ s.cfg.maxResponseSize) (h : exec (.reqw cmd data) s = .next t) :
    s.busy = false ∧ RequestEnd (txnAccept .reqw true cmd s) t := by
  obtain ⟨hs, h⟩ := execReqw_next h
  refine ⟨hs.1, txnRun_ends hs (.inr rfl) (six_le_of_ok hok) ?_ h⟩
  show 1 + data.length ≤ s.cfg.maxResponseSize - 5
  omega

/-! ## The views of State -/

theorem hostCrc_congr {s t : State} (hb : t.busy = s.busy) (hc : t.crc = s.crc) (hs : t.crcShown = s.crcShown) :
    t.hostCrc = s.hostCrc := by
  simp [State.hostCrc, hb, hc, hs]

theorem hostCrc_of_not_shown {s : State} (h : s.crcShown = false) : s.hostCrc = none := by
  simp [State.hostCrc, h]

theorem rxViews_congr {s t : State} (hb : t.busy = s.busy) (hcfg : t.cfg = s.cfg) (hrx : t.rxbuf = s.rxbuf)
    (hp : t.plen = s.plen) (hs : t.rxShown = s.rxShown) :
    t.hostPacket = s.hostPacket ∧ t.hostPayload = s.hostPayload := by
  simp [State.hostPacket, State.hostPayload, State.rxBytes, hb, hcfg, hrx, hp, hs]

theorem hostPacket_of_not_shown {s : State} (h : s.rxShown ≠ .packet) : s.hostPacket = none := by
  simp [State.hostPacket, h]

theorem rxViews_of_not_shown {s : State} (h : s.rxShown = .none) : s.hostPacket = none ∧ s.hostPayload = none := by
  simp [State.hostPacket, State.hostPayload, h]

/-- The packet and the payload of a RXBUF that holds them whole (R151, R212). -/
theorem rxBytes_filled {s : State} (h : Mem.filled s.cfg s.rxbuf (s.plen.toNat + 5)) :
    ∃ bs, s.rxbuf = Mem.ofBytes bs ∧ bs.length = s.plen.toNat + 5 ∧ s.rxBytes 0 (s.plen.toNat + 5) = some bs
      ∧ s.rxBytes 3 s.plen.toNat = some ((bs.drop 3).take s.plen.toNat) := by
  obtain ⟨bs, hbs, hlen⟩ := Mem.filled_eq_ofBytes h
  have hmax := h.2.1
  have hpkt := bufSlice_ofBytes (c := s.cfg) bs 0 (s.plen.toNat + 5) (by omega) (by omega)
  have hpay := bufSlice_ofBytes (c := s.cfg) bs 3 s.plen.toNat (by omega) (by omega)
  rw [List.drop_zero, List.take_of_length_le (by omega)] at hpkt
  exact ⟨bs, hbs, hlen, by rw [State.rxBytes, hbs, hpkt], by rw [State.rxBytes, hbs, hpay]⟩

theorem FrmInv.rx_of_valid {s : State} (h : FrmInv s) (hv : s.pktValid = true) :
    Mem.filled s.cfg s.rxbuf (s.plen.toNat + 5) := by
  rw [← (h.valid hv).2]
  exact h.rx

/-! ### RESULT, one lemma per row of R28 -/

section Result

variable {s : State} (hb : s.busy = false) (hh : s.handed = true)
include hb hh

theorem result_cks (ho : s.op = .cks) : s.result = some (.crc s.crc) := by
  simp [State.result, hb, hh, ho]

theorem result_flush (ho : s.op = .flush) : s.result = some .nothing := by
  simp [State.result, hb, hh, ho]

theorem result_packet (ho : s.op = .rdpkt) {bs : List Byte} (hp : s.hostPacket = some bs) :
    s.result = some (.packet s.fstatus s.plen s.rw bs) := by
  simp [State.result, hb, hh, ho, hp]

theorem result_frameError (ho : s.op = .rdpkt) (hp : s.hostPacket = none) :
    s.result = some (.frameError s.fstatus) := by
  simp [State.result, hb, hh, ho, hp]

theorem result_response (ho : s.op = .reqr) (hr : s.tresult = .success) {bs : List Byte}
    (hp : s.hostPayload = some bs) : s.result = some (.response s.plen bs) := by
  simp [State.result, hb, hh, ho, hr, hp]

theorem result_timeout (ho : s.op = .reqr ∨ s.op = .reqw) (hr : s.tresult = .timeout) :
    s.result = some (.transaction .timeout) := by
  rcases ho with ho | ho <;> simp [State.result, hb, hh, ho, hr]

theorem result_reqw (ho : s.op = .reqw) : s.result = some (.transaction s.tresult) := by
  simp [State.result, hb, hh, ho]

theorem result_frame (ho : s.op = .sdec) {f : StreamFrame} (hf : s.frame = some f) :
    s.result = some (.frame f) := by
  simp [State.result, hb, hh, ho, hf]

theorem result_streamError (ho : s.op = .sdec) (hf : s.frame = none) :
    s.result = some (.streamError s.sstatus) := by
  simp [State.result, hb, hh, ho, hf]

end Result

/-- A contract violation hands no result over (R236). -/
theorem result_violation (r : FaultReason) (s : State) : (violation r s).result = some .nothing := by
  simp [State.result]

/-! ## CKS, FLUSH and SDEC -/

theorem cks_hands_checksum (s : State) (data : List Byte) (hb : s.busy = false) :
    ∃ t, exec (.cks data) s = .next t ∧ t.hostCrc = some (cks data) ∧ t.result = some (.crc (cks data)) :=
  ⟨finish (cksUpdate data (accept .cks s)), whenIdle_of hb, rfl, result_cks rfl rfl rfl⟩

theorem flush_hands_nothing {s t : State} (h : exec .flush s = .next t) : t.result = some .nothing := by
  obtain ⟨-, rfl⟩ := execFlush_next h
  exact result_flush rfl rfl rfl

/-- What FLUSH and SDEC leave as it was: CRC, RXBUF and what the host may read of them (R212). -/
theorem flush_sdec_keep {s t : State} (h : exec .flush s = .next t ∨ exec .sdec s = .next t) :
    t.busy = s.busy ∧ t.cfg = s.cfg ∧ t.crc = s.crc ∧ t.crcShown = s.crcShown ∧ t.rxbuf = s.rxbuf ∧ t.plen = s.plen
      ∧ t.rxShown = s.rxShown := by
  rcases h with h | h
  · obtain ⟨hb, rfl⟩ := execFlush_next h
    exact ⟨hb.symm, rfl, rfl, rfl, rfl, rfl, rfl⟩
  · obtain ⟨hb, h⟩ := execSdec_next h
    refine ⟨(sdecDecode_busy h).trans hb.symm, ?_⟩
    rw [sdecDecode_frame h]
    exact ⟨rfl, rfl, rfl, rfl, rfl, rfl⟩

theorem flush_sdec_keep_hostCrc {s t : State} (h : exec .flush s = .next t ∨ exec .sdec s = .next t) :
    t.hostCrc = s.hostCrc := by
  obtain ⟨hb, -, hc, hs, -⟩ := flush_sdec_keep h
  exact hostCrc_congr hb hc hs

theorem short_ops_keep_rxViews {s t : State} {data : List Byte}
    (h : exec (.cks data) s = .next t ∨ exec .flush s = .next t ∨ exec .sdec s = .next t) :
    t.hostPacket = s.hostPacket ∧ t.hostPayload = s.hostPayload := by
  rcases h with h | h
  · obtain ⟨hb, rfl⟩ := execCks_next h
    exact rxViews_congr hb.symm rfl rfl rfl rfl
  · obtain ⟨hb, hcfg, -, -, hrx, hp, hs⟩ := flush_sdec_keep h
    exact rxViews_congr hb hcfg hrx hp hs

/-- SDEC that ended `S_OK` hands over the frame, with as many samples as it counts (R198, R212). -/
theorem sdec_hands_frame {s t : State} (h : exec .sdec s = .next t) (hok : t.sstatus = .ok) :
    ∃ f, t.frame = some f ∧ f.count = f.dist.length ∧ t.result = some (.frame f) := by
  obtain ⟨-, h⟩ := execSdec_next h
  rcases sdecDecode_ends h with ⟨u, r, hf, -, rfl⟩ | rfl | ⟨u, ds, hf, -, hlen, rfl⟩
  · rw [violation_sstatus, hf] at hok
    cases hok
  · cases hok
  · refine ⟨_, rfl, by simp [hlen], result_frame rfl rfl ?_ rfl⟩
    show u.op = .sdec
    rw [hf]
    rfl

theorem sdec_hands_notStreamData {s t : State} (h : exec .sdec s = .next t) (hns : t.sstatus = .notStreamData) :
    t.frame = none ∧ t.result = some (.streamError .notStreamData) := by
  obtain ⟨-, h⟩ := execSdec_next h
  rcases sdecDecode_ends h with ⟨u, r, hf, -, rfl⟩ | rfl | ⟨u, ds, hf, -, -, rfl⟩
  · rw [violation_sstatus, hf] at hns
    cases hns
  · exact ⟨rfl, result_streamError rfl rfl rfl rfl⟩
  · cases hns

/-! ## RDPKT -/

/-- An RDPKT that has ended: FRM is in order, and the host reads the packet if it is valid (R140, R151, R152). -/
theorem rdpkt_ended {s t : State} (hok : s.cfg.ok = true) (h : exec .rdpkt s = .next t) (hb : t.busy = false) :
    FrmInv t ∧ t.handed = true ∧ t.op = .rdpkt ∧ t.rxShown = if t.pktValid then .packet else .none := by
  obtain ⟨-, h⟩ := execRdpkt_next h
  obtain ⟨u, hu, hfrm⟩ := frmRun_inv (frmStart (rdpktAccept s)) (frmStart_inv _) (six_le_of_ok hok)
  have hf := frmRun_frame hu
  obtain ⟨u', hu', ⟨-, rfl⟩ | ⟨-, rfl⟩⟩ := rdpktResume_cases h
  · rw [hu] at hu'
    cases hu'
    exact ⟨⟨hfrm.rx, hfrm.head, hfrm.body, hfrm.noOutcome, hfrm.valid_iff, hfrm.valid, by simp⟩, rfl,
      show u.op = .rdpkt by rw [hf]; rfl, rfl⟩
  · rw [frmRun_frame hu'] at hb
    cases hb

theorem rdpkt_hands_packet {s t : State} (hok : s.cfg.ok = true) (h : exec .rdpkt s = .next t) (hb : t.busy = false)
    (hst : t.fstatus = .ok) :
    ∃ bs, t.hostPacket = some bs ∧ bs.length = t.plen.toNat + 5
      ∧ t.hostPayload = some ((bs.drop 3).take t.plen.toNat) ∧ t.result = some (.packet .ok t.plen t.rw bs) := by
  obtain ⟨hfrm, hh, ho, hs⟩ := rdpkt_ended hok h hb
  have hv := hfrm.valid_iff.mpr hst
  rw [hv, if_pos rfl] at hs
  obtain ⟨bs, -, hlen, hpkt, hpay⟩ := rxBytes_filled (hfrm.rx_of_valid hv)
  have hp : t.hostPacket = some bs := by simp [State.hostPacket, hb, hs, hpkt]
  refine ⟨bs, hp, hlen, by simp [State.hostPayload, hb, hs, hpay], ?_⟩
  rw [← hst]
  exact result_packet hb hh ho hp

theorem rdpkt_hands_error {s t : State} (hok : s.cfg.ok = true) (h : exec .rdpkt s = .next t) (hb : t.busy = false)
    (hst : t.fstatus ≠ .ok) :
    t.hostPacket = none ∧ t.hostPayload = none ∧ t.result = some (.frameError t.fstatus) := by
  obtain ⟨hfrm, hh, ho, hs⟩ := rdpkt_ended hok h hb
  rw [if_neg (fun hv => hst (hfrm.valid_iff.mp hv))] at hs
  obtain ⟨hp, hpl⟩ := rxViews_of_not_shown hs
  exact ⟨hp, hpl, result_frameError hb hh ho hp⟩

/-! ## REQR and REQW -/

/-- An operation that may write CRC takes an earlier checksum away (R212). -/
theorem hostCrc_taken_away {s t : State} {cmd : Byte} {data : List Byte} (hok : s.cfg.ok = true)
    (hfits : data.length + 6 ≤ s.cfg.maxResponseSize)
    (h : exec .rdpkt s = .next t ∨ exec (.reqr cmd) s = .next t ∨ exec (.reqw cmd data) s = .next t) :
    t.hostCrc = none := by
  have hend {o : Op} {isWrite : Bool} (h : RequestEnd (txnAccept o isWrite cmd s) t) : t.crcShown = false := by
    cases h with
    | holds hf _ => rw [hf.writes]; rfl
    | success hf _ _ => rw [hf.writes]; rfl
    | timeout hf _ => rw [hf.writes]; rfl
  apply hostCrc_of_not_shown
  rcases h with h | h | h
  · rw [rdpktRun_frame (execRdpkt_next h).2]
    rfl
  · exact hend (execReqr_ends hok h).2
  · exact hend (execReqw_ends hok hfits h).2

/-- A request whose host reads `Success` ended in the delivery of a match (R171, R173). -/
theorem RequestEnd.of_success {s t : State} (h : RequestEnd s t) (hs : s.busy = true) (hb : t.busy = false)
    (hr : t.tresult = .success) :
    ∃ u, RequestFrame s u ∧ FrmInv u ∧ txnMatched u = .ok true ∧ t = txnDeliver (txnSuccess u) := by
  cases h with
  | holds _ hb' => exact absurd (hb'.symm.trans hb) (by simp [hs])
  | success hf hfrm hm => exact ⟨_, hf, hfrm, hm, rfl⟩
  | timeout _ _ => cases hr

theorem RequestEnd.of_timeout {s t : State} (h : RequestEnd s t) (hs : s.busy = true) (hb : t.busy = false)
    (hr : t.tresult = .timeout) : ∃ u, RequestFrame s u ∧ rxUntouched s u ∧ t = txnDeliver (txnTimeout u) := by
  cases h with
  | holds _ hb' => exact absurd (hb'.symm.trans hb) (by simp [hs])
  | success _ _ _ => cases hr
  | timeout hf hrx => exact ⟨_, hf, hrx, rfl⟩

/-- A match leaves a payload in RXBUF that begins with the command (R170). -/
theorem rxBytes_of_matched {s : State} (hfrm : FrmInv s) (hm : txnMatched s = .ok true) :
    ∃ data, s.rxBytes 3 s.plen.toNat = some (s.cmd :: data) := by
  obtain ⟨hst, hcmd⟩ := txnMatched_true hm
  have hv := hfrm.valid_iff.mpr hst
  obtain ⟨⟨h1, -⟩, -⟩ := hfrm.valid hv
  obtain ⟨bs, hbs, hlen, -, hpay⟩ := rxBytes_filled (hfrm.rx_of_valid hv)
  rw [hbs, Mem.read_ofBytes] at hcmd
  obtain ⟨h3, hget⟩ := List.getElem?_eq_some_iff.mp hcmd
  obtain ⟨n, hn⟩ : ∃ n, s.plen.toNat = n + 1 := ⟨s.plen.toNat - 1, by omega⟩
  rw [hpay, List.drop_eq_getElem_cons h3, hget, hn, List.take_succ_cons]
  exact ⟨_, rfl⟩

theorem reqr_hands_payload {s t : State} {cmd : Byte} (hok : s.cfg.ok = true) (h : exec (.reqr cmd) s = .next t)
    (hb : t.busy = false) (hr : t.tresult = .success) :
    t.hostPacket = none
      ∧ ∃ data, t.hostPayload = some (cmd :: data) ∧ t.result = some (.response t.plen (cmd :: data)) := by
  obtain ⟨-, hend⟩ := execReqr_ends hok h
  obtain ⟨u, hf, hfrm, hm, rfl⟩ := hend.of_success rfl hb hr
  have hcmd : u.cmd = cmd := by rw [hf.writes]; rfl
  have hop : u.op = .reqr := by rw [hf.writes]; rfl
  have hshown : (txnDeliver (txnSuccess u)).rxShown = .payload := by
    have hw : u.iswr = false := by rw [hf.writes]; rfl
    simp [hw]
  obtain ⟨data, hdata⟩ := rxBytes_of_matched hfrm hm
  rw [hcmd] at hdata
  have hpay : (txnDeliver (txnSuccess u)).hostPayload = some (cmd :: data) := by
    rw [State.hostPayload, hb, hshown]
    exact hdata
  exact ⟨hostPacket_of_not_shown (by rw [hshown]; simp), data, hpay,
    result_response hb rfl hop hr hpay⟩

theorem reqw_hands_success {s t : State} {cmd : Byte} {data : List Byte} (hok : s.cfg.ok = true)
    (hfits : data.length + 6 ≤ s.cfg.maxResponseSize) (h : exec (.reqw cmd data) s = .next t) (hb : t.busy = false)
    (hr : t.tresult = .success) :
    t.hostPacket = none ∧ t.hostPayload = none ∧ t.result = some (.transaction .success) := by
  obtain ⟨-, hend⟩ := execReqw_ends hok hfits h
  obtain ⟨u, hf, -, -, rfl⟩ := hend.of_success rfl hb hr
  have hop : u.op = .reqw := by rw [hf.writes]; rfl
  have hw : u.iswr = true := by rw [hf.writes]; rfl
  obtain ⟨hp, hpl⟩ := rxViews_of_not_shown (s := txnDeliver (txnSuccess u)) (by simp [hw])
  exact ⟨hp, hpl, result_reqw hb rfl hop⟩

/-- After `Timeout` the host reads TRESULT, and of an earlier packet what no framing attempt has replaced (R172, R212). -/
theorem RequestEnd.hands_timeout {o : Op} {isWrite : Bool} {cmd : Byte} {s t : State}
    (h : RequestEnd (txnAccept o isWrite cmd s) t) (ho : o = .reqr ∨ o = .reqw) (hs : s.busy = false)
    (hb : t.busy = false) (hr : t.tresult = .timeout) :
    t.result = some (.transaction .timeout)
      ∧ (t.hostPacket = none ∧ t.hostPayload = none ∨ t.hostPacket = s.hostPacket ∧ t.hostPayload = s.hostPayload) := by
  obtain ⟨u, hf, hrx, rfl⟩ := h.of_timeout rfl hb hr
  have hop : u.op = o := by rw [hf.writes]; rfl
  have hcfg : u.cfg = s.cfg := by rw [hf.writes]; rfl
  refine ⟨result_timeout hb rfl (by simpa [hop] using ho) hr, ?_⟩
  rcases hrx with hrx | ⟨hbuf, hp, hshown⟩
  · exact .inl (rxViews_of_not_shown hrx)
  · exact .inr (rxViews_congr (hb.trans hs.symm) hcfg hbuf hp hshown)

/-! ## Contract violations -/

/-- An instruction that records a new fault is a contract violation and hands no result over (R236). -/
theorem new_fault_hands_nothing {i : Instr} {s t : State} (h : exec i s = .next t) (hs : s.fault = false)
    (ht : t.fault = true) : t.result = some .nothing := by
  rcases exec_cases h with ⟨-, -, h⟩ | h | ⟨r, -, rfl⟩
  · rcases sdecDecode_fault h with ⟨hf, -⟩ | ⟨u, r, -, -, -, rfl⟩
    · exact absurd (hf.symm.trans ht) (by simp [hs])
    · exact result_violation r u
  · have hf : t.fault = s.fault := by rw [h.writes]
    exact absurd (hf.symm.trans ht) (by simp [hs])
  · exact result_violation r s

/-- Settles O49: R212's table row by row, from how each operation ends. -/
theorem hostReadsWhatWasHandedOver : Obligations.HostReadsWhatWasHandedOver := by
  refine ⟨cks_hands_checksum, fun _ _ => flush_sdec_keep_hostCrc, fun _ _ _ _ => hostCrc_taken_away,
    fun _ _ => rdpkt_hands_packet, fun _ _ => rdpkt_hands_error, fun _ _ _ => short_ops_keep_rxViews,
    fun _ _ _ => reqr_hands_payload, fun _ _ _ _ => reqw_hands_success, ?_, fun _ _ => sdec_hands_frame,
    fun _ _ => sdec_hands_notStreamData, fun _ _ => flush_hands_nothing, fun _ _ _ => new_fault_hands_nothing⟩
  intro s t cmd data hok hfits h hb hr
  rcases h with h | h
  · obtain ⟨hs, hend⟩ := execReqr_ends hok h
    exact hend.hands_timeout (.inl rfl) hs hb hr
  · obtain ⟨hs, hend⟩ := execReqw_ends hok hfits h
    exact hend.hands_timeout (.inr rfl) hs hb hr

end Sys2Proof.Machine
end

section
/-! Where a step's instruction comes from (44_host_ops R211, 70_reset_and_hazards R270, 20_memory R66), and a packet that
arrives while nothing waits for it (20_memory R66, 60_exceptions R240). -/

namespace Sys2Proof.Machine

/-! ## A step that is not a reset -/

theorem step_of_running {s : State} (h : s.running) : step s = runStep s.entered := by
  rcases step_eq s with ⟨rest, hs, -⟩ | ⟨-, he⟩
  · exact absurd (by rw [hs]; rfl) h
  · exact he

/-- A step that fetches an instruction runs it. -/
theorem step_of_fetch {s s' : State} {i : Instr} (hr : s.running) (h : fetch s.entered = .ok (i, s')) :
    step s = exec i s' := by
  simp only [step_of_running hr, runStep, h]

/-! ## Taking up a step leaves alone what the fetch looks at -/

@[simp] theorem entered_busy (s : State) : s.entered.busy = s.busy := by rw [entered_frame s]

@[simp] theorem entered_port (s : State) : s.entered.port = s.port := by rw [entered_frame s]

@[simp] theorem entered_devq (s : State) : s.entered.devq = s.devq := by rw [entered_frame s]

@[simp] theorem rxSide_entered (s : State) : rxSide s.entered = rxSide s := by rw [entered_frame s]; rfl

/-! ## The three sources of an instruction -/

theorem fetch_of_port {s : State} {w : List Byte} {ws : List (List Byte)} {i : Instr} (hb : s.busy = false)
    (hp : s.port = w :: ws) (hd : decodePort w = .ok i) :
    fetch s = .ok (i, deviceTurn { s with port := ws }) := by
  simp [fetch, fetchPort, hb, hp, hd]

theorem fetch_of_no_operation {s : State} (h : s.busy = true ∨ s.port = []) : fetch s = .ok (fetchWire s) := by
  rcases h with h | h <;> simp [fetch, h]

theorem fetchWire_packet {s : State} {bs : List Byte} {rest : List (List Byte)} {i : Instr} (hq : s.devq = bs :: rest)
    (hd : decode (rxSide s) bs = .ok i) : fetchWire s = (i, { s with devq := rest }) := by
  simp [fetchWire, hq, hd]

theorem fetchWire_noPacket {s : State} {bs : List Byte} {rest : List (List Byte)} {e : DecodeError}
    (hq : s.devq = bs :: rest) (hd : decode (rxSide s) bs = .error e) :
    fetchWire s = (.opNone, arrive bs { s with devq := rest }) := by
  simp [fetchWire, hq, hd]

theorem fetchWire_silent {s : State} (hq : s.devq = []) : fetchWire s = (.opNone, s) := by
  simp [fetchWire, hq]

/-- Settles O58: the host has a move, and the fetch takes the operation at the head of the port. -/
theorem stepRunsThePresentedOperation : Obligations.StepRunsThePresentedOperation := by
  intro s w ws i hr hb hp hd
  exact step_of_fetch hr (fetch_of_port (by simpa using hb) (by simpa using hp) hd)

/-- Settles O59: the host has no move or presents nothing, and the fetch looks at the device's next bytes. -/
theorem stepRunsTheArrivingPacket : Obligations.StepRunsTheArrivingPacket := by
  intro s hr hno
  have hfetch : fetch s.entered = .ok (fetchWire s.entered) := fetch_of_no_operation (by simpa using hno)
  refine ⟨fun bs rest i hq hd => ?_, fun bs rest e hq hd => ?_, fun hq => ?_⟩
  · rw [fetchWire_packet (by simpa using hq) (by simpa using hd)] at hfetch
    exact step_of_fetch hr hfetch
  · rw [fetchWire_noPacket (by simpa using hq) (by simpa using hd)] at hfetch
    exact step_of_fetch hr hfetch
  · rw [fetchWire_silent (by simpa using hq)] at hfetch
    exact step_of_fetch hr hfetch

/-! ## A packet that arrives while no operation is in progress -/

/-- With nothing in progress the bytes only join RXQ (R66, R240). -/
theorem deliver_of_idle {s : State} (bs : List Byte) (h : s.busy = false) :
    deliver bs s = .next { s with rxq := s.rxq ++ bs } := by
  rw [deliver, proceed_of_idle (by simpa using h)]
  rfl

/-- Settles O30: the three arrival rows are one delivery. -/
theorem arrivedPacketWaitsForAnOperation : Obligations.ArrivedPacketWaitsForAnOperation := by
  intro s p f hb
  exact ⟨deliver_of_idle _ hb, deliver_of_idle _ hb, deliver_of_idle _ hb⟩

end Sys2Proof.Machine
end

section
/-! A step that stops goes on later where it stopped: for want of a byte (20_memory R63, 41_framer R149, 42_transactor
R175), or because its limit is used up (20_memory R77; log 4). -/

namespace Sys2Proof.Machine

/-! ## What may change while the engine stands -/

/-- `s` after the bytes `bs` have arrived; with `lift` the step that goes on has no limit, else what was left of it, and
this is `arrive bs s`. -/
def State.refreshed (bs : List Byte) (lift : Bool) (s : State) : State :=
  { s with rxq := s.rxq ++ bs, quota := if lift then none else s.quota }

@[simp] theorem refreshed_plen (bs : List Byte) (lift : Bool) (s : State) : (s.refreshed bs lift).plen = s.plen := rfl

@[simp] theorem refreshed_rxcnt (bs : List Byte) (lift : Bool) (s : State) : (s.refreshed bs lift).rxcnt = s.rxcnt := rfl

@[simp] theorem refreshed_fstate (bs : List Byte) (lift : Bool) (s : State) :
    (s.refreshed bs lift).fstate = s.fstate := rfl

/-- `s` taken up by a step without a limit (log 4). -/
abbrev State.withoutLimit (s : State) : State := { s with quota := none }

theorem refreshed_lift (s : State) : s.refreshed [] true = s.withoutLimit := by simp [State.refreshed]

theorem spent_refreshed {bs : List Byte} {lift : Bool} {s : State} (h : ¬ s.spent = true) :
    ¬ (s.refreshed bs lift).spent = true := by
  cases lift
  · exact h
  · exact Bool.false_ne_true

/-! ## A framing attempt -/

/-- The header tests end the attempt, or the length is legal and the body phase begins (R143 to R145). -/
theorem frmHeader_cases {s t : State} (h : frmHeader s = .ok t) :
    t = frmEnd .badStartByte s
    ∨ ∃ hdr, t = frmEnd .invalidLength { s with rw := hdrRw hdr, plen := hdrPlen hdr }
      ∨ t = { s with rw := hdrRw hdr, plen := hdrPlen hdr, fstate := .body } := by
  obtain ⟨b, -, h⟩ := bind_ok h
  split at h
  · cases h; exact .inl rfl
  · obtain ⟨hdr, -, h⟩ := bind_ok h
    dsimp only at h
    split at h <;> cases h
    · exact .inr ⟨hdr, .inl rfl⟩
    · exact .inr ⟨hdr, .inr rfl⟩

/-- The checksum test ends the attempt (R147). -/
theorem frmCheck_cases {s t : State} (h : frmCheck s = .ok t) :
    ∃ crc, t = frmEnd .checksumMismatch { s with crc := crc }
      ∨ t = { frmEnd .ok { s with crc := crc } with pktValid := true } := by
  obtain ⟨bs, -, h⟩ := bind_ok h
  obtain ⟨v, -, h⟩ := bind_ok h
  dsimp only at h
  split at h <;> cases h
  · exact ⟨cks bs, .inl rfl⟩
  · exact ⟨cks bs, .inr rfl⟩

theorem frmCheck_idle {s t : State} (h : frmCheck s = .ok t) : t.fstate = .idle := by
  obtain ⟨crc, rfl | rfl⟩ := frmCheck_cases h <;> rfl

/-- Neither test looks at RXQ or at the limit. -/
theorem frmHeader_refreshed (bs : List Byte) (lift : Bool) {s t : State} (h : frmHeader s = .ok t) :
    frmHeader (s.refreshed bs lift) = .ok (t.refreshed bs lift) := by
  obtain ⟨b, hb, h⟩ := bind_ok h
  have hb' : bufRead (s.refreshed bs lift).cfg (s.refreshed bs lift).rxbuf 0 = .ok b := hb
  simp only [frmHeader, hb', except_ok_bind]
  split at h
  · cases h; rw [if_pos ‹_›]; rfl
  · obtain ⟨hdr, hh, h⟩ := bind_ok h
    have hh' : bufRead2 (s.refreshed bs lift).cfg (s.refreshed bs lift).rxbuf 1 = .ok hdr := hh
    rw [if_neg ‹_›, hh', except_ok_bind]
    dsimp only at h
    split at h <;> cases h
    · exact if_pos ‹_›
    · exact if_neg ‹_›

theorem frmCheck_refreshed (bs : List Byte) (lift : Bool) {s t : State} (h : frmCheck s = .ok t) :
    frmCheck (s.refreshed bs lift) = .ok (t.refreshed bs lift) := by
  obtain ⟨sl, hs, h⟩ := bind_ok h
  obtain ⟨v, hv, h⟩ := bind_ok h
  have hs' : bufSlice (s.refreshed bs lift).cfg (s.refreshed bs lift).rxbuf 0
      (3 + (s.refreshed bs lift).plen.toNat) = .ok sl := hs
  have hv' : bufRead2 (s.refreshed bs lift).cfg (s.refreshed bs lift).rxbuf
      (3 + (s.refreshed bs lift).plen.toNat) = .ok v := hv
  simp only [frmCheck, hs', hv', except_ok_bind]
  dsimp only at h
  split at h <;> cases h
  · exact if_pos ‹_›
  · exact if_neg ‹_›

/-- `s` after a byte step that left `q` of RXQ and `m` in RXBUF (R142, R146): what `frmRead_succ_cases` goes on from. -/
def State.stored (q : List Byte) (m : Mem) (s : State) : State :=
  { spend { s with rxq := q } with rxbuf := m, rxcnt := s.rxcnt + 1 }

@[simp] theorem stored_plen (q : List Byte) (m : Mem) (s : State) : (s.stored q m).plen = s.plen := rfl

@[simp] theorem stored_fstate (q : List Byte) (m : Mem) (s : State) : (s.stored q m).fstate = s.fstate := rfl

@[simp] theorem stored_rxcnt (q : List Byte) (m : Mem) (s : State) : (s.stored q m).rxcnt = s.rxcnt + 1 := rfl

theorem frmRead_succ_of_read {n : Nat} {s : State} {b : Byte} {q : List Byte} {m : Mem} (hs : ¬ s.spent = true)
    (hq : s.rxq = b :: q) (hm : bufWrite s.cfg s.rxbuf s.rxcnt b = .ok m) :
    frmRead (n + 1) s = frmRead n (s.stored q m) := by
  simp only [frmRead, if_neg hs, chRead, hq, frmStore, spend_cfg, spend_rxbuf, spend_rxcnt, hm, except_ok_bind]
  rfl

/-- Byte steps stop at once, or the first of them stores the oldest byte of RXQ (R142, R146, R149; log 4). -/
theorem frmRead_succ_cases {n : Nat} {s t : State} (h : frmRead (n + 1) s = .ok t) :
    t = s ∨ ∃ b q m, ¬ s.spent = true ∧ s.rxq = b :: q ∧ bufWrite s.cfg s.rxbuf s.rxcnt b = .ok m
      ∧ frmRead n (s.stored q m) = .ok t := by
  unfold frmRead at h
  split at h
  · cases h; exact .inl rfl
  · cases hq : s.rxq with
    | nil => simp only [chRead, hq] at h; cases h; exact .inl rfl
    | cons b q =>
      simp only [chRead, hq] at h
      obtain ⟨u, hu, h⟩ := bind_ok h
      obtain ⟨m, hm, hu⟩ := bind_ok hu
      cases hu
      exact .inr ⟨b, q, m, ‹_›, rfl, hm, h⟩

/-- Byte steps leave the packet's length and the phase as they are. -/
theorem frmRead_keeps {n : Nat} {s t : State} (h : frmRead n s = .ok t) : t.plen = s.plen ∧ t.fstate = s.fstate := by
  induction n generalizing s with
  | zero => cases h; exact ⟨rfl, rfl⟩
  | succ n ih =>
    rcases frmRead_succ_cases h with rfl | ⟨b, q, m, -, -, -, h⟩
    · exact ⟨rfl, rfl⟩
    · simpa using ih h

/-- Byte steps that have stopped have done `k` of the `n`, and go on with the others (R63, R149). -/
theorem frmRead_refreshed (bs : List Byte) (lift : Bool) {n : Nat} {s t : State} (h : frmRead n s = .ok t) :
    ∃ k ≤ n, t.rxcnt = s.rxcnt + k
      ∧ frmRead n (s.refreshed bs lift) = frmRead (n - k) (t.refreshed bs lift) := by
  induction n generalizing s with
  | zero => cases h; exact ⟨0, le_rfl, rfl, rfl⟩
  | succ n ih =>
    rcases frmRead_succ_cases h with rfl | ⟨b, q, m, hs, hq, hm, h⟩
    · exact ⟨0, Nat.zero_le _, rfl, rfl⟩
    · obtain ⟨k, hk, hcnt, he⟩ := ih h
      have hread : frmRead (n + 1) (s.refreshed bs lift) = frmRead n ((s.stored q m).refreshed bs lift) := by
        rw [frmRead_succ_of_read (q := q ++ bs) (spent_refreshed hs) (by simp [State.refreshed, hq]) hm]
        cases lift <;> rfl
      exact ⟨k + 1, by omega, by rw [hcnt, stored_rxcnt]; omega, by rw [hread, he, Nat.add_sub_add_right]⟩

theorem frmRun_of_idle {s : State} (h : s.fstate = .idle) : frmRun s = .ok s := by
  simp only [frmRun, h]

/-- A body phase that has stopped goes on with its other bytes, and one that has ended stays as it ended (R146, R147). -/
theorem frmBody_refreshed (bs : List Byte) (lift : Bool) {s t : State} (hs : s.fstate = .body) (h : frmBody s = .ok t) :
    frmRun (t.refreshed bs lift) = frmBody (s.refreshed bs lift) := by
  obtain ⟨u, hu, h⟩ := bind_ok h
  obtain ⟨k, hk, hcnt, he⟩ := frmRead_refreshed bs lift hu
  obtain ⟨hplen, hfstate⟩ := frmRead_keeps hu
  simp only [frmBody, refreshed_plen, refreshed_rxcnt, he]
  split at h
  · cases h
    simp only [frmRun, refreshed_fstate, hfstate, hs, frmBody, refreshed_plen, refreshed_rxcnt, hplen, hcnt,
      Nat.sub_sub]
  · rename_i hall
    have hdone : s.plen.toNat + 5 - s.rxcnt - k = 0 := by rw [hplen] at hall; omega
    rw [hdone, frmRead, except_ok_bind, refreshed_rxcnt, refreshed_plen, if_neg hall, frmCheck_refreshed bs lift h]
    simp [frmRun, frmCheck_idle h]

/-- An attempt that has stopped goes on where it stopped, and one that has ended stays as it ended (R149). -/
theorem frmRun_refreshed (bs : List Byte) (lift : Bool) {s t : State} (h : frmRun s = .ok t) :
    frmRun (t.refreshed bs lift) = frmRun (s.refreshed bs lift) := by
  cases hs : s.fstate with
  | idle =>
    simp only [frmRun, hs] at h
    cases h
    rfl
  | body =>
    simp only [frmRun, hs] at h
    rw [frmBody_refreshed bs lift hs h]
    simp only [frmRun, refreshed_fstate, hs]
  | head =>
    simp only [frmRun, hs] at h
    obtain ⟨u, hu, h⟩ := bind_ok h
    obtain ⟨k, hk, hcnt, he⟩ := frmRead_refreshed bs lift hu
    obtain ⟨-, hfstate⟩ := frmRead_keeps hu
    have hrun : frmRun (s.refreshed bs lift) = frmHead (s.refreshed bs lift) := by
      simp only [frmRun, refreshed_fstate, hs]
    simp only [hrun, frmHead, refreshed_rxcnt, he]
    split at h
    · cases h
      simp only [frmRun, refreshed_fstate, hfstate, hs, frmHead, refreshed_rxcnt, hcnt, Nat.sub_sub]
    · obtain ⟨v, hv, h⟩ := bind_ok h
      have hdone : 3 - s.rxcnt - k = 0 := by omega
      rw [hdone, frmRead, except_ok_bind, refreshed_rxcnt, if_neg ‹_›, frmHeader_refreshed bs lift hv, except_ok_bind,
        refreshed_fstate]
      split at h
      · rw [if_pos ‹_›, frmBody_refreshed bs lift ‹_› h]
      · cases h
        rw [if_neg ‹_›, frmRun_of_idle]
        rcases frmHeader_cases hv with rfl | ⟨hdr, rfl | rfl⟩
        · rfl
        · rfl
        · contradiction

/-- An attempt that waits for a byte waits on (R63, R149). -/
theorem frmRun_waits {s : State} (hq : s.rxq = []) (hhead : s.fstate = .head → s.rxcnt < 3)
    (hbody : s.fstate = .body → s.rxcnt < s.plen.toNat + 5) : frmRun s = .ok s := by
  cases hs : s.fstate with
  | idle => exact frmRun_of_idle hs
  | head => simp [frmRun, hs, frmHead, frmRead_empty _ s hq, hhead hs]
  | body => simp [frmRun, hs, frmBody, frmRead_empty _ s hq, hbody hs]

/-! ## RDPKT -/

theorem rdpktResume_of_frmRun {s u : State} (h : frmRun s = .ok u) :
    rdpktResume s = .ok (if u.fstate = .idle then rdpktDeliver u else u) := by
  simp only [rdpktResume, h, except_ok_bind]

/-- Of an RDPKT that has stopped nothing but its attempt goes on (R140, R149). -/
theorem rdpktResume_refreshed (bs : List Byte) (lift : Bool) {s t : State} (h : rdpktResume s = .ok t)
    (ht : t.fstate ≠ .idle) : rdpktResume (t.refreshed bs lift) = rdpktResume (s.refreshed bs lift) := by
  obtain ⟨u, hu, ⟨hi, rfl⟩ | ⟨-, rfl⟩⟩ := rdpktResume_cases h
  · exact absurd hi ht
  · simp only [rdpktResume, frmRun_refreshed bs lift hu]

/-! ## A transaction inside a framing attempt -/

theorem txnResume_of_framing {s : State} (ht : s.tstate = .await) (hf : s.fstate ≠ .idle) :
    txnResume s = txnFinishAttempt txnLoop s := by
  cases hs : s.fstate
  · exact absurd hs hf
  · simp only [txnResume, ht, hs]
  · simp only [txnResume, ht, hs]

theorem txnFinishAttempt_refreshed (bs : List Byte) (lift : Bool) (next : State → Except Fault State) {s u : State}
    (hu : frmRun s = .ok u) :
    txnFinishAttempt next (u.refreshed bs lift) = txnFinishAttempt next (s.refreshed bs lift) := by
  simp only [txnFinishAttempt, frmRun_refreshed bs lift hu]

/-- Settles O16: the attempt waits on, and neither RDPKT nor TXN does anything else before it has ended. -/
theorem heldEngineWaits : Obligations.HeldEngineWaits := by
  intro s hb hq hf hhead hbody hop
  have hwait : frmRun s = .ok s := frmRun_waits hq hhead hbody
  have hgo : proceed s = .ok s := by
    rcases hop with ho | ⟨ho, ht⟩
    · rw [proceed_of_rdpkt hb ho, rdpktResume_of_frmRun hwait, if_neg hf]
    · rw [proceed_of_requesting ⟨hb, ho⟩, txnResume_of_framing ht hf]
      simp [txnFinishAttempt, hwait, hf]
  show outcome (proceed s) = .next s
  rw [hgo]
  rfl

/-! ## The poll loop as one equation -/

theorem txnFinishAttempt_congr {next next' : State → Except Fault State} {s : State}
    (h : ∀ u, frmFrame s u → next u = next' u) : txnFinishAttempt next s = txnFinishAttempt next' s := by
  unfold txnFinishAttempt
  cases hu : frmRun s with
  | error f => rfl
  | ok u => simp only [except_ok_bind, txnBudget, h u (frmRun_frame hu)]

theorem txnBudget_congr {next next' : State → Except Fault State} {s : State} (h : next s = next' s) :
    txnBudget next s = txnBudget next' s := by
  simp only [txnBudget, h]

/-- `s` in its next iteration, before what is read is looked at: counted, slept and polled (R166 to R168). -/
def State.polled (s : State) : State := spend (txnTick s)

@[simp] theorem polled_cfg (s : State) : s.polled.cfg = s.cfg := by simp [State.polled, txnTick, sleep]

@[simp] theorem polled_attempts (s : State) : s.polled.attempts = s.attempts + 1 := by
  simp [State.polled, txnTick, sleep]

@[simp] theorem polled_busy (s : State) : s.polled.busy = s.busy := by simp [State.polled, txnTick, sleep]

@[simp] theorem polled_op (s : State) : s.polled.op = s.op := by simp [State.polled, txnTick, sleep]

@[simp] theorem polled_tstate (s : State) : s.polled.tstate = s.tstate := by simp [State.polled, txnTick, sleep]

@[simp] theorem polled_fstate (s : State) : s.polled.fstate = s.fstate := by simp [State.polled, txnTick, sleep]

/-- No iteration starts without budget or within a limit that is used up (R172; log 4). -/
theorem txnLoop_stop {s : State} (h : s.cfg.nAttempts ≤ s.attempts ∨ s.spent = true) : txnLoop s = .ok s := by
  unfold txnLoop
  cases hn : s.cfg.nAttempts - s.attempts with
  | zero => rfl
  | succ n =>
    have hs : s.spent = true := h.resolve_left (by omega)
    simp only [txnPoll, if_pos hs]

/-- An iteration, and then the loop again (R166 to R172). -/
theorem txnLoop_iterate {s : State} (ha : s.attempts < s.cfg.nAttempts) (hs : ¬ s.spent = true) :
    txnLoop s = if chCanRead s.polled then txnFinishAttempt txnLoop (frmStart s.polled)
      else txnBudget txnLoop s.polled := by
  obtain ⟨n, hn⟩ : ∃ n, s.cfg.nAttempts - s.attempts = n + 1 := ⟨s.cfg.nAttempts - s.attempts - 1, by omega⟩
  have hnext : ∀ u : State, u.cfg = s.cfg → u.attempts = s.attempts + 1 → txnPoll n u = txnLoop u := by
    intro u hc ha
    rw [txnLoop, hc, ha, show s.cfg.nAttempts - (s.attempts + 1) = n by omega]
  have hread : txnFinishAttempt (txnPoll n) (frmStart s.polled) = txnFinishAttempt txnLoop (frmStart s.polled) :=
    txnFinishAttempt_congr fun u hu => hnext u (by rw [hu]; simp) (by rw [hu]; simp)
  have hempty : txnBudget (txnPoll n) s.polled = txnBudget txnLoop s.polled :=
    txnBudget_congr (hnext _ (by simp) (by simp))
  rw [← hread, ← hempty, txnLoop, hn, txnPoll, if_neg hs]
  rfl

theorem txnLoop_cases {s t : State} (h : txnLoop s = .ok t) :
    t = s ∨ s.attempts < s.cfg.nAttempts ∧ ¬ s.spent = true
      ∧ ((chCanRead s.polled = true ∧ txnFinishAttempt txnLoop (frmStart s.polled) = .ok t)
        ∨ (chCanRead s.polled = false ∧ txnBudget txnLoop s.polled = .ok t)) := by
  by_cases hstop : s.cfg.nAttempts ≤ s.attempts ∨ s.spent = true
  · rw [txnLoop_stop hstop] at h
    cases h
    exact .inl rfl
  · obtain ⟨ha, hs⟩ := not_or.mp hstop
    rw [txnLoop_iterate (by omega) hs] at h
    refine .inr ⟨by omega, hs, ?_⟩
    split at h
    · exact .inl ⟨‹_›, h⟩
    · exact .inr ⟨Bool.eq_false_iff.mpr ‹_›, h⟩

/-- A wait that goes on counts at least one iteration (R167). -/
theorem txnLoop_attempts {s t : State} (h : txnLoop s = .ok t) : t = s ∨ s.attempts < t.attempts := by
  induction hn : s.cfg.nAttempts - s.attempts using Nat.strong_induction_on generalizing s t with
  | _ n ih =>
    have hbudget : ∀ u : State, u.cfg = s.cfg → u.attempts = s.attempts + 1 → s.attempts < s.cfg.nAttempts →
        txnBudget txnLoop u = .ok t → s.attempts < t.attempts := by
      intro u hc ha hlt hu
      rcases txnBudget_cases hu with ⟨-, rfl⟩ | ⟨-, hu⟩
      · simp [ha]
      · rcases ih _ (by rw [hc, ha]; omega) hu rfl with rfl | h' <;> omega
    rcases txnLoop_cases h with rfl | ⟨hlt, -, ⟨-, h⟩ | ⟨-, h⟩⟩
    · exact .inl rfl
    · obtain ⟨u, hu, h⟩ := txnFinishAttempt_cases h
      have hf := frmRun_frame hu
      have ha : u.attempts = s.attempts + 1 := by rw [hf]; simp
      rcases h with ⟨-, rfl⟩ | ⟨-, -, rfl⟩ | ⟨-, -, h⟩
      · exact .inr (by omega)
      · exact .inr (by simp [ha])
      · exact .inr (hbudget u (by rw [hf]; simp) ha hlt h)
    · exact .inr (hbudget _ (by simp) (by simp) hlt h)

/-! ## What is held goes on when more bytes have come -/

/-- A transaction that stops inside a framing attempt, with no iteration counted, stops inside the same attempt (R175). -/
theorem frmRun_of_txnFinishAttempt {s t : State} (h : txnFinishAttempt txnLoop s = .ok t) (ht : t.fstate ≠ .idle)
    (ha : t.attempts = s.attempts) : frmRun s = .ok t := by
  obtain ⟨u, hu, h⟩ := txnFinishAttempt_cases h
  have hau : u.attempts = s.attempts := by rw [frmRun_frame hu]
  rcases h with ⟨-, rfl⟩ | ⟨hi, -, rfl⟩ | ⟨hi, -, h⟩
  · exact hu
  · exact absurd hi ht
  · rcases txnBudget_cases h with ⟨-, rfl⟩ | ⟨-, h⟩
    · exact absurd hi ht
    · rcases txnLoop_attempts h with rfl | hlt
      · exact absurd hi ht
      · omega

/-- RDPKT on what has come, then on what comes later, is RDPKT on both (R63, R149). -/
theorem rdpkt_goes_on {s t : State} (later : List Byte) (hs : s.atRest) (h : exec .rdpkt s = .next t)
    (hb : t.busy = true) : exec .opNone (arrive later t) = exec .rdpkt (arrive later s) := by
  obtain ⟨-, h⟩ := execRdpkt_next h
  have ho : t.op = .rdpkt := by rw [rdpktRun_frame h]; rfl
  have ht : t.fstate ≠ .idle := by
    obtain ⟨u, -, ⟨-, rfl⟩ | ⟨hne, rfl⟩⟩ := rdpktResume_cases h
    · cases hb
    · exact hne
  have hgo : proceed (arrive later t) = rdpktRun (arrive later s) := by
    rw [proceed_of_rdpkt (s := arrive later t) hb ho]
    exact rdpktResume_refreshed later false h ht
  show outcome (proceed (arrive later t)) = whenAtRest (arrive later s) (rdpktRun (arrive later s))
  rw [hgo, whenAtRest_of (s := arrive later s) hs]

/-- A transaction inside a framing attempt goes on in it when more bytes have come (R63, R175). -/
theorem framing_goes_on {s t : State} (later : List Byte) (hr : s.requesting) (ha : s.tstate = .await)
    (hf : s.fstate ≠ .idle) (h : exec .opNone s = .next t) (ht : t.fstate ≠ .idle) (hatt : t.attempts = s.attempts) :
    exec .opNone (arrive later t) = exec .opNone (arrive later s) := by
  have h := execOpNone_next h
  rw [proceed_of_requesting hr, txnResume_of_framing ha hf] at h
  have hrun := frmRun_of_txnFinishAttempt h ht hatt
  have hfr := frmRun_frame hrun
  have hrt : t.requesting := by rw [hfr]; exact hr
  have hat : t.tstate = .await := by rw [hfr]; exact ha
  have hgo : proceed (arrive later t) = proceed (arrive later s) := by
    rw [proceed_of_requesting (s := arrive later t) hrt, proceed_of_requesting (s := arrive later s) hr,
      txnResume_of_framing (s := arrive later t) hat ht, txnResume_of_framing (s := arrive later s) ha hf]
    exact txnFinishAttempt_refreshed later false txnLoop hrun
  exact congrArg outcome hgo

/-- Settles O15: the second part arrives in a state that the first part has only moved along its attempt. -/
theorem heldAttemptGoesOnWhereItStopped : Obligations.HeldAttemptGoesOnWhereItStopped := by
  refine ⟨fun s t bs₁ bs₂ hs hq h hb => ?_, fun s t bs₁ bs₂ hr ha hf h ht hatt => ?_⟩
  · rw [rdpkt_goes_on bs₂ hs h hb, arrive, hq]
  · rw [framing_goes_on (s := arrive bs₁ s) bs₂ hr ha hf h ht hatt]
    simp [arrive]

end Sys2Proof.Machine
end

section
/-! How a run is cut into steps changes no result (20_memory R77, 40_checksum R125; log 4): of each part of the engine that
a limit can stop, going on without a limit gives what it would have given without one from the start. -/

namespace Sys2Proof.Machine

/-! ## An operation that has ended -/

theorem exec_opNone_of_idle {s : State} (h : s.busy = false) : exec .opNone s = .next s := by
  show outcome (proceed s) = .next s
  rw [proceed_of_idle h]
  rfl

/-! ## A framing attempt -/

theorem frmRun_withoutLimit {s t : State} (h : frmRun s = .ok t) : frmRun t.withoutLimit = frmRun s.withoutLimit := by
  simpa only [refreshed_lift] using frmRun_refreshed [] true h

theorem frmRun_withoutLimit_of_idle {s t : State} (h : frmRun s = .ok t) (hi : t.fstate = .idle) :
    frmRun s.withoutLimit = .ok t.withoutLimit := by
  rw [← frmRun_withoutLimit h, frmRun_of_idle (s := t.withoutLimit) hi]

theorem rdpktResume_withoutLimit {s t : State} (hb : s.busy = true) (ho : s.op = .rdpkt) (h : rdpktResume s = .ok t) :
    proceed t.withoutLimit = rdpktResume s.withoutLimit := by
  obtain ⟨u, hu, ⟨hi, rfl⟩ | ⟨hne, rfl⟩⟩ := rdpktResume_cases h
  · rw [rdpktResume_of_frmRun (frmRun_withoutLimit_of_idle hu hi), if_pos hi,
      proceed_of_idle (s := (rdpktDeliver u).withoutLimit) rfl]
    rfl
  · have hf := frmRun_frame hu
    have hbt : t.busy = true := by rw [hf]; exact hb
    have hot : t.op = .rdpkt := by rw [hf]; exact ho
    rw [proceed_of_rdpkt (s := t.withoutLimit) hbt hot]
    simp only [rdpktResume, frmRun_withoutLimit hu]

/-! ## The wait -/

theorem txnResume_of_polling {s : State} (ht : s.tstate = .await) (hf : s.fstate = .idle) :
    txnResume s = txnLoop s := by
  simp only [txnResume, ht, hf]

/-- A request stands as a transaction that awaits. -/
abbrev State.waits (s : State) : Prop := s.requesting ∧ s.tstate = .await

theorem waits_of_frmFrame {s u : State} (hs : s.waits) (h : frmFrame s u) : u.waits := by
  rw [h]
  exact hs

theorem proceed_of_polling {s : State} (hs : s.waits) (hf : s.fstate = .idle) : proceed s = txnLoop s := by
  obtain ⟨hr, ha⟩ := hs
  rw [proceed_of_requesting hr, txnResume_of_polling ha hf]

theorem proceed_of_framing {s : State} (hs : s.waits) (hf : s.fstate ≠ .idle) :
    proceed s = txnFinishAttempt txnLoop s := by
  obtain ⟨hr, ha⟩ := hs
  rw [proceed_of_requesting hr, txnResume_of_framing ha hf]

/-- The budget test, if the iterations after it can be cut. -/
theorem txnBudget_withoutLimit {s t : State}
    (hn : txnLoop s = .ok t → proceed t.withoutLimit = txnLoop s.withoutLimit) (h : txnBudget txnLoop s = .ok t) :
    proceed t.withoutLimit = txnBudget txnLoop s.withoutLimit := by
  unfold txnBudget
  rcases txnBudget_cases h with ⟨he, rfl⟩ | ⟨hne, h⟩
  · rw [if_pos (by exact he), proceed_of_idle (s := (txnDeliver (txnTimeout s)).withoutLimit) rfl]
    rfl
  · rw [if_neg (by exact hne), hn h]

/-- The rest of an iteration from its framing attempt on, if the iterations after it can be cut. -/
theorem txnFinishAttempt_withoutLimit {s t : State} (hs : s.waits)
    (hn : ∀ u, frmFrame s u → u.fstate = .idle → txnLoop u = .ok t → proceed t.withoutLimit = txnLoop u.withoutLimit)
    (h : txnFinishAttempt txnLoop s = .ok t) : proceed t.withoutLimit = txnFinishAttempt txnLoop s.withoutLimit := by
  obtain ⟨u, hu, h⟩ := txnFinishAttempt_cases h
  have hf := frmRun_frame hu
  rcases h with ⟨hne, rfl⟩ | ⟨hi, hm, rfl⟩ | ⟨hi, hm, h⟩
  · rw [proceed_of_framing (s := t.withoutLimit) (waits_of_frmFrame (u := t) hs hf) hne]
    simp only [txnFinishAttempt, frmRun_withoutLimit hu]
  · have hm' : txnMatched u.withoutLimit = .ok true := hm
    rw [proceed_of_idle (s := (txnDeliver (txnSuccess u)).withoutLimit) rfl]
    simp only [txnFinishAttempt, frmRun_withoutLimit_of_idle hu hi, except_ok_bind, hi, hm']
    rfl
  · have hm' : txnMatched u.withoutLimit = .ok false := hm
    rw [txnBudget_withoutLimit (hn u hf hi) h]
    simp [txnFinishAttempt, frmRun_withoutLimit_of_idle hu hi, hi, hm']

theorem polled_withoutLimit (s : State) : s.withoutLimit.polled = s.polled.withoutLimit := by
  simp [State.polled, txnTick, sleep, deviceTurn_eq, spend]

/-- The poll loop between two iterations (R166 to R172). -/
theorem txnLoop_withoutLimit {s t : State} (hs : s.waits) (hi : s.fstate = .idle) (h : txnLoop s = .ok t) :
    proceed t.withoutLimit = txnLoop s.withoutLimit := by
  induction hn : s.cfg.nAttempts - s.attempts using Nat.strong_induction_on generalizing s t with
  | _ n ih =>
    rcases txnLoop_cases h with rfl | ⟨hlt, -, h⟩
    · exact proceed_of_polling (s := t.withoutLimit) hs hi
    · have hw : s.polled.waits := by simpa [State.waits, State.requesting] using hs
      rw [txnLoop_iterate (s := s.withoutLimit) hlt (by simp), polled_withoutLimit]
      rcases h with ⟨hc, h⟩ | ⟨hc, h⟩
      · rw [if_pos (by exact hc)]
        refine txnFinishAttempt_withoutLimit (s := frmStart s.polled) hw (fun u hf hi hu => ?_) h
        exact ih _ (by rw [hf]; simp; omega) (waits_of_frmFrame (s := frmStart s.polled) hw hf) hi hu rfl
      · rw [if_neg (show ¬ chCanRead s.polled.withoutLimit = true from Bool.eq_false_iff.mp hc)]
        exact txnBudget_withoutLimit (fun hu => ih _ (by simp; omega) hw (by simpa using hi) hu rfl) h

/-! ## The transmit phase -/

/-- `s` after one `ChSend` (R164): what `txnSend_succ_cases` goes on from. -/
def State.sentByte (b : Byte) (s : State) : State := spend { chSend b s with txcnt := s.txcnt + 1 }

@[simp] theorem sentByte_txcnt (b : Byte) (s : State) : (s.sentByte b).txcnt = s.txcnt + 1 := rfl

theorem txnSend_succ_of_read {n : Nat} {s : State} {b : Byte} (hs : ¬ s.spent = true)
    (hb : bufRead s.cfg s.txbuf s.txcnt = .ok b) : txnSend (n + 1) s = txnSend n (s.sentByte b) := by
  simp only [txnSend, if_neg hs, hb, except_ok_bind]
  rfl

/-- Sending stops at once, or the next byte of TXBUF goes (R164; log 4). -/
theorem txnSend_succ_cases {n : Nat} {s t : State} (h : txnSend (n + 1) s = .ok t) :
    t = s ∨ ∃ b, ¬ s.spent = true ∧ bufRead s.cfg s.txbuf s.txcnt = .ok b ∧ txnSend n (s.sentByte b) = .ok t := by
  unfold txnSend at h
  split at h
  · cases h; exact .inl rfl
  · obtain ⟨b, hb, h⟩ := bind_ok h
    exact .inr ⟨b, ‹_›, hb, h⟩

/-- Sending that has stopped has sent `k` of the `n` bytes, and goes on with the others (R164). -/
theorem txnSend_withoutLimit {n : Nat} {s t : State} (h : txnSend n s = .ok t) :
    ∃ k ≤ n, t.txcnt = s.txcnt + k ∧ txnSend n s.withoutLimit = txnSend (n - k) t.withoutLimit := by
  induction n generalizing s with
  | zero => cases h; exact ⟨0, le_rfl, rfl, rfl⟩
  | succ n ih =>
    rcases txnSend_succ_cases h with rfl | ⟨b, -, hb, h⟩
    · exact ⟨0, Nat.zero_le _, rfl, rfl⟩
    · obtain ⟨k, hk, hcnt, he⟩ := ih h
      have hsend : txnSend (n + 1) s.withoutLimit = txnSend n (s.sentByte b).withoutLimit :=
        txnSend_succ_of_read (s := s.withoutLimit) (by simp) hb
      exact ⟨k + 1, by omega, by rw [hcnt, sentByte_txcnt]; omega, by rw [hsend, he, Nat.add_sub_add_right]⟩

/-- TXN still transmits and goes on with what is left, or all has gone, as it has without a limit (R164, R165). -/
theorem txnTransmit_withoutLimit {s t : State} (h : txnTransmit s = .ok t) :
    (t.tstate = s.tstate ∧ txnTransmit s.withoutLimit = txnTransmit t.withoutLimit)
    ∨ (t.tstate = .await ∧ txnTransmit s.withoutLimit = .ok t.withoutLimit) := by
  obtain ⟨u, hu, h⟩ := bind_ok h
  obtain ⟨k, hk, hcnt, he⟩ := txnSend_withoutLimit hu
  have hlen : u.txlen = s.txlen := by obtain ⟨cnt, sent, quota, rfl⟩ := txnSend_cases hu; rfl
  have hts : u.tstate = s.tstate := by obtain ⟨cnt, sent, quota, rfl⟩ := txnSend_cases hu; rfl
  split at h <;> cases h
  · refine .inl ⟨hts, ?_⟩
    simp only [txnTransmit, he, hlen, hcnt, Nat.sub_sub]
  · have hall : s.txlen - s.txcnt - k = 0 := by omega
    refine .inr ⟨rfl, ?_⟩
    simp only [txnTransmit, he, hall, txnSend, except_ok_bind, if_neg ‹_›]
    rfl

/-! ## A request that goes on -/

theorem txnResume_of_transmitting {s : State} (ht : s.tstate = .idle) :
    txnResume s = txnTransmit s >>= fun u => if u.tstate = .await then txnLoop u else .ok u := by
  simp only [txnResume, ht]

theorem requesting_of_transmit {s u : State} (hr : s.requesting) (h : txnTransmit s = .ok u) : u.requesting := by
  obtain ⟨-, hb, ho, -⟩ := txnTransmit_keeps h
  rw [State.requesting, hb, ho]
  exact hr

/-- A request goes on from wherever it stands (R33, R175). -/
theorem txnResume_withoutLimit {s t : State} (hr : s.requesting) (hf : s.tstate = .idle → s.fstate = .idle)
    (h : txnResume s = .ok t) : proceed t.withoutLimit = txnResume s.withoutLimit := by
  rcases txnResume_cases h with ⟨hi, u, hu, h⟩ | ⟨hfi, ha, h⟩ | ⟨hfi, ha, h⟩ | ⟨hi, ha, rfl⟩
  · have hru := requesting_of_transmit hr hu
    obtain ⟨-, -, -, hfu, -⟩ := txnTransmit_keeps hu
    have hfu : u.fstate = .idle := hfu.trans (hf hi)
    rw [txnResume_of_transmitting (s := s.withoutLimit) hi]
    rcases txnTransmit_withoutLimit hu with ⟨hts, he⟩ | ⟨hau, he⟩
    · rcases h with rfl | ⟨hau, -⟩
      · rw [he, proceed_of_requesting (s := t.withoutLimit) hru,
          txnResume_of_transmitting (s := t.withoutLimit) (hts.trans hi)]
      · exact absurd (hts.symm.trans hau) (by simp [hi])
    · rw [he, except_ok_bind, if_pos (by exact hau)]
      rcases h with rfl | ⟨-, h⟩
      · exact proceed_of_polling (s := t.withoutLimit) ⟨hru, hau⟩ hfu
      · exact txnLoop_withoutLimit ⟨hru, hau⟩ hfu h
  · rw [txnResume_of_polling (s := s.withoutLimit) ha hfi]
    exact txnLoop_withoutLimit ⟨hr, ha⟩ hfi h
  · rw [txnResume_of_framing (s := s.withoutLimit) ha hfi]
    exact txnFinishAttempt_withoutLimit ⟨hr, ha⟩
      (fun u hu hi h => txnLoop_withoutLimit (waits_of_frmFrame ⟨hr, ha⟩ hu) hi h) h
  · rw [proceed_of_idle (s := (txnDeliver s).withoutLimit) rfl]
    cases ht : s.tstate
    · exact absurd ht hi
    · exact absurd ht ha
    · simp only [txnResume, ht]; rfl
    · simp only [txnResume, ht]; rfl

/-- Whatever is in progress goes on (R36). -/
theorem proceed_withoutLimit {s t : State} (hs : s.Inv) (h : proceed s = .ok t) :
    proceed t.withoutLimit = proceed s.withoutLimit := by
  rcases proceed_cases h with rfl | ⟨hb, ho, h⟩ | ⟨hr, h⟩
  · rfl
  · rw [proceed_of_rdpkt (s := s.withoutLimit) hb ho]
    exact rdpktResume_withoutLimit hb ho h
  · rw [proceed_of_requesting (s := s.withoutLimit) hr]
    exact txnResume_withoutLimit hr (hs.fstate_of_transmitting hr) h

/-! ## Acceptance of a request -/

theorem txnFlush_withoutLimit (s : State) : txnFlush s.withoutLimit = (txnFlush s).withoutLimit := by
  unfold txnFlush
  by_cases hf : s.cfg.flushOnRequest = true <;> simp [hf, spend]

/-- A request that is not turned away for its length fits whole (R8, R161). -/
theorem fits_of_not_tooLong {c : Cfg} {isWrite : Bool} {data : List Byte} (hok : c.ok = true)
    (hd : isWrite = false → data = []) (hl : ¬ c.maxResponseSize - 5 < requestLen isWrite data) :
    data.length + 6 ≤ c.maxResponseSize := by
  have h6 := six_le_of_ok hok
  cases isWrite
  · simpa [hd rfl] using h6
  · simp only [requestLen, if_true] at hl
    omega

/-- `s` after a request that fits has been accepted, its packet standing at its first byte (R161 to R164). -/
def State.atFirstByte (s : State) (o : Op) (isWrite : Bool) (cmd : Byte) (data : List Byte) : State :=
  { txnFlush (s.signed o isWrite cmd data) with txcnt := 0 }

theorem txnRequest_eq_atFirstByte {o : Op} {isWrite : Bool} {cmd : Byte} {data : List Byte} {s : State}
    (hd : isWrite = false → data = []) (hm : data.length + 6 ≤ s.cfg.maxResponseSize) :
    txnRequest o isWrite cmd data s = txnTransmit (s.atFirstByte o isWrite cmd data) :=
  txnRequest_eq_transmit hd hm

section AtFirstByte

variable (s : State) (o : Op) (isWrite : Bool) (cmd : Byte) (data : List Byte)

@[simp] theorem atFirstByte_busy : (s.atFirstByte o isWrite cmd data).busy = true := by
  rw [State.atFirstByte, txnFlush_eq]; rfl

@[simp] theorem atFirstByte_op : (s.atFirstByte o isWrite cmd data).op = o := by
  rw [State.atFirstByte, txnFlush_eq]; rfl

@[simp] theorem atFirstByte_fstate : (s.atFirstByte o isWrite cmd data).fstate = s.fstate := by
  rw [State.atFirstByte, txnFlush_eq]; rfl

@[simp] theorem atFirstByte_tstate : (s.atFirstByte o isWrite cmd data).tstate = s.tstate := by
  rw [State.atFirstByte, txnFlush_eq]; rfl

theorem atFirstByte_withoutLimit :
    s.withoutLimit.atFirstByte o isWrite cmd data = (s.atFirstByte o isWrite cmd data).withoutLimit := by
  have hsigned : s.withoutLimit.signed o isWrite cmd data = (s.signed o isWrite cmd data).withoutLimit := rfl
  rw [State.atFirstByte, hsigned, txnFlush_withoutLimit]
  rfl

end AtFirstByte

theorem requesting_atFirstByte (s : State) {o : Op} (isWrite : Bool) (cmd : Byte) (data : List Byte)
    (ho : o = .reqr ∨ o = .reqw) : (s.atFirstByte o isWrite cmd data).requesting := by
  simpa [State.requesting] using ho

/-- A request that stops while it is sent is, taken to its end, the request sent whole (R161 to R173). -/
theorem proceed_of_sent {o : Op} {isWrite : Bool} {cmd : Byte} {data : List Byte} {s u : State} (hs : s.atRest)
    (ho : o = .reqr ∨ o = .reqw) (hd : isWrite = false → data = []) (hm : data.length + 6 ≤ s.cfg.maxResponseSize)
    (hu : txnRequest o isWrite cmd data s = .ok u) :
    proceed u.withoutLimit = txnRun o isWrite cmd data s.withoutLimit := by
  obtain ⟨-, hf, ht⟩ := hs
  have hwhole : txnTransmit (s.atFirstByte o isWrite cmd data).withoutLimit
      = .ok (s.withoutLimit.sent o isWrite cmd data) := by
    rw [← atFirstByte_withoutLimit, ← txnRequest_eq_atFirstByte (s := s.withoutLimit) hd hm]
    exact txnRequest_fits o isWrite cmd data s.withoutLimit hd hm rfl
  have hrun : txnRun o isWrite cmd data s.withoutLimit = txnLoop (s.withoutLimit.sent o isWrite cmd data) := by
    rw [txnRun, txnRequest_fits o isWrite cmd data s.withoutLimit hd hm rfl, except_ok_bind]
    exact proceed_of_polling ⟨⟨rfl, ho⟩, rfl⟩ hf
  rw [txnRequest_eq_atFirstByte hd hm] at hu
  have hr : u.requesting := requesting_of_transmit (requesting_atFirstByte s isWrite cmd data ho) hu
  obtain ⟨-, -, -, hfu, -⟩ := txnTransmit_keeps hu
  rw [hrun]
  rcases txnTransmit_withoutLimit hu with ⟨hts, he⟩ | ⟨hau, he⟩
  · have hti : u.tstate = .idle := by simpa [ht] using hts
    rw [proceed_of_requesting (s := u.withoutLimit) hr, txnResume_of_transmitting (s := u.withoutLimit) hti, ← he,
      hwhole]
    rfl
  · rw [hwhole] at he
    rw [proceed_of_polling (s := u.withoutLimit) ⟨hr, hau⟩ (by simpa [hf] using hfu), Except.ok.inj he]

theorem txnRun_withoutLimit {o : Op} {isWrite : Bool} {cmd : Byte} {data : List Byte} {s t : State} (hi : s.Inv)
    (hs : s.atRest) (ho : o = .reqr ∨ o = .reqw) (hd : isWrite = false → data = [])
    (h : txnRun o isWrite cmd data s = .ok t) :
    proceed t.withoutLimit = txnRun o isWrite cmd data s.withoutLimit := by
  obtain ⟨u, hu, h⟩ := bind_ok h
  obtain ⟨u', hu', hiu⟩ := txnRequest_inv (cmd := cmd) hi hs ho hd
  rw [hu] at hu'
  cases hu'
  rw [proceed_withoutLimit hiu h]
  by_cases hl : s.cfg.maxResponseSize - 5 < requestLen isWrite data
  · rw [txnRequest_tooLong o isWrite cmd data s hl] at hu
    cases hu
    rw [txnRun, txnRequest_tooLong o isWrite cmd data s.withoutLimit hl]
    rfl
  · exact proceed_of_sent hs ho hd (fits_of_not_tooLong hi.cfgOk hd hl) hu

/-! ## SDEC -/

theorem samples_withoutLimit (s : State) (i k : Nat) : samples s.withoutLimit i k = samples s i k := by
  induction k generalizing i with
  | zero => rfl
  | succ k ih => simp only [samples, ih]; rfl

theorem sdecFields_withoutLimit (s : State) :
    sdecFields s.withoutLimit = State.withoutLimit <$> sdecFields s := by
  simp only [sdecFields, map_bind]
  rfl

theorem sdecSamples_withoutLimit (s : State) :
    sdecSamples s.withoutLimit = State.withoutLimit <$> sdecSamples s := by
  simp only [sdecSamples, samples_withoutLimit]
  split
  · rfl
  · split
    · rfl
    · simp only [map_bind]
      rfl

/-- SDEC performs no channel primitive and does not look at the limit. -/
theorem sdecDecode_withoutLimit (s : State) :
    sdecDecode s.withoutLimit = State.withoutLimit <$> sdecDecode s := by
  unfold sdecDecode
  dsimp only
  split
  · rw [map_bind]
    refine bind_congr fun c => ?_
    split
    · rfl
    · split
      · rfl
      · have hfields := sdecFields_withoutLimit { s with sfValid := false, sstatus := .none }
        simp only [State.withoutLimit] at hfields
        simp only [hfields, bind_map_left, map_bind]
        exact bind_congr sdecSamples_withoutLimit
  · rfl

/-! ## Every instruction -/

/-- What an accepted operation leaves when it stops, taken to its end, is what it leaves without a limit. -/
theorem whenAtRest_withoutLimit {s t : State} {x y : Except Fault State} (h : whenAtRest s x = .next t)
    (hgo : s.atRest → x = .ok t → proceed t.withoutLimit = y) :
    exec .opNone t.withoutLimit = whenAtRest s.withoutLimit y := by
  obtain ⟨hs, hx⟩ := whenAtRest_next h
  rw [whenAtRest_of (s := s.withoutLimit) hs, ← hgo hs hx]
  rfl

/-- An operation that ends in the step that accepts it is done, and does not look at the limit. -/
theorem whenIdle_withoutLimit {s t : State} {x y : Except Fault State} (h : whenIdle s x = .next t)
    (hb : x = .ok t → t.busy = false) (hy : y = State.withoutLimit <$> x) :
    exec .opNone t.withoutLimit = whenIdle s.withoutLimit y := by
  obtain ⟨hs, hx⟩ := whenIdle_next h
  rw [exec_opNone_of_idle (s := t.withoutLimit) (hb hx), whenIdle_of (s := s.withoutLimit) hs, hy, hx]
  rfl

theorem deliver_withoutLimit {bs : List Byte} {s t : State} (hi : s.Inv) (h : deliver bs s = .next t) :
    exec .opNone t.withoutLimit = deliver bs s.withoutLimit :=
  congrArg outcome (proceed_withoutLimit (arrive_inv bs hi) (deliver_next h))

theorem exec_withoutLimit {i : Instr} {s t : State} (hi : s.Inv) (hside : i.side ≠ .tx) (h : exec i s = .next t) :
    exec .opNone t.withoutLimit = exec i s.withoutLimit := by
  cases i with
  | cks data => exact whenIdle_withoutLimit h (fun hx => by cases hx; rfl) rfl
  | rdpkt => exact whenAtRest_withoutLimit h fun _ hx => rdpktResume_withoutLimit rfl rfl hx
  | reqr cmd => exact whenAtRest_withoutLimit h fun hs => txnRun_withoutLimit hi hs (.inl rfl) fun _ => rfl
  | reqw cmd data => exact whenAtRest_withoutLimit h fun hs => txnRun_withoutLimit hi hs (.inr rfl) (by simp)
  | sdec => exact whenIdle_withoutLimit h sdecDecode_busy (sdecDecode_withoutLimit (accept .sdec s))
  | flush => exact whenIdle_withoutLimit h (fun hx => by cases hx; rfl) rfl
  | opNone => exact congrArg outcome (proceed_withoutLimit hi (execOpNone_next h))
  | opReserved => exact whenIdle_withoutLimit h (fun hx => by cases hx; rfl) rfl
  | pkt p => exact deliver_withoutLimit hi h
  | pktRdreq cmd ck => exact absurd rfl hside
  | pktWrreq plen cmd data ck => exact absurd rfl hside
  | pktResp p => exact deliver_withoutLimit hi h
  | pktStream f => exact deliver_withoutLimit hi h

/-- Settles O47: a limit is no part of the invariant, so what holds of a state holds of the limited one. -/
theorem limitedStepsAddUp : Obligations.LimitedStepsAddUp := by
  intro i s t n hi hside h
  exact exec_withoutLimit (s := { s with quota := some n }) { hi with } hside h

end Sys2Proof.Machine
end

section
/-! What the channel sees of an instruction under a limit (20_memory R77; log 4): every byte sent, iteration polled in and
byte taken is taken from the limit. -/

namespace Sys2Proof.Machine

/-! ## Counting primitives -/

theorem performs_trans {s t u : State} {m n : Nat} (h₁ : s.performs t m) (h₂ : t.performs u n) :
    s.performs u (m + n) := by
  obtain ⟨sent, polled, taken, hsent, hpolled, htaken, hle⟩ := h₁
  obtain ⟨sent', polled', taken', hsent', hpolled', htaken', hle'⟩ := h₂
  exact ⟨sent + sent', polled + polled', taken + taken', by omega, by omega, by omega, by omega⟩

theorem performs_mono {s t : State} {m n : Nat} (h : s.performs t m) (hmn : m ≤ n) : s.performs t n := by
  obtain ⟨sent, polled, taken, hsent, hpolled, htaken, hle⟩ := h
  exact ⟨sent, polled, taken, hsent, hpolled, htaken, hle.trans hmn⟩

theorem performs_none {s t : State} (hlog : t.txlog = s.txlog) (hpolls : t.polls = s.polls)
    (hunread : t.unread = s.unread) : s.performs t 0 :=
  ⟨0, 0, 0, by rw [hlog]; rfl, by rw [hpolls]; rfl, by rw [hunread]; rfl, le_rfl⟩

/-- ATTEMPTS is a leftover only of a request that still transmits (10_state R33, R35). -/
theorem polls_of_transmitting {s : State} (hr : s.requesting) (ht : s.tstate = .idle) : s.polls = 0 :=
  if_pos ⟨hr, ht⟩

theorem polls_of_not_requesting {s : State} (h : ¬ s.requesting) : s.polls = s.attempts :=
  if_neg fun h' => h h'.1

theorem polls_of_free {s : State} (h : s.busy = false) : s.polls = s.attempts :=
  polls_of_not_requesting fun hr => Bool.false_ne_true (h.symm.trans hr.1)

theorem polls_of_rdpkt {s : State} (h : s.op = .rdpkt) : s.polls = s.attempts :=
  polls_of_not_requesting fun ⟨_, ho⟩ => by simp [h] at ho

theorem polls_of_wait {s : State} (h : s.tstate ≠ .idle) : s.polls = s.attempts :=
  if_neg fun h' => h h'.2

/-- Between two states of a free engine that agree on the channel and on ATTEMPTS no primitive is performed. -/
theorem performs_none_of_free {s t : State} (hs : s.busy = false) (ht : t.busy = false) (hlog : t.txlog = s.txlog)
    (hatt : t.attempts = s.attempts) (hunread : t.unread = s.unread) : s.performs t 0 :=
  performs_none hlog (by rw [polls_of_free hs, polls_of_free ht, hatt]) hunread

/-! ## Counting against the limit -/

/-- From `s` to `t` a limit has gone down, and by no less than the primitives performed. -/
def CountedByLimit (s t : State) : Prop :=
  ∀ n, s.quota = some n → ∃ left ≤ n, t.quota = some left ∧ s.performs t (n - left)

theorem CountedByLimit.of_none {s t : State} (hq : t.quota = s.quota) (h : s.performs t 0) : CountedByLimit s t :=
  fun n hn => ⟨n, le_rfl, hq.trans hn, by rwa [Nat.sub_self]⟩

theorem CountedByLimit.refl (s : State) : CountedByLimit s s := .of_none rfl (performs_none rfl rfl rfl)

/-- One primitive, performed within the limit. -/
theorem CountedByLimit.of_one {s t : State} (hs : ¬ s.spent = true) (hq : t.quota = s.quota.map (· - 1))
    (h : s.performs t 1) : CountedByLimit s t := by
  intro n hn
  have hpos : n ≠ 0 := by simpa [State.spent, hn] using hs
  exact ⟨n - 1, Nat.sub_le n 1, by rw [hq, hn]; rfl, performs_mono h (by omega)⟩

theorem CountedByLimit.trans {s t u : State} (h₁ : CountedByLimit s t) (h₂ : CountedByLimit t u) :
    CountedByLimit s u := by
  intro n hn
  obtain ⟨m, hm, hq, hp⟩ := h₁ n hn
  obtain ⟨left, hleft, hq', hp'⟩ := h₂ m hq
  exact ⟨left, hleft.trans hm, hq', performs_mono (performs_trans hp hp') (by omega)⟩

theorem CountedByLimit.performs {s t : State} {n : Nat} (h : CountedByLimit s t) (hn : s.quota = some n) :
    s.performs t n := by
  obtain ⟨left, -, -, hp⟩ := h n hn
  exact performs_mono hp (Nat.sub_le n left)

/-! ## A framing attempt -/

/-- A byte step takes one byte (R63). -/
theorem stored_counted {s : State} {b : Byte} {q : List Byte} (m : Mem) (hs : ¬ s.spent = true) (hq : s.rxq = b :: q) :
    CountedByLimit s (s.stored q m) :=
  .of_one hs rfl ⟨0, 0, 1, rfl, rfl, by simp [State.unread, State.stored, hq]; omega, le_rfl⟩

theorem frmRead_counted {n : Nat} {s t : State} (h : frmRead n s = .ok t) : CountedByLimit s t := by
  induction n generalizing s with
  | zero => cases h; exact .refl t
  | succ n ih =>
    rcases frmRead_succ_cases h with rfl | ⟨b, q, m, hs, hq, -, h⟩
    · exact .refl t
    · exact (stored_counted m hs hq).trans (ih h)

theorem frmHeader_counted {s t : State} (h : frmHeader s = .ok t) : CountedByLimit s t := by
  rcases frmHeader_cases h with rfl | ⟨hdr, rfl | rfl⟩
  · exact .of_none rfl (performs_none rfl rfl rfl)
  · exact .of_none rfl (performs_none rfl rfl rfl)
  · exact .of_none rfl (performs_none rfl rfl rfl)

theorem frmCheck_counted {s t : State} (h : frmCheck s = .ok t) : CountedByLimit s t := by
  obtain ⟨crc, rfl | rfl⟩ := frmCheck_cases h
  · exact .of_none rfl (performs_none rfl rfl rfl)
  · exact .of_none rfl (performs_none rfl rfl rfl)

theorem frmBody_counted {s t : State} (h : frmBody s = .ok t) : CountedByLimit s t := by
  obtain ⟨u, hu, h⟩ := bind_ok h
  split at h
  · cases h; exact frmRead_counted hu
  · exact (frmRead_counted hu).trans (frmCheck_counted h)

theorem frmRun_counted {s t : State} (h : frmRun s = .ok t) : CountedByLimit s t := by
  unfold frmRun at h
  split at h
  · cases h; exact .refl s
  · obtain ⟨u, hu, h⟩ := bind_ok h
    split at h
    · cases h; exact frmRead_counted hu
    · obtain ⟨v, hv, h⟩ := bind_ok h
      have huv := (frmRead_counted hu).trans (frmHeader_counted hv)
      split at h
      · exact huv.trans (frmBody_counted h)
      · cases h; exact huv
  · exact frmBody_counted h

theorem rdpktResume_counted {s t : State} (ho : s.op = .rdpkt) (h : rdpktResume s = .ok t) : CountedByLimit s t := by
  obtain ⟨u, hu, ⟨-, rfl⟩ | ⟨-, rfl⟩⟩ := rdpktResume_cases h
  · have hou : u.op = .rdpkt := by rw [frmRun_frame hu]; exact ho
    have hpolls : (rdpktDeliver u).polls = u.polls := by
      rw [polls_of_rdpkt hou, polls_of_rdpkt (s := rdpktDeliver u) hou]
      rfl
    exact (frmRun_counted hu).trans (.of_none rfl (performs_none rfl hpolls rfl))
  · exact frmRun_counted hu

/-! ## The wait -/

/-- An iteration polls once, and what the device sends during the sleep was still to come (R66, R166 to R168). -/
theorem polled_counted {s : State} (ht : s.tstate ≠ .idle) (hs : ¬ s.spent = true) : CountedByLimit s s.polled := by
  have hlog : s.polled.txlog = s.txlog := by simp [State.polled, txnTick, sleep]
  have hpolls : s.polled.polls = s.polls + 1 := by
    rw [polls_of_wait ht, polls_of_wait (by simpa using ht), polled_attempts]
  have hunread : s.unread = s.polled.unread := by
    cases hq : s.devq <;> simp [State.unread, State.polled, txnTick, sleep, hq, Nat.add_assoc]
  exact .of_one hs (by simp [State.polled, txnTick, sleep]) ⟨0, 1, 0, by rw [hlog]; rfl, hpolls, hunread, le_rfl⟩

/-- Delivering a result performs nothing (R171 to R173). -/
theorem txnDeliver_counted {s : State} (ht : s.tstate ≠ .idle) : CountedByLimit s (txnDeliver s) :=
  .of_none rfl (performs_none rfl (by rw [polls_of_wait ht, polls_of_free (s := txnDeliver s) rfl]; rfl) rfl)

theorem txnBudget_counted {s t : State} (ht : s.tstate ≠ .idle) (hn : txnLoop s = .ok t → CountedByLimit s t)
    (h : txnBudget txnLoop s = .ok t) : CountedByLimit s t := by
  rcases txnBudget_cases h with ⟨-, rfl⟩ | ⟨-, h⟩
  · have htimeout : CountedByLimit s (txnTimeout s) :=
      .of_none rfl (performs_none rfl (by rw [polls_of_wait ht, polls_of_wait (s := txnTimeout s) (by simp)]; rfl) rfl)
    exact htimeout.trans (txnDeliver_counted (by simp))
  · exact hn h

theorem txnFinishAttempt_counted {s t : State} (ht : s.tstate ≠ .idle)
    (hn : ∀ u, frmFrame s u → txnLoop u = .ok t → CountedByLimit u t) (h : txnFinishAttempt txnLoop s = .ok t) :
    CountedByLimit s t := by
  obtain ⟨u, hu, h⟩ := txnFinishAttempt_cases h
  have hf := frmRun_frame hu
  have htu : u.tstate ≠ .idle := by rw [hf]; exact ht
  refine (frmRun_counted hu).trans ?_
  rcases h with ⟨-, rfl⟩ | ⟨-, -, rfl⟩ | ⟨-, -, h⟩
  · exact .refl t
  · have hsuccess : CountedByLimit u (txnSuccess u) :=
      .of_none rfl (performs_none rfl (by rw [polls_of_wait htu, polls_of_wait (s := txnSuccess u) (by simp)]; rfl) rfl)
    exact hsuccess.trans (txnDeliver_counted (by simp))
  · exact txnBudget_counted htu (hn u hf) h

theorem txnLoop_counted {s t : State} (ht : s.tstate ≠ .idle) (h : txnLoop s = .ok t) : CountedByLimit s t := by
  induction hn : s.cfg.nAttempts - s.attempts using Nat.strong_induction_on generalizing s t with
  | _ n ih =>
    rcases txnLoop_cases h with rfl | ⟨hlt, hs, h⟩
    · exact .refl t
    · have htp : s.polled.tstate ≠ .idle := by simpa using ht
      refine (polled_counted ht hs).trans ?_
      rcases h with ⟨-, h⟩ | ⟨-, h⟩
      · have hstart : CountedByLimit s.polled (frmStart s.polled) := .of_none rfl (performs_none rfl rfl rfl)
        refine hstart.trans (txnFinishAttempt_counted htp (fun u hf hu => ?_) h)
        exact ih _ (by rw [hf]; simp; omega) (by rw [hf]; exact htp) hu rfl
      · exact txnBudget_counted htp (fun hu => ih _ (by simp; omega) htp hu rfl) h

/-! ## The transmit phase -/

theorem sentByte_counted {s : State} (b : Byte) (hs : ¬ s.spent = true) : CountedByLimit s (s.sentByte b) :=
  .of_one hs rfl ⟨1, 0, 0, by simp [State.sentByte], rfl, rfl, le_rfl⟩

theorem txnSend_counted {n : Nat} {s t : State} (h : txnSend n s = .ok t) : CountedByLimit s t := by
  induction n generalizing s with
  | zero => cases h; exact .refl t
  | succ n ih =>
    rcases txnSend_succ_cases h with rfl | ⟨b, hs, -, h⟩
    · exact .refl t
    · exact (sentByte_counted b hs).trans (ih h)

/-- The wait begins with no iteration counted (R165). -/
theorem txnTransmit_counted {s t : State} (hr : s.requesting) (ht : s.tstate = .idle) (h : txnTransmit s = .ok t) :
    CountedByLimit s t := by
  obtain ⟨u, hu, h⟩ := bind_ok h
  have hpolls : u.polls = 0 := by
    obtain ⟨cnt, sent, quota, rfl⟩ := txnSend_cases hu
    exact polls_of_transmitting hr ht
  split at h <;> cases h
  · exact txnSend_counted hu
  · have hawait : (txnAwait u).polls = u.polls := by
      rw [hpolls]
      exact polls_of_wait (s := txnAwait u) (by simp)
    exact (txnSend_counted hu).trans (.of_none rfl (performs_none rfl hawait rfl))

/-! ## An operation in progress goes on -/

theorem txnResume_counted {s t : State} (hr : s.requesting) (h : txnResume s = .ok t) : CountedByLimit s t := by
  rcases txnResume_cases h with ⟨hi, u, hu, h⟩ | ⟨-, ha, h⟩ | ⟨-, ha, h⟩ | ⟨hi, -, rfl⟩
  · have hsent := txnTransmit_counted hr hi hu
    rcases h with rfl | ⟨ha, h⟩
    · exact hsent
    · exact hsent.trans (txnLoop_counted (by simp [ha]) h)
  · exact txnLoop_counted (by simp [ha]) h
  · have hs : s.tstate ≠ .idle := by simp [ha]
    exact txnFinishAttempt_counted hs (fun u hf hu => txnLoop_counted (by rw [hf]; exact hs) hu) h
  · exact txnDeliver_counted hi

theorem proceed_counted {s t : State} (h : proceed s = .ok t) : CountedByLimit s t := by
  rcases proceed_cases h with rfl | ⟨-, ho, h⟩ | ⟨hr, h⟩
  · exact .refl t
  · exact rdpktResume_counted ho h
  · exact txnResume_counted hr h

/-! ## Acceptance -/

theorem execRdpkt_counted {s t : State} (h : exec .rdpkt s = .next t) : CountedByLimit s t := by
  obtain ⟨⟨hb, -, -⟩, h⟩ := execRdpkt_next h
  have hpolls : (frmStart (rdpktAccept s)).polls = s.polls := by
    rw [polls_of_free hb, polls_of_rdpkt (s := frmStart (rdpktAccept s)) rfl]
    rfl
  have hstart : CountedByLimit s (frmStart (rdpktAccept s)) := .of_none rfl (performs_none rfl hpolls rfl)
  exact hstart.trans (rdpktResume_counted rfl h)

theorem deliver_performs {bs : List Byte} {s t : State} {n : Nat} (hn : s.quota = some n)
    (h : deliver bs s = .next t) : (arrive bs s).performs t n :=
  (proceed_counted (deliver_next h)).performs hn

/-- What the two forms of a request that fits leave: its packet sent as far as the limit goes, or the wait gone on with. -/
theorem request_counted {o : Op} {isWrite : Bool} {cmd : Byte} {data : List Byte} {s t : State} (hs : s.atRest)
    (ho : o = .reqr ∨ o = .reqw) (hd : isWrite = false → data = []) (hm : data.length + 6 ≤ s.cfg.maxResponseSize)
    (h : txnRun o isWrite cmd data s = .ok t ∨ txnRequest o isWrite cmd data s = .ok t) :
    CountedByLimit (s.atFirstByte o isWrite cmd data) t := by
  obtain ⟨-, -, ht⟩ := hs
  have hsend {u : State} (hu : txnRequest o isWrite cmd data s = .ok u) :
      CountedByLimit (s.atFirstByte o isWrite cmd data) u := by
    rw [txnRequest_eq_atFirstByte hd hm] at hu
    exact txnTransmit_counted (requesting_atFirstByte s isWrite cmd data ho) (by simpa using ht) hu
  rcases h with h | h
  · obtain ⟨u, hu, h⟩ := bind_ok h
    exact (hsend hu).trans (proceed_counted h)
  · exact hsend h

/-- Up to its first byte a request performs its optional `ChFlush()` only, and has counted no iteration (R161 to R164). -/
theorem performs_atFirstByte {o : Op} {s : State} (isWrite : Bool) (cmd : Byte) (data : List Byte) (hs : s.atRest)
    (ho : o = .reqr ∨ o = .reqw) :
    State.performs { s with attempts := 0, rxq := if s.cfg.flushOnRequest then [] else s.rxq }
      (s.atFirstByte o isWrite cmd data) 0 := by
  obtain ⟨hb, -, ht⟩ := hs
  refine performs_none ?_ ?_ ?_
  · rw [State.atFirstByte, txnFlush_eq]
    rfl
  · rw [polls_of_transmitting (requesting_atFirstByte s isWrite cmd data ho) (by simpa using ht),
      polls_of_free]
    exact hb
  · by_cases hf : s.cfg.flushOnRequest = true <;>
      simp [State.unread, State.atFirstByte, txnFlush, State.signed, hf]

theorem quota_atFirstByte {s : State} {n : Nat} (o : Op) (isWrite : Bool) (cmd : Byte) (data : List Byte)
    (hn : s.quota = some n) :
    (s.atFirstByte o isWrite cmd data).quota = some (if s.cfg.flushOnRequest then n - 1 else n) := by
  by_cases hf : s.cfg.flushOnRequest = true <;> simp [State.atFirstByte, txnFlush, State.signed, hf, hn]

theorem request_performs {o : Op} {isWrite : Bool} {cmd : Byte} {data : List Byte} {s t : State} {n : Nat}
    (hn : s.quota = some n) (ho : o = .reqr ∨ o = .reqw) (hd : isWrite = false → data = [])
    (hm : data.length + 6 ≤ s.cfg.maxResponseSize) (hs : s.atRest)
    (h : txnRun o isWrite cmd data s = .ok t ∨ txnRequest o isWrite cmd data s = .ok t) :
    State.performs { s with attempts := 0, rxq := if s.cfg.flushOnRequest then [] else s.rxq } t
      (if s.cfg.flushOnRequest then n - 1 else n) := by
  have hrest := (request_counted hs ho hd hm h).performs (quota_atFirstByte o isWrite cmd data hn)
  exact performs_mono (performs_trans (performs_atFirstByte isWrite cmd data hs ho) hrest) (Nat.zero_add _).le

theorem violation_performs_none {s : State} (r : FaultReason) (hb : s.busy = false) : s.performs (violation r s) 0 :=
  performs_none_of_free hb rfl rfl rfl rfl

/-- A request turned away for its length performs nothing (R161). -/
theorem tooLong_performs_none {s t : State} {plen : BitVec 10} {cmd : Byte} {data : List Byte} {ck : Half}
    (hl : s.cfg.maxResponseSize < data.length + 6)
    (h : exec (.reqw cmd data) s = .next t ∨ exec (.pktWrreq plen cmd data ck) s = .next t) : s.performs t 0 := by
  have hlong : s.cfg.maxResponseSize - 5 < requestLen true data := by
    simp only [requestLen, if_true]
    omega
  have hreq := txnRequest_tooLong .reqw true cmd data s hlong
  have hfree : s.busy = false ∧ t = violation .requestTooLong s := by
    rcases h with h | h
    · obtain ⟨⟨hb, -, -⟩, h⟩ := execReqw_next h
      rw [txnRun, hreq, except_ok_bind, proceed_of_idle (s := violation .requestTooLong s) rfl] at h
      exact ⟨hb, (Except.ok.inj h).symm⟩
    · obtain ⟨⟨hb, -, -⟩, h⟩ := whenAtRest_next h
      exact ⟨hb, (Except.ok.inj (hreq.symm.trans h)).symm⟩
  obtain ⟨hb, rfl⟩ := hfree
  exact violation_performs_none _ hb

theorem execSdec_performs_none {s t : State} (h : exec .sdec s = .next t) : s.performs t 0 := by
  obtain ⟨hb, h⟩ := execSdec_next h
  have hf := sdecDecode_frame h
  refine performs_none_of_free hb (sdecDecode_busy h) ?_ ?_ ?_ <;> rw [hf] <;> rfl

/-- Settles O48: what goes on counts every primitive against the limit, acceptance adds the optional `ChFlush()`, and the
operations that end at once perform nothing. -/
theorem limitBoundsTheStep : Obligations.LimitBoundsTheStep := by
  refine ⟨fun s t n hn h => ?_, fun s t n p hn h => ?_, fun s t n f hn h => deliver_performs hn h,
    fun s t n plen cmd data ck hn hok hm h => ?_, fun s t plen cmd data ck hl h => tooLong_performs_none hl h,
    fun s t data h => ?_, fun s t h => ?_⟩
  · rcases h with h | h
    · exact (proceed_counted (execOpNone_next h)).performs hn
    · exact (execRdpkt_counted h).performs hn
  · rcases h with h | h
    · exact deliver_performs hn h
    · exact deliver_performs hn h
  · have h6 : ([] : List Byte).length + 6 ≤ s.cfg.maxResponseSize := six_le_of_ok hok
    rcases h with h | h | h | h
    · obtain ⟨hs, h⟩ := execReqr_next h
      exact request_performs hn (.inl rfl) (fun _ => rfl) h6 hs (.inl h)
    · obtain ⟨hs, h⟩ := execReqw_next h
      exact request_performs hn (.inr rfl) (by simp) hm hs (.inl h)
    · obtain ⟨hs, h⟩ := whenAtRest_next h
      exact request_performs hn (.inl rfl) (fun _ => rfl) h6 hs (.inr h)
    · obtain ⟨hs, h⟩ := whenAtRest_next h
      exact request_performs hn (.inr rfl) (by simp) hm hs (.inr h)
  · rcases h with h | h | h
    · obtain ⟨hb, rfl⟩ := execCks_next h
      exact performs_none_of_free hb rfl rfl rfl rfl
    · exact execSdec_performs_none h
    · obtain ⟨hb, rfl⟩ := execOpReserved_next h
      exact violation_performs_none _ hb
  · obtain ⟨hb, rfl⟩ := execFlush_next h
    exact performs_none_of_free hb rfl rfl rfl rfl

end Sys2Proof.Machine
end

section
/-! The decoder and the encoder undo each other (30_encoding R90 to R102, R106): for each part of the decoder, in the order of
the definitions, that it reads back what the encoder wrote, and that what it reads is what the encoder writes. -/

namespace Sys2Proof

open Machine

/-! ## Operations (R100, R101) -/

/-- An OPC byte that is read has its five upper bits zero, and the operands of an operation are all the bytes behind it. -/
theorem encode_of_decodeHostOp {bs : List Byte} {i : Instr} (h : decodeHostOp bs = .ok i) : encode i = bs := by
  cases bs with
  | nil => cases h
  | cons op rest =>
    have opcode {n : Nat} (hn : op.toNat = n) : op = BitVec.ofNat 8 n := by
      rw [← hn, BitVec.ofNat_toNat, BitVec.setWidth_eq]
    simp only [decodeHostOp] at h
    split at h
    -- The decoder's last row: no OPC, or bytes behind an operation that has no such operand.
    case h_11 => split at h <;> cases h
    all_goals cases h
    all_goals
      obtain rfl := opcode ‹op.toNat = _›
      rfl

/-! ## The header word (R97) -/

/-- Settles O4: the header word is R97's, its fields are the bits R97 names, and the examples are eight closed words. -/
theorem headerEncodeAndDecode : Obligations.HeaderEncodeAndDecode := by
  refine ⟨fun c p r => ⟨?_, hdrPlen_hdrWord .., hdrRw_hdrWord ..⟩,
    fun h => ⟨BitVec.setWidth_ushiftRight_eq_extractLsb, rfl⟩, fun c hc => ?_⟩
  · cases r <;> rfl
  · have hword (p : BitVec 10) (r : Bool) : hdrEncode c p r = hdrWord p 0 r := by rw [hdrEncode, hc]
    simp only [hword]
    decide

@[simp] theorem Packet.hdrPlen_hdr (p : Packet) : hdrPlen p.hdr = p.plen := hdrPlen_hdrWord ..

@[simp] theorem Packet.hdrReserved_hdr (p : Packet) : hdrReserved p.hdr = p.reserved := hdrReserved_hdrWord ..

@[simp] theorem Packet.hdrRw_hdr (p : Packet) : hdrRw p.hdr = p.rw := hdrRw_hdrWord ..

/-! ## The bytes of a packet (R90, R92, R95) -/

theorem splitTail_zero (k0 k1 : Byte) : splitTail 0 [k0, k1] = .ok ([], le16 k0 k1) := rfl

theorem splitTail_succ (n : Nat) (b : Byte) (bs : List Byte) :
    splitTail (n + 1) (b :: bs) = match splitTail n bs with
      | .ok (data, ck) => .ok (b :: data, ck)
      | .error e => .error e := rfl

theorem splitTail_append (data : List Byte) (ck : Half) :
    splitTail data.length (data ++ [lo8 ck, hi8 ck]) = .ok (data, ck) := by
  induction data with
  | nil => simp [splitTail_zero]
  | cons b data ih => rw [List.length_cons, List.cons_append, splitTail_succ, ih]

theorem eq_append_of_splitTail {n : Nat} {bs data : List Byte} {ck : Half} (h : splitTail n bs = .ok (data, ck)) :
    data.length = n ∧ bs = data ++ [lo8 ck, hi8 ck] := by
  induction n generalizing bs data with
  | zero =>
    match bs, h with
    | [k0, k1], h => cases h; simp
  | succ n ih =>
    cases bs with
    | nil => cases h
    | cons b bs =>
      rw [splitTail_succ] at h
      split at h <;> cases h
      obtain ⟨hlen, hbs⟩ := ih ‹_›
      exact ⟨congrArg (· + 1) hlen, congrArg (b :: ·) hbs⟩

theorem Packet.bytes_eq (p : Packet) :
    p.bytes = startByte :: lo8 p.hdr :: hi8 p.hdr :: p.cmd :: (p.data ++ [lo8 p.ck, hi8 p.ck]) := rfl

theorem parsePacket_bytes {p : Packet} (h : p.data.length = p.plen.toNat - 1) : parsePacket p.bytes = .ok p := by
  have htail := splitTail_append p.data p.ck
  rw [h] at htail
  simp [p.bytes_eq, parsePacket, htail]

/-- The header's three fields are all of its bits, so a packet that is read has the bytes it was read from. -/
theorem bytes_of_parsePacket {bs : List Byte} {p : Packet} (h : parsePacket bs = .ok p) :
    p.bytes = bs ∧ p.data.length = p.plen.toNat - 1 := by
  unfold parsePacket at h
  split at h
  · rename_i st b1 b2 cmd rest
    split at h
    · rename_i hst
      dsimp only at h
      split at h <;> cases h
      obtain ⟨hlen, hrest⟩ := eq_append_of_splitTail ‹_›
      exact ⟨by simp [Packet.bytes_eq, Packet.hdr, hst, hrest], hlen⟩
    · cases h
  · cases h

/-! ## Well-formed packets (R92, R95, R102) -/

theorem Packet.wf_iff {c : Cfg} {p : Packet} :
    p.wf c = true
      ↔ p.lenOk = true ∧ p.plen.toNat + 5 ≤ c.maxResponseSize ∧ p.ck = cks (packetHead p.hdr p.payload) := by
  simp [Packet.wf, Packet.fits, Packet.ckOk, and_assoc]

theorem Packet.lenOk_of_wf {c : Cfg} {p : Packet} (h : p.wf c = true) : p.lenOk = true := (wf_iff.mp h).1

theorem Packet.payload_length_of_lenOk {p : Packet} (h : p.lenOk = true) : p.plen.toNat = p.payload.length :=
  beq_iff_eq.mp h

/-- PLEN counts the command identifier and the data (R92). -/
theorem Packet.data_length_of_lenOk {p : Packet} (h : p.lenOk = true) : p.data.length = p.plen.toNat - 1 := by
  have hlen : p.plen.toNat = p.data.length + 1 := payload_length_of_lenOk h
  omega

theorem stream_wf_iff {c : Cfg} {f : StreamPacket} :
    (Instr.pktStream f).wf c = true ↔ f.idOk c = true ∧ f.countOk = true ∧ f.packet.wf c = true := by
  simp [Instr.wf, and_assoc]

/-! ## A stream frame's fields (R106, R107) -/

theorem splitSamples_append (ds : List Half) (extra : List Byte) :
    splitSamples ds.length (sampleBytes ds ++ extra) = .ok (ds, extra) := by
  induction ds with
  | nil => rfl
  | cons d ds ih => simp [sampleBytes, splitSamples, ih]

theorem eq_append_of_splitSamples {k : Nat} {bs extra : List Byte} {ds : List Half}
    (h : splitSamples k bs = .ok (ds, extra)) : bs = sampleBytes ds ++ extra := by
  fun_induction splitSamples k bs generalizing ds with
  | case1 bs => cases h; rfl
  | case2 k b0 b1 bs ds' rest hsamples ih =>
    cases h
    simp [sampleBytes, ← ih hsamples]
  | case3 => cases h
  | case4 => cases h

theorem toStream_packet {f : StreamPacket} (h : f.countOk = true) : f.packet.toStream = .ok f := by
  have hcount : f.count.toNat = f.dist.length := beq_iff_eq.mp h
  simp [StreamPacket.packet, StreamPacket.data, Packet.toStream, hcount, splitSamples_append]

theorem packet_of_toStream {p : Packet} {f : StreamPacket} (h : p.toStream = .ok f) : f.packet = p := by
  unfold Packet.toStream at h
  split at h
  · split at h <;> cases h
    rename_i hdata _ _ _ hsamples
    obtain ⟨rw, reserved, plen, cmd, data, ck⟩ := p
    subst hdata
    simp [StreamPacket.packet, StreamPacket.data, eq_append_of_splitSamples hsamples]
  · cases h

/-! ## The kinds of packet (R102) -/

/-- The row of a request drops no field: the reserved bits are 0, and the data of a read request is empty. -/
theorem encode_of_toRequest {p : Packet} {i : Instr} (hlen : p.data.length = p.plen.toNat - 1)
    (h : p.toRequest = .ok i) : encode i = p.bytes := by
  obtain ⟨rw, reserved, plen, cmd, data, ck⟩ := p
  unfold Packet.toRequest at h
  dsimp only at h hlen
  split at h
  · subst reserved
    cases rw with
    | true => cases h; rfl
    | false =>
      simp only [Bool.false_eq_true, if_false] at h
      split at h <;> cases h
      subst plen
      obtain rfl : data = [] := List.eq_nil_of_length_eq_zero hlen
      rfl
  · cases h

theorem classify_response (p : Packet) (stream : Option Byte) : p.classify (some p.cmd) stream = .pktResp p := if_pos rfl

theorem classify_stream {f : StreamPacket} (h : f.countOk = true) :
    f.packet.classify none (some f.id) = .pktStream f := by
  have hid : some f.id = some f.packet.cmd := rfl
  unfold Packet.classify
  rw [if_neg (by simp), if_pos hid, toStream_packet h]

/-- Whichever row a received packet is read as, the row keeps all of its fields. -/
theorem encode_classify (awaited stream : Option Byte) (p : Packet) : encode (p.classify awaited stream) = p.bytes := by
  unfold Packet.classify
  split
  · rfl
  · split
    · split
      · exact congrArg Packet.bytes (packet_of_toStream ‹_›)
      · rfl
    · rfl

/-! ## Whole instructions -/

theorem decode_tx_bytes {p : Packet} (h : p.lenOk = true) : decode .tx p.bytes = p.toRequest := by
  simp [decode, parsePacket_bytes (Packet.data_length_of_lenOk h)]

theorem decode_rx_bytes (awaited stream : Option Byte) {p : Packet} (h : p.lenOk = true) :
    decode (.rx awaited stream) p.bytes = .ok (p.classify awaited stream) := by
  simp [decode, parsePacket_bytes (Packet.data_length_of_lenOk h)]

/-- Settles O1: an operation is read back by evaluation; a packet is read back from its bytes and put in its own row. -/
theorem decodeReadsBackEveryEncoding : Obligations.DecodeReadsBackEveryEncoding := by
  intro c i h
  cases i with
  | cks data => rfl
  | rdpkt => rfl
  | reqr cmd => rfl
  | reqw cmd data => rfl
  | sdec => rfl
  | flush => rfl
  | opNone => rfl
  | opReserved => rfl
  | pkt p => exact decode_rx_bytes none none (Packet.lenOk_of_wf h)
  | pktRdreq cmd ck => exact decode_tx_bytes (Packet.lenOk_of_wf (Bool.and_eq_true_iff.mp h).2)
  | pktWrreq plen cmd data ck => exact decode_tx_bytes (Packet.lenOk_of_wf (Bool.and_eq_true_iff.mp h).2)
  | pktResp p => exact (decode_rx_bytes _ _ (Packet.lenOk_of_wf h)).trans (congrArg _ (classify_response p none))
  | pktStream f =>
    obtain ⟨-, hcount, hwf⟩ := stream_wf_iff.mp h
    exact (decode_rx_bytes _ _ (Packet.lenOk_of_wf hwf)).trans (congrArg _ (classify_stream hcount))

/-- Settles O2: each side reads an operation or a packet, and no row drops a field. -/
theorem encodeGivesBackDecodedBytes : Obligations.EncodeGivesBackDecodedBytes := by
  intro side bs i h
  cases side with
  | host => exact encode_of_decodeHostOp h
  | tx =>
    simp only [decode] at h
    split at h
    · obtain ⟨hbytes, hlen⟩ := bytes_of_parsePacket ‹_›
      exact (encode_of_toRequest hlen h).trans hbytes
    · cases h
  | rx awaited stream =>
    simp only [decode] at h
    split at h <;> cases h
    obtain ⟨hbytes, -⟩ := bytes_of_parsePacket ‹_›
    exact (encode_classify awaited stream _).trans hbytes

/-- Settles O3: each word is short and closed, and the decoder evaluates on it. -/
theorem specWordsDecode : Obligations.SpecWordsDecode :=
  ⟨rfl, rfl, rfl, rfl, rfl, rfl, rfl, rfl, rfl, rfl, rfl, rfl, rfl, rfl⟩

end Sys2Proof
end

section
/-! What the host presents that selects no operation: the two codes of 30_encoding R101 (60_exceptions R236), and bytes that
the decoder does not read (log 6). -/

namespace Sys2Proof.Machine

theorem violation_of_idle {s : State} (r : FaultReason) (h : s.busy = false) : violation r s = s.violated r := by
  rw [violation, State.violated, ← h]

theorem exec_opReserved_of_idle {s : State} (h : s.busy = false) : exec .opReserved s = .next (s.violated .badOp) := by
  show whenIdle s (.ok (violation .badOp s)) = _
  rw [whenIdle_of h, violation_of_idle _ h]
  rfl

/-- Settles O42: nothing goes on in an idle engine, and the reserved code only records its violation. -/
theorem codesThatSelectNoOperation : Obligations.CodesThatSelectNoOperation :=
  ⟨rfl, rfl, fun _ h => ⟨exec_opNone_of_idle h, exec_opReserved_of_idle h⟩⟩

theorem fetch_of_badWord {s : State} {w : List Byte} {ws : List (List Byte)} {e : DecodeError} (hb : s.busy = false)
    (hp : s.port = w :: ws) (hd : decodePort w = .error e) : fetch s = .error e := by
  simp [fetch, fetchPort, hb, hp, hd]

/-- Settles O60: the host has a move, and the fetch fails with the decoder's reason. -/
theorem stepRefusesBytesThatAreNoOperation : Obligations.StepRefusesBytesThatAreNoOperation := by
  intro s w ws e hr hb hp hd
  have hfetch : fetch s.entered = .error e := fetch_of_badWord (by simpa using hb) (by simpa using hp) hd
  simp only [step_of_running hr, runStep, hfetch]

end Sys2Proof.Machine
end

section
/-! A well-formed packet on its way from the wire into RXBUF (41_framer R140 to R151), and a stream frame's further way into
the SF registers (44_host_ops R213). -/

namespace Sys2Proof.Machine

theorem legalPlen_of_wf {c : Cfg} {p : Packet} (h : p.wf c = true) : legalPlen c p.plen := by
  obtain ⟨hlen, hfits, -⟩ := Packet.wf_iff.mp h
  have hpos : 1 ≤ p.plen.toNat := Packet.payload_length_of_lenOk hlen ▸ Nat.succ_pos _
  exact ⟨hpos, by omega⟩

/-- An attempt that has just started, with a packet the framer accepts at the head of RXQ, frames it and consumes exactly
its bytes (R140, R142 to R147, R151). -/
theorem frmRun_of_wf {s : State} {p : Packet} {rest : List Byte} (hs : s.fstate = .head) (hb : s.rxbuf = [])
    (hc : s.rxcnt = 0) (hu : s.unlimited) (hm : 6 ≤ s.cfg.maxResponseSize) (hp : p.wf s.cfg = true)
    (hq : s.rxq = p.bytes ++ rest) : frmRun s = .ok { s.framed p with rxq := rest, rxShown := s.rxShown } := by
  obtain ⟨hlenOk, -, hck⟩ := Packet.wf_iff.mp hp
  have hlen := Packet.payload_length_of_lenOk hlenOk
  rw [frmRun_packet s p.hdr p.ck p.payload rest hs hb hc hq (by simpa using hlen)
    (by simpa using legalPlen_of_wf hp) hm hu]
  simp [State.framed, Packet.bytes, ← hck, hlen]

/-- A packet the framer accepts, arriving while RDPKT waits for its first byte, is framed and handed over (R140, R149). -/
theorem deliver_to_waitingRdpkt {s : State} {p : Packet} (hs : s.waitingRdpkt) (hok : s.cfg.ok = true)
    (hp : p.wf s.cfg = true) : deliver p.bytes s = .next ((s.framed p).rdpktEnded .packet) := by
  obtain ⟨hbusy, hop, hhead, hcnt, hbuf, hq, -, -, hcrc, hu⟩ := hs
  have hrun : frmRun (arrive p.bytes s)
      = .ok { (arrive p.bytes s).framed p with rxq := [], rxShown := s.rxShown } :=
    frmRun_of_wf hhead hbuf hcnt hu (six_le_of_ok hok) hp (by simp [hq])
  rw [deliver, proceed_of_rdpkt (by simpa using hbusy) (by simpa using hop), rdpktResume_of_frmRun hrun]
  simp [outcome, rdpktDeliver, finish, State.framed, State.rdpktEnded, arrive, hop, hq, hcrc]

/-- The packet that was framed is the valid packet in RXBUF (10_state R24, R43). -/
theorem packet_framed {s : State} {p : Packet} (hp : p.wf s.cfg = true) : (s.framed p).packet = some p.bytes := by
  obtain ⟨hlenOk, hfits, -⟩ := Packet.wf_iff.mp hp
  have hbytes : p.bytes.length = p.plen.toNat + 5 := by
    rw [Packet.payload_length_of_lenOk hlenOk, Packet.bytes, packetBytes_length]
  have hslice : bufSlice s.cfg (Mem.ofBytes p.bytes) 0 (p.plen.toNat + 5) = .ok p.bytes := by
    rw [bufSlice_ofBytes _ _ _ (by omega) (by omega), List.drop_zero, List.take_of_length_le hbytes.le]
  simp [State.packet, State.rxBytes, State.framed, hslice]

/-- Settles O32: the frame is framed as any packet is, and is then the packet in RXBUF that SDEC decodes. -/
theorem pktStreamIsFramedAndDecoded : Obligations.PktStreamIsFramedAndDecoded := by
  intro s f hs hok hl hwf hcap
  obtain ⟨hid, hcount, hp⟩ := stream_wf_iff.mp hwf
  have hpacket : ((s.framed f.packet).rdpktEnded .packet).packet = some f.packet.bytes := packet_framed hp
  have hdecoded := sdecDecodesAFrame ((s.framed f.packet).rdpktEnded .packet) f rfl hl rfl hpacket
    (Packet.lenOk_of_wf hp) hcount hid hcap
  exact ⟨deliver_to_waitingRdpkt hs hok hp, hdecoded.1⟩

end Sys2Proof.Machine
end

section
/-! The checksum engine (40_checksum R120 to R125): eight bits of the division by the generator as one XOR of what was
shifted out, how far one step of the checksum is that, what the fold keeps, and what the operation CKS writes. -/

namespace Sys2Proof.Machine

/-! ## Shifts and the bytes of a half -/

/-- The next `k` bits shifted out of `r` after `n` bits, joined to those: `n + k` bits shifted out at once. -/
theorem bits_shifted_out_add {n k : Nat} (h : n + k ≤ 16) (r : Half) :
    (r >>> (16 - n)) <<< k ^^^ (r <<< n) >>> (16 - k) = r >>> (16 - (n + k)) := by
  apply BitVec.eq_of_getLsbD_eq
  intro i hi
  simp only [BitVec.getLsbD_xor, BitVec.getLsbD_ushiftRight, BitVec.getLsbD_shiftLeft, hi]
  by_cases hik : i < k
  · have hidx : 16 - k + i - n = 16 - (n + k) + i := by omega
    simp [hik, hidx, show 16 - k + i < 16 by omega, show ¬ 16 - k + i < n by omega]
  · have hidx : 16 - n + (i - k) = 16 - (n + k) + i := by omega
    simp [hik, hidx, show ¬ 16 - k + i < 16 by omega]

theorem setWidth_hi8 (v : Half) : (hi8 v).setWidth 16 = v >>> 8 := by
  apply BitVec.eq_of_toNat_eq
  simp only [hi8, BitVec.toNat_setWidth, BitVec.toNat_ushiftRight, Nat.shiftRight_eq_div_pow]
  omega

@[simp] theorem hi8_xor (v w : Half) : hi8 (v ^^^ w) = hi8 v ^^^ hi8 w := by
  simp only [hi8, BitVec.ushiftRight_xor_distrib, BitVec.setWidth_xor]

@[simp] theorem hi8_shiftLeft_8 (v : Half) : hi8 (v <<< 8) = lo8 v := by
  apply BitVec.eq_of_getLsbD_eq
  intro i hi
  simp only [hi8, lo8, BitVec.getLsbD_setWidth, BitVec.getLsbD_ushiftRight, BitVec.getLsbD_shiftLeft]
  simp [show 8 + i < 16 by omega]

theorem shiftLeft_8_shiftLeft_8 (v : Half) : v <<< 8 <<< 8 = 0#16 := by
  rw [← BitVec.shiftLeft_add]
  exact BitVec.shiftLeft_eq_zero (by decide)

/-! ## The generator of R124 -/

/-- `y` times `x^12 + x^5 + 1`, which is what `x^16` leaves on division by the generator `0x1021` (R124). -/
def crcSpread (y : Half) : Half := y ^^^ (y <<< 5) ^^^ (y <<< 12)

theorem crcSpread_xor (y z : Half) : crcSpread (y ^^^ z) = crcSpread y ^^^ crcSpread z := by
  simp only [crcSpread, BitVec.shiftLeft_xor_distrib]
  ac_rfl

theorem crcSpread_shiftLeft (y : Half) (n : Nat) : crcSpread (y <<< n) = crcSpread y <<< n := by
  simp only [crcSpread, BitVec.shiftLeft_xor_distrib, ← BitVec.shiftLeft_add, Nat.add_comm]

/-- Of a nibble's product only the term of `x^12` reaches the top four bits. -/
theorem crcSpread_ushiftRight_12 {y : Half} (h : y.toNat < 2 ^ 4) : crcSpread y >>> 12 = y := by
  have hzero : ∀ i, 4 ≤ i → y.getLsbD i = false := fun i hi =>
    Nat.testBit_lt_two_pow (h.trans_le (Nat.pow_le_pow_right (by decide) hi))
  apply BitVec.eq_of_getLsbD_eq
  intro i hi
  simp only [crcSpread, BitVec.getLsbD_ushiftRight, BitVec.getLsbD_xor, BitVec.getLsbD_shiftLeft,
    hzero (12 + i) (by omega), hzero (12 + i - 5) (by omega)]
  by_cases hi4 : i < 4
  · simp [show 12 + i < 16 by omega]
  · simp [show ¬ 12 + i < 16 by omega, hzero i (by omega)]

/-! ## Several bits of the division at once -/

/-- `n` bits of the division, taken as if what comes back for the bits shifted out were not shifted out again. -/
def crcShift (n : Nat) (r : Half) : Half := (r <<< n) ^^^ crcSpread (r >>> (16 - n))

theorem crcShift_zero (r : Half) : crcShift 0 r = r := by
  simp [crcShift, crcSpread, BitVec.ushiftRight_eq_zero]

theorem crcBit_eq_crcShift (r : Half) : crcBit r = crcShift 1 r := by
  have hout : r >>> 15 = (BitVec.ofBool (r.getLsbD 15)).setWidth 16 := by
    apply BitVec.eq_of_getLsbD_eq
    intro i hi
    cases i with
    | zero => simp
    | succ i => simp [BitVec.getLsbD_of_ge r (15 + (i + 1)) (by omega)]
  rw [crcBit, crcShift, hout]
  cases r.getLsbD 15 <;> simp [crcSpread]

/-- Two shifts of at most a nibble are one, but for the bits that come back for the first and leave in the second. -/
theorem crcShift_crcShift {n k : Nat} (hn : n ≤ 4) (hk : k ≤ 4) (r : Half) :
    crcShift k (crcShift n r) = crcShift (n + k) r ^^^ crcSpread (r >>> (16 - n) >>> (4 - k)) := by
  have hnibble : (r >>> (16 - n)).toNat < 2 ^ 4 :=
    (BitVec.toNat_ushiftRight_lt r (16 - n) (by omega)).trans_le (Nat.pow_le_pow_right (by decide) (by omega))
  have hagain : crcSpread (r >>> (16 - n)) >>> (16 - k) = r >>> (16 - n) >>> (4 - k) := by
    rw [show 16 - k = 12 + (4 - k) by omega, BitVec.shiftRight_add, crcSpread_ushiftRight_12 hnibble]
  simp only [crcShift]
  rw [← bits_shifted_out_add (by omega), BitVec.shiftLeft_xor_distrib, BitVec.ushiftRight_xor_distrib, hagain,
    crcSpread_xor, crcSpread_xor, crcSpread_shiftLeft, BitVec.shiftLeft_add]
  ac_rfl

/-- Up to a nibble no bit that comes back is shifted out again. -/
theorem crcBit_iterate_eq_crcShift {n : Nat} (hn : n ≤ 4) (r : Half) : crcBit^[n] r = crcShift n r := by
  induction n with
  | zero => exact (crcShift_zero r).symm
  | succ n ih =>
    have hout : r >>> (16 - n) >>> (4 - 1) = 0#16 := by
      rw [← BitVec.shiftRight_add]
      exact BitVec.ushiftRight_eq_zero (by omega)
    rw [Function.iterate_succ_apply', ih (by omega), crcBit_eq_crcShift, crcShift_crcShift (by omega) (by decide), hout]
    exact BitVec.xor_zero

/-- What comes back for a byte shifted out: the high nibble's share is shifted out once more (R120). -/
def crcFeedback (x : Byte) : Half := crcSpread ((x ^^^ (x >>> 4)).setWidth 16)

@[simp] theorem crcFeedback_zero : crcFeedback 0#8 = 0#16 := rfl

/-- A byte of the division, as two nibbles. -/
theorem crcBit_iterate_eight (r : Half) : crcBit^[8] r = (r <<< 8) ^^^ crcFeedback (hi8 r) := by
  calc crcBit^[8] r = crcBit^[4] (crcBit^[4] r) := rfl
    _ = crcShift 4 (crcShift 4 r) := by simp only [crcBit_iterate_eq_crcShift (le_refl 4)]
    _ = crcShift 8 r ^^^ crcSpread (r >>> 8 >>> 4) := by
      rw [crcShift_crcShift (le_refl 4) (le_refl 4), ← BitVec.shiftRight_add]
      rfl
    _ = (r <<< 8) ^^^ crcFeedback (hi8 r) := by
      rw [crcFeedback, BitVec.setWidth_xor, BitVec.setWidth_ushiftRight (by decide), setWidth_hi8, crcSpread_xor,
        ← BitVec.xor_assoc]
      rfl

/-! ## One step of the checksum -/

/-- The pseudocode of R120: the high byte XORed with the data leaves the register and comes back. -/
theorem cksStep_eq (crc : Half) (b : Byte) : cksStep crc b = (crc <<< 8) ^^^ crcFeedback (hi8 crc ^^^ b) := by
  simp only [cksStep, crcFeedback, crcSpread, BitVec.setWidth_xor, setWidth_hi8, ← BitVec.shiftLeft_add,
    BitVec.setWidth_ushiftRight (show 8 ≤ 16 by decide), BitVec.xor_assoc]

/-- Settles O6: the step is the shifted register XORed with what comes back for `x`, written out. -/
theorem checksumStepClosedForm : Obligations.ChecksumStepClosedForm := by
  intro crc b x y
  rw [cksStep_eq, crcFeedback, crcSpread, ← BitVec.xor_assoc, ← BitVec.xor_assoc]

/-- The bit-serial form of R124: the byte XORed in reaches only the high byte, and that leaves the register. -/
theorem crcByte_eq (crc : Half) (b : Byte) : crcByte crc b = (crc <<< 8) ^^^ crcFeedback (hi8 crc ^^^ b) := by
  calc crcByte crc b = crcBit^[8] (crc ^^^ (b.setWidth 16 <<< 8)) := rfl
    _ = (crc <<< 8) ^^^ crcFeedback (hi8 crc ^^^ b) := by
      rw [crcBit_iterate_eight, BitVec.shiftLeft_xor_distrib, shiftLeft_8_shiftLeft_8, BitVec.xor_zero, hi8_xor,
        hi8_shiftLeft_8, lo8_setWidth]

theorem cksStep_eq_crcByte (crc : Half) (b : Byte) : cksStep crc b = crcByte crc b :=
  (cksStep_eq crc b).trans (crcByte_eq crc b).symm

/-- Settles O5: the steps agree by the closed form of both; the check value and a datum whose residue is not zero are
closed runs of the fold. -/
theorem checksumStepIsBitSerialDivision : Obligations.ChecksumStepIsBitSerialDivision :=
  ⟨cksStep_eq_crcByte, by decide, [0x01], by decide⟩

/-! ## The fold -/

theorem cks_append (s t : List Byte) : cks (s ++ t) = t.foldl cksStep (cks s) := List.foldl_append

theorem cks_zero_cons (s : List Byte) : cks (0 :: s) = cks s := by
  have hstep : cksStep 0 0 = 0 := by decide
  rw [cks, cks, List.foldl_cons, hstep]

/-- A data byte equal to the high byte of the register only shifts the register. -/
theorem cksStep_hi8 (crc : Half) : cksStep crc (hi8 crc) = crc <<< 8 := by
  simp [cksStep_eq]

theorem cks_append_own_checksum (s : List Byte) : cks (s ++ [hi8 (cks s), lo8 (cks s)]) = 0 := by
  calc cks (s ++ [hi8 (cks s), lo8 (cks s)])
    _ = cksStep (cksStep (cks s) (hi8 (cks s))) (lo8 (cks s)) := cks_append _ _
    _ = cksStep (cks s <<< 8) (hi8 (cks s <<< 8)) := by rw [cksStep_hi8, hi8_shiftLeft_8]
    _ = cks s <<< 8 <<< 8 := cksStep_hi8 _
    _ = 0 := shiftLeft_8_shiftLeft_8 _

/-- Settles O7: a fold over a concatenation; a zero byte leaves zero; and the checksum's own bytes shift it out. -/
theorem checksumFoldLaws : Obligations.ChecksumFoldLaws :=
  ⟨cks_append, cks_zero_cons, cks_append_own_checksum⟩

/-! ## The operation CKS -/

theorem exec_cks_of_idle {s : State} (h : s.busy = false) (data : List Byte) :
    exec (.cks data) s = .next (finish (cksUpdate data (accept .cks s))) :=
  whenIdle_of h

/-- Settles O8: acceptance and end leave BUSY as it was, and between them only CRC is written. -/
theorem cksWritesOnlyTheChecksum : Obligations.CksWritesOnlyTheChecksum := by
  intro s data h
  have hend : finish (cksUpdate data (accept .cks s)) =
      { s with crc := cks data, op := .cks, handed := true, crcShown := true } := by
    simp [finish, cksUpdate, accept, h]
  exact ⟨true, true, by rw [exec_cks_of_idle h, hend, cks]⟩

end Sys2Proof.Machine
end

section
/-! RDPKT from acceptance to its end or its hold (41_framer R140 to R153): how a framing attempt that has just started goes,
what RDPKT makes of it, the way of a request's packet back into RXBUF, and when a unit is not at rest. -/

namespace Sys2Proof.Machine

/-! ## How an attempt goes -/

theorem frmRun_of_body {s : State} (h : s.fstate = .body) : frmRun s = frmBody s := by
  simp [frmRun, h]

/-- `s` with the three bytes of an attempt's head in RXBUF and `rest` still to be read (R142). -/
def State.withHead (s : State) (b0 b1 b2 : Byte) (rest : List Byte) : State :=
  { s with rxbuf := Mem.ofBytes [b0, b1, b2], rxcnt := 3, rxq := rest }

/-- `s` in the body phase, with a good head and the fields decoded from it (R144, R145). -/
def State.withGoodHead (s : State) (b1 b2 : Byte) (rest : List Byte) : State :=
  { s.withHead startByte b1 b2 rest with
    plen := hdrPlen (le16 b1 b2), rw := hdrRw (le16 b1 b2), fstate := .body }

@[simp] theorem withHead_cfg (s : State) (b0 b1 b2 : Byte) (rest : List Byte) :
    (s.withHead b0 b1 b2 rest).cfg = s.cfg := rfl

/-- An attempt in its head phase takes what it lacks of its three bytes from RXQ and tests them (R142 to R145). -/
theorem frmRun_of_head {s : State} {pre rest : List Byte} {b0 b1 b2 : Byte} (hm : 3 ≤ s.cfg.maxResponseSize)
    (hs : s.fstate = .head) (hu : s.unlimited) (hb : s.rxbuf = Mem.ofBytes pre) (hc : s.rxcnt = pre.length)
    (hpre : pre.length ≤ 3) (hq : pre ++ s.rxq = b0 :: b1 :: b2 :: rest) :
    frmRun s = frmHeader (s.withHead b0 b1 b2 rest) >>= fun t => if t.fstate = .body then frmBody t else .ok t := by
  have hlen : pre.length + s.rxq.length = rest.length + 3 := by simpa using congrArg List.length hq
  have htake : pre ++ s.rxq.take (3 - pre.length) = [b0, b1, b2] := by
    simpa [List.take_append, List.take_of_length_le hpre] using congrArg (List.take 3) hq
  have hdrop : s.rxq.drop (3 - pre.length) = rest := by
    simpa [List.drop_append, List.drop_eq_nil_of_le hpre] using congrArg (List.drop 3) hq
  rw [frmRun_head_full s pre hs hb hc hpre (by omega) hm hu, htake, hdrop]
  rfl

/-- A wrong first byte ends an attempt at its third byte, however many of the three it held (R143, R153). -/
theorem frmRun_badStart {s : State} {pre rest : List Byte} {b0 b1 b2 : Byte} (hm : 3 ≤ s.cfg.maxResponseSize)
    (hs : s.fstate = .head) (hu : s.unlimited) (hb : s.rxbuf = Mem.ofBytes pre) (hc : s.rxcnt = pre.length)
    (hpre : pre.length ≤ 3) (h0 : b0 ≠ startByte) (hq : pre ++ s.rxq = b0 :: b1 :: b2 :: rest) :
    frmRun s = .ok (frmEnd .badStartByte (s.withHead b0 b1 b2 rest)) := by
  rw [frmRun_of_head hm hs hu hb hc hpre hq, frmHeader_badStart (s.withHead b0 b1 b2 rest) b0 b1 b2 hm rfl h0,
    except_ok_bind, if_neg (by simp)]

theorem legalPlen_of_fits {c : Cfg} {p : Packet} (hlen : p.lenOk = true) (hfits : p.fits c = true) :
    legalPlen c p.plen := by
  have hpos : 1 ≤ p.plen.toNat := Packet.payload_length_of_lenOk hlen ▸ Nat.succ_pos _
  have hmax : p.plen.toNat + 5 ≤ c.maxResponseSize := of_decide_eq_true hfits
  exact ⟨hpos, by omega⟩

section Started

variable {s : State} (hu : s.unlimited) (hm : 6 ≤ s.cfg.maxResponseSize)
include hu hm

/-- A length out of range ends the attempt at its third byte (R145). -/
theorem frmRun_start_invalidLength {b1 b2 : Byte} {rest : List Byte} (hl : ¬ legalPlen s.cfg (hdrPlen (le16 b1 b2)))
    (hq : s.rxq = startByte :: b1 :: b2 :: rest) :
    frmRun (frmStart s) = .ok { s.misframed .invalidLength [startByte, b1, b2] with
      rxq := rest, plen := hdrPlen (le16 b1 b2), rw := hdrRw (le16 b1 b2) } := by
  have h3 : 3 ≤ (frmStart s).cfg.maxResponseSize := Nat.le_trans (by decide) hm
  rw [frmRun_of_head (pre := []) h3 rfl hu rfl rfl (by decide) hq,
    frmHeader_good ((frmStart s).withHead startByte b1 b2 rest) b1 b2 h3 rfl, withHead_cfg, frmStart_cfg, if_neg hl,
    except_ok_bind, if_neg (by simp)]
  rfl

/-- A good head takes the attempt to its body phase (R144, R145). -/
theorem frmRun_start_goodHead {b1 b2 : Byte} {rest : List Byte} (hl : legalPlen s.cfg (hdrPlen (le16 b1 b2)))
    (hq : s.rxq = startByte :: b1 :: b2 :: rest) :
    frmRun (frmStart s) = frmRun ((frmStart s).withGoodHead b1 b2 rest) := by
  have h3 : 3 ≤ (frmStart s).cfg.maxResponseSize := Nat.le_trans (by decide) hm
  rw [frmRun_of_head (pre := []) h3 rfl hu rfl rfl (by decide) hq,
    frmHeader_good ((frmStart s).withHead startByte b1 b2 rest) b1 b2 h3 rfl, withHead_cfg, frmStart_cfg, if_pos hl,
    except_ok_bind, if_pos rfl, frmRun_of_body (s := (frmStart s).withGoodHead b1 b2 rest) rfl]
  rfl

/-- A wrong checksum ends the attempt behind the packet's last byte (R147). -/
theorem frmRun_start_checksumMismatch {p : Packet} {rest : List Byte} (hlenOk : p.lenOk = true)
    (hfits : p.fits s.cfg = true) (hck : p.ck ≠ cks (packetHead p.hdr p.payload)) (hq : s.rxq = p.bytes ++ rest) :
    frmRun (frmStart s) = .ok { s.misframed .checksumMismatch p.bytes with
      rxq := rest, plen := p.plen, rw := p.rw, crc := cks (packetHead p.hdr p.payload) } := by
  have hlen := Packet.payload_length_of_lenOk hlenOk
  have hl := legalPlen_of_fits hlenOk hfits
  rw [frmRun_packet (frmStart s) p.hdr p.ck p.payload rest rfl rfl rfl hq (by simpa using hlen)
    (by simpa using hl) hm hu]
  simp [State.misframed, Packet.bytes, frmStart, hck.symm]

/-- With fewer than three bytes the attempt holds in its head phase (R142, R149). -/
theorem frmRun_start_holdsInHead (hq : s.rxq.length < 3) :
    frmRun (frmStart s) = .ok { frmStart s with
      rxbuf := Mem.ofBytes s.rxq, rxcnt := s.rxq.length, rxq := [] } := by
  rw [frmRun_head_short (frmStart s) [] rfl rfl rfl (by simpa using hq) (Nat.le_trans (by decide) hm) hu]
  simp

/-- With a good head and too few bytes behind it the attempt holds in its body phase (R146, R149). -/
theorem frmRun_start_holdsInBody {b1 b2 : Byte} {rest : List Byte} (hl : legalPlen s.cfg (hdrPlen (le16 b1 b2)))
    (hq : s.rxq = startByte :: b1 :: b2 :: rest) (hrest : rest.length < (hdrPlen (le16 b1 b2)).toNat + 2) :
    frmRun (frmStart s) = .ok { frmStart s with
      rxbuf := Mem.ofBytes (startByte :: b1 :: b2 :: rest), rxcnt := rest.length + 3, rxq := []
      rw := hdrRw (le16 b1 b2), plen := hdrPlen (le16 b1 b2), fstate := .body } := by
  have ⟨_, hmax⟩ := hl
  rw [frmRun_start_goodHead hu hm hl hq,
    frmRun_body_short ((frmStart s).withGoodHead b1 b2 rest) [startByte, b1, b2] rfl rfl rfl
      (by simp [State.withGoodHead, State.withHead]; omega) (by simp [State.withGoodHead]; omega) hu]
  simp [State.withGoodHead, State.withHead, Nat.add_comm 3]

end Started

theorem three_le_of_ok {c : Cfg} (h : c.ok = true) : 3 ≤ c.maxResponseSize :=
  Nat.le_trans (by decide) (six_le_of_ok h)

/-! ## RDPKT is acceptance, one attempt, and its result -/

theorem exec_rdpkt_of_frmRun {s u : State} (hs : s.atRest) (h : frmRun (frmStart (rdpktAccept s)) = .ok u) :
    exec .rdpkt s = .next (if u.fstate = .idle then rdpktDeliver u else u) :=
  calc exec .rdpkt s = outcome (rdpktRun s) := whenAtRest_of hs
    _ = .next (if u.fstate = .idle then rdpktDeliver u else u) := by rw [rdpktRun, rdpktResume_of_frmRun h]; rfl

theorem exec_rdpkt_of_ended {s u : State} (hs : s.atRest) (h : frmRun (frmStart (rdpktAccept s)) = .ok u)
    (hu : u.fstate = .idle) : exec .rdpkt s = .next (rdpktDeliver u) := by
  rw [exec_rdpkt_of_frmRun hs h, if_pos hu]

theorem exec_rdpkt_of_held {s u : State} (hs : s.atRest) (h : frmRun (frmStart (rdpktAccept s)) = .ok u)
    (hu : u.fstate ≠ .idle) : exec .rdpkt s = .next u := by
  rw [exec_rdpkt_of_frmRun hs h, if_neg hu]

/-- Settles O9: the attempt frames the packet, and RDPKT hands it over. -/
theorem rdpktFramesAPacket : Obligations.RdpktFramesAPacket := by
  intro s p rest ⟨hs, hu⟩ hok hp hq
  exact exec_rdpkt_of_ended hs
    (frmRun_of_wf (s := frmStart (rdpktAccept s)) rfl rfl rfl hu (six_le_of_ok hok) hp hq) rfl

/-- Settles O10: of the two clauses the first is the second for an attempt that holds no byte yet. -/
theorem rdpktReportsBadStartByte : Obligations.RdpktReportsBadStartByte := by
  refine ⟨fun s b0 b1 b2 rest ⟨hs, hu⟩ hok h0 hq => ⟨true, false, .none, ?_⟩,
    fun s pre rest b0 b1 b2 hok hs hu hb hc hpre h0 hq =>
      frmRun_badStart (three_le_of_ok hok) hs hu hb hc hpre.le h0 hq⟩
  have hrun := frmRun_badStart (s := frmStart (rdpktAccept s)) (pre := []) (three_le_of_ok hok) rfl hu rfl rfl
    (by decide) h0 hq
  rw [exec_rdpkt_of_ended hs hrun rfl]
  obtain ⟨hbusy, hf, -⟩ := hs
  simp [rdpktDeliver, finish, frmEnd, State.withHead, frmStart, rdpktAccept, accept, hbusy, hf]

/-- Settles O11: the attempt ends at the length test, and RDPKT hands over its status alone. -/
theorem rdpktReportsInvalidLength : Obligations.RdpktReportsInvalidLength := by
  intro s b1 b2 rest ⟨hs, hu⟩ hok hl hq
  exact exec_rdpkt_of_ended hs (frmRun_start_invalidLength (s := rdpktAccept s) hu (six_le_of_ok hok) hl hq) rfl

/-- Settles O12: the attempt ends at the checksum test, and RDPKT hands over its status alone. -/
theorem rdpktReportsChecksumMismatch : Obligations.RdpktReportsChecksumMismatch := by
  intro s p rest ⟨hs, hu⟩ hok hlenOk hfits hck hq
  exact exec_rdpkt_of_ended hs
    (frmRun_start_checksumMismatch (s := rdpktAccept s) hu (six_le_of_ok hok) hlenOk hfits hck hq) rfl

/-- Settles O13: the attempt holds in its head phase, and RDPKT with it. -/
theorem rdpktHoldsInTheHead : Obligations.RdpktHoldsInTheHead := by
  intro s ⟨hs, hu⟩ hok hq
  exact exec_rdpkt_of_held hs (frmRun_start_holdsInHead (s := rdpktAccept s) hu (six_le_of_ok hok) hq) (by simp)

/-- Settles O14: the attempt holds in its body phase, and RDPKT with it. -/
theorem rdpktHoldsInTheBody : Obligations.RdpktHoldsInTheBody := by
  intro s b1 b2 rest ⟨hs, hu⟩ hok hl hq hrest
  exact exec_rdpkt_of_held hs
    (frmRun_start_holdsInBody (s := rdpktAccept s) hu (six_le_of_ok hok) hl hq hrest) (by simp)

/-- Settles O31: a packet's arrival is the delivery of its bytes, and they end the RDPKT that waits for them. -/
theorem pktEndsAWaitingRdpkt : Obligations.PktEndsAWaitingRdpkt := fun _ _ hs hok hp =>
  deliver_to_waitingRdpkt hs hok hp

/-! ## The packet of a request, framed back -/

/-- The packet of a request as a term of the opcode table (42_transactor R162, R163). -/
def sentPacket (c : Cfg) (isWrite : Bool) (cmd : Byte) (data : List Byte) : Packet where
  rw := isWrite
  reserved := c.txReserved
  plen := plenField (1 + data.length)
  cmd := cmd
  data := data
  ck := cks (packetHead (hdrEncode c (plenField (1 + data.length)) isWrite) (cmd :: data))

theorem sentPacket_bytes (c : Cfg) (isWrite : Bool) (cmd : Byte) (data : List Byte) :
    (sentPacket c isWrite cmd data).bytes = requestPacket c isWrite cmd data := rfl

/-- The ten bits of PLEN hold any length below 1024 (R92, R162). -/
theorem plenField_toNat {n : Nat} (h : n < 1024) : (plenField n).toNat = n := by
  rw [plenField, if_pos h, BitVec.toNat_ofNat]
  omega

theorem sentPacket_wf {c : Cfg} {isWrite : Bool} {cmd : Byte} {data : List Byte}
    (hm : data.length + 6 ≤ c.maxResponseSize) (hd : data.length < 1023) :
    (sentPacket c isWrite cmd data).wf c = true := by
  have hplen : (sentPacket c isWrite cmd data).plen.toNat = 1 + data.length := plenField_toNat (by omega)
  refine Packet.wf_iff.mpr ⟨?_, by omega, rfl⟩
  rw [Packet.lenOk, hplen, Packet.payload, beq_iff_eq]
  exact Nat.add_comm ..

/-- A request that fits adds its packet's bytes to TXLOG with its sending half (R162 to R164). -/
theorem txnRequest_txlog {o : Op} {isWrite : Bool} {cmd : Byte} {data : List Byte} {s t : State}
    (hd : isWrite = false → data = []) (hm : data.length + 6 ≤ s.cfg.maxResponseSize) (hu : s.unlimited)
    (h : txnRequest o isWrite cmd data s = .ok t) :
    t.txlog = s.txlog ++ requestPacket s.cfg isWrite cmd data ∧ t.tstate = .await := by
  rw [txnRequest_fits o isWrite cmd data s hd hm hu] at h
  cases h
  exact ⟨rfl, rfl⟩

/-- The wait that follows adds nothing (R165 to R173). -/
theorem txnRun_txlog {o : Op} {isWrite : Bool} {cmd : Byte} {data : List Byte} {s t : State}
    (hd : isWrite = false → data = []) (hm : data.length + 6 ≤ s.cfg.maxResponseSize) (hu : s.unlimited)
    (h : txnRun o isWrite cmd data s = .ok t) :
    t.txlog = s.txlog ++ requestPacket s.cfg isWrite cmd data := by
  obtain ⟨u, hsent, h⟩ := bind_ok h
  obtain ⟨hlog, hawait⟩ := txnRequest_txlog hd hm hu hsent
  rw [proceed_txlog h (by simp [hawait]), hlog]

/-- The payload of the packet that was framed is what the host reads (44_host_ops R212). -/
theorem hostPayload_framed {s : State} {p : Packet} (hp : p.wf s.cfg = true) :
    ((s.framed p).rdpktEnded .packet).hostPayload = some p.payload := by
  obtain ⟨hlenOk, hfits, -⟩ := Packet.wf_iff.mp hp
  have hlen := Packet.payload_length_of_lenOk hlenOk
  have hslice : bufSlice s.cfg (Mem.ofBytes p.bytes) 3 p.plen.toNat = .ok p.payload := by
    rw [bufSlice_ofBytes _ _ _ (by rw [Packet.bytes, packetBytes_length]; omega) (by omega)]
    simp [Packet.bytes, packetBytes, packetHead, hlen]
  simp [State.hostPayload, State.rxBytes, State.rdpktEnded, State.framed, hslice]

/-- Settles O33: whichever row sends the request, TXLOG grows by a packet the framer accepts. -/
theorem sentPacketIsFramedBack : Obligations.SentPacketIsFramedBack := by
  intro s₀ s₁ s plen cmd data ck bs isWrite hok hu hm hd hsend hlog hs hcfg hq
  have hgrown : s₁.txlog = s₀.txlog ++ requestPacket s₀.cfg isWrite cmd data := by
    rcases hsend with ⟨rfl, rfl, h | h⟩ | ⟨rfl, h | h⟩
    · exact txnRun_txlog (fun _ => rfl) hm hu (execReqr_next h).2
    · exact (txnRequest_txlog (fun _ => rfl) hm hu (whenAtRest_next h).2).1
    · exact txnRun_txlog (by simp) hm hu (execReqw_next h).2
    · exact (txnRequest_txlog (by simp) hm hu (whenAtRest_next h).2).1
  have hbs : bs = requestPacket s₀.cfg isWrite cmd data := List.append_cancel_left (hlog.symm.trans hgrown)
  have hwf : (sentPacket s₀.cfg isWrite cmd data).wf s.cfg = true := by rw [hcfg]; exact sentPacket_wf hm hd
  refine ⟨_, rdpktFramesAPacket s _ [] hs (hcfg ▸ hok) hwf ?_, rfl, plenField_toNat (by omega), rfl,
    hostPayload_framed hwf, rfl, rfl⟩
  rw [List.append_nil, sentPacket_bytes, hq, hbs]

/-! ## A unit that is not at rest -/

theorem whenAtRest_of_unit_busy {s : State} (x : Except Fault State) (hb : s.busy = false)
    (h : s.fstate ≠ .idle ∨ s.tstate ≠ .idle) : whenAtRest s x = .refused .notAtRest := by
  have hne : ¬ (s.fstate = .idle ∧ s.tstate = .idle) := not_and_or.mpr h
  simp [whenAtRest, hb, hne]

/-- Settles O44: the five instructions ask that both units be at rest, and the invariant says that they are. -/
theorem unitNotAtRestRefusesOperations : Obligations.UnitNotAtRestRefusesOperations := by
  intro s i hb h hi
  refine ⟨?_, fun hinv => ?_⟩
  · rcases hi with rfl | ⟨cmd, rfl⟩ | ⟨cmd, data, rfl⟩ | hside
    · exact whenAtRest_of_unit_busy _ hb h
    · exact whenAtRest_of_unit_busy _ hb h
    · exact whenAtRest_of_unit_busy _ hb h
    · cases i with
      | pktRdreq cmd ck => exact whenAtRest_of_unit_busy _ hb h
      | pktWrreq plen cmd data ck => exact whenAtRest_of_unit_busy _ hb h
      | _ => cases hside
  · obtain ⟨-, hf, ht⟩ := hinv.atRest hb
    exact h.elim (absurd hf) (absurd ht)

end Sys2Proof.Machine
end

section
/-! A request from its acceptance to its result (42_transactor R160 to R180): its packet sent, whole or cut off by a
limit, then the wait, iteration by iteration. -/

namespace Sys2Proof.Machine

open Host

/-! ## A request is its packet sent, and then the wait -/

/-- The engine goes on with `k` from a next state; a fault or a refusal stays. -/
def andThen (r : Outcome State Fault Refusal) (k : State → Outcome State Fault Refusal) :
    Outcome State Fault Refusal :=
  match r with
  | .next t => k t
  | .fault f => .fault f
  | .refused x => .refused x

theorem whenAtRest_bind (s : State) (x : Except Fault State) (f : State → Except Fault State) :
    whenAtRest s (x >>= f) = andThen (whenAtRest s x) fun t => outcome (f t) := by
  unfold whenAtRest
  split
  · rfl
  · split
    · cases x <;> rfl
    · rfl

/-- Settles O29: a whole request is its sending half and then `proceed`, which is what OP.NONE runs. -/
theorem requestIsItsPacketThenTheWait : Obligations.RequestIsItsPacketThenTheWait :=
  ⟨fun s cmd _ => whenAtRest_bind s (txnRequest .reqr false cmd [] s) proceed,
    fun s _ cmd data _ => whenAtRest_bind s (txnRequest .reqw true cmd data s) proceed⟩

/-- Settles O19: the request is turned away at its length test, and nothing is in progress that could go on. -/
theorem reqwTooLongIsAContractViolation : Obligations.ReqwTooLongIsAContractViolation := by
  intro s cmd data hs hlong
  have ⟨hb, _, _⟩ := hs
  show whenAtRest s (txnRun .reqw true cmd data s) = _
  rw [whenAtRest_of hs, txnRun, txnRequest_tooLong .reqw true cmd data s hlong, except_ok_bind,
    proceed_of_idle (violation_busy ..), violation_of_idle _ hb]
  rfl

/-- Settles O27: a read request fits under every legal configuration. -/
theorem pktRdreqIsSent : Obligations.PktRdreqIsSent := by
  intro s cmd ck ⟨hs, hu⟩ hok
  show whenAtRest s (txnRequest .reqr false cmd [] s) = _
  rw [whenAtRest_of hs, txnRequest_fits .reqr false cmd [] s (fun _ => rfl) (six_le_of_ok hok) hu]
  rfl

/-- Settles O28: the sending half of a write request that fits. -/
theorem pktWrreqIsSent : Obligations.PktWrreqIsSent := by
  intro s plen cmd data ck ⟨hs, hu⟩ hok hm
  show whenAtRest s (txnRequest .reqw true cmd data s) = _
  rw [whenAtRest_of hs, txnRequest_fits .reqw true cmd data s (by simp) hm hu]
  rfl

/-! ## Silent iterations -/

/-- `s` after `k` iterations with nothing to read: counted, and the device's turns taken (R167, R168). -/
def State.waited (s : State) (k : Nat) : State := { s with attempts := s.attempts + k, devq := s.devq.drop k }

/-- Silent iterations with budget left behind them are skipped (R172). -/
theorem txnLoop_skip {s : State} (k : Nat) (hq : s.rxq = []) (hd : ∀ bs ∈ s.devq.take k, bs = [])
    (ha : s.attempts + k < s.cfg.nAttempts) (hu : s.unlimited) :
    txnLoop s = txnLoop (s.waited k) := by
  have hn : s.cfg.nAttempts - s.attempts = k + (s.cfg.nAttempts - (s.attempts + k)) := by omega
  rw [txnLoop, hn, txnPoll_skip k _ s hq hd ha hu]
  rfl

/-- On a silent device the wait uses up what is left of its budget and ends `Timeout` (R172, R173). -/
theorem txnLoop_timesOut {s : State} (hs : s.silent) (ha : s.attempts < s.cfg.nAttempts) (hu : s.unlimited) :
    txnLoop s = .ok { s.timedOut with
      attempts := s.cfg.nAttempts, devq := s.devq.drop (s.cfg.nAttempts - s.attempts) } := by
  obtain ⟨hq, hd⟩ := hs
  obtain ⟨k, hk⟩ : ∃ k, s.cfg.nAttempts = s.attempts + k + 1 := ⟨s.cfg.nAttempts - s.attempts - 1, by omega⟩
  have hlast : (s.devq.drop k).headD [] = [] := by
    cases h : s.devq.drop k with
    | nil => rfl
    | cons bs rest => exact hd bs (List.mem_of_mem_drop (h ▸ List.mem_cons_self))
  rw [txnLoop, show s.cfg.nAttempts - s.attempts = k + 1 by omega,
    txnPoll_skip k 1 s hq (fun bs hbs => hd bs (List.mem_of_mem_take hbs)) (by omega) hu, ← State.waited,
    txnPoll_last_silent (s.waited k) hq hlast hk.symm hu]
  simp [State.waited, State.timedOut]

/-! ## An iteration with something to read -/

/-- `v` in the place of `s` after the next iteration of `s`, with `rest` left in RXQ (R167, R168): what an iteration
that reads works on, by `polled_of_unlimited`, and what its framing attempt leaves. -/
def State.nextIteration (s v : State) (rest : List Byte) : State :=
  { v with attempts := s.attempts + 1, rxq := rest, devq := s.devq.tail }

theorem polled_of_unlimited {s : State} (hu : s.unlimited) :
    s.polled = s.nextIteration s (s.rxq ++ s.devq.headD []) := by
  have hu' : (txnTick s).unlimited := by simpa [State.unlimited, txnTick, sleep] using hu
  rw [State.polled, spend_of_unlimited hu', txnTick, sleep, deviceTurn_eq]
  rfl

/-- The correlation looks at neither the budget nor the channel (R170). -/
@[simp] theorem txnMatched_nextIteration (s v : State) (rest : List Byte) :
    txnMatched (s.nextIteration v rest) = txnMatched v := rfl

theorem txnLoop_read {s : State} {input : List Byte} (ha : s.attempts < s.cfg.nAttempts) (hu : s.unlimited)
    (hin : s.rxq ++ s.devq.headD [] = input) (hne : input ≠ []) :
    txnLoop s = txnFinishAttempt txnLoop (frmStart (s.nextIteration s input)) := by
  have hread : chCanRead (s.nextIteration s input) = true := by
    simpa [chCanRead, State.nextIteration] using hne
  rw [txnLoop_iterate ha (by simp [spent_of_unlimited hu]), polled_of_unlimited hu, hin, if_pos hread]

/-- An attempt that ends is correlated (R170 to R172). -/
theorem txnFinishAttempt_of_ended {next : State → Except Fault State} {s u : State} {hit : Bool}
    (h : frmRun s = .ok u) (hi : u.fstate = .idle) (hm : txnMatched u = .ok hit) :
    txnFinishAttempt next s = if hit then .ok (txnDeliver (txnSuccess u)) else txnBudget next u := by
  simp [txnFinishAttempt, h, hi, hm]

theorem bytes_append_ne_nil (p : Packet) (rest : List Byte) : p.bytes ++ rest ≠ [] := by
  simp [Packet.bytes, packetBytes, packetHead]

/-- The correlation of a good packet looks at its command byte (R170). -/
theorem txnMatched_framed {s : State} {p : Packet} (hp : p.wf s.cfg = true) :
    txnMatched (s.framed p) = .ok (p.cmd == s.cmd) := by
  obtain ⟨hpos, hmax⟩ := legalPlen_of_wf hp
  have hread : bufRead s.cfg (Mem.ofBytes p.bytes) 3 = .ok p.cmd := bufRead_ofBytes (by omega) rfl
  simp [txnMatched, State.framed, hread]

/-- The next iteration frames a good packet that comes first, and consumes exactly its bytes (R169). -/
theorem frmRun_iteration_of_wf {s : State} {p : Packet} {rest : List Byte} (hu : s.unlimited)
    (hm : 6 ≤ s.cfg.maxResponseSize) (hp : p.wf s.cfg = true) :
    frmRun (frmStart (s.nextIteration s (p.bytes ++ rest))) = .ok (s.nextIteration (s.framed p) rest) :=
  frmRun_of_wf rfl rfl rfl hu hm hp rfl

/-- A packet with the request's command ends the wait in the iteration that reads it (R170 to R173). -/
theorem txnLoop_succeeds {s : State} {p : Packet} {rest : List Byte} (ha : s.attempts < s.cfg.nAttempts)
    (hu : s.unlimited) (hok : s.cfg.ok = true) (hp : p.wf s.cfg = true) (hcmd : p.cmd = s.cmd)
    (hin : s.rxq ++ s.devq.headD [] = p.bytes ++ rest) :
    txnLoop s = .ok (s.nextIteration (s.framed p).succeeded rest) := by
  have hmatch : txnMatched (s.nextIteration (s.framed p) rest) = .ok true := by
    rw [txnMatched_nextIteration, txnMatched_framed hp, beq_iff_eq.mpr hcmd]
  rw [txnLoop_read ha hu hin (bytes_append_ne_nil p rest),
    txnFinishAttempt_of_ended (frmRun_iteration_of_wf hu (six_le_of_ok hok) hp) rfl hmatch]
  rfl

/-! ## A request that fits, sent whole -/

section Request

variable {o : Op} {isWrite : Bool} {cmd : Byte} {data : List Byte} {s : State} (hs : s.atRest)
  (hu : s.unlimited) (hok : s.cfg.ok = true) (ho : o = .reqr ∨ o = .reqw) (hd : isWrite = false → data = [])
  (hm : data.length + 6 ≤ s.cfg.maxResponseSize)
include hs hu ho hd hm

/-- Once its packet has been sent a request is its poll loop (R165, R166). -/
theorem request_of_fits :
    whenAtRest s (txnRun o isWrite cmd data s) = outcome (txnLoop (s.sent o isWrite cmd data)) := by
  have ⟨_, hf, _⟩ := hs
  rw [whenAtRest_of hs, txnRun, txnRequest_fits o isWrite cmd data s hd hm hu, except_ok_bind,
    proceed_of_polling (s := s.sent o isWrite cmd data) ⟨⟨rfl, ho⟩, rfl⟩ hf]

include hok

theorem request_timesOut (hsil : s.silent) :
    whenAtRest s (txnRun o isWrite cmd data s) = .next
      { (s.sent o isWrite cmd data).timedOut with
        attempts := s.cfg.nAttempts, devq := s.devq.drop s.cfg.nAttempts } := by
  obtain ⟨hq, hdev⟩ := hsil
  have hsent : (s.sent o isWrite cmd data).silent := ⟨by simp [State.sent, hq], hdev⟩
  have hleft : (s.sent o isWrite cmd data).attempts < s.cfg.nAttempts := one_le_nAttempts_of_ok hok
  rw [request_of_fits hs hu ho hd hm, txnLoop_timesOut hsent hleft hu]
  rfl

/-- `k` silent iterations, and then the response (R166 to R173). -/
theorem request_succeeds {p : Packet} {k : Nat} {extra : List Byte} {later : List (List Byte)} (hq : s.rxq = [])
    (hp : p.wf s.cfg = true) (hcmd : p.cmd = cmd) (hk : k < s.cfg.nAttempts)
    (hdev : s.devq = List.replicate k [] ++ (p.bytes ++ extra) :: later) :
    whenAtRest s (txnRun o isWrite cmd data s) = .next
      { ((s.sent o isWrite cmd data).framed p).succeeded with attempts := k + 1, rxq := extra, devq := later } := by
  have hq' : (s.sent o isWrite cmd data).rxq = [] := by simp [State.sent, hq]
  have htake : s.devq.take k = List.replicate k [] := by rw [hdev, List.take_left' (by simp)]
  have hdrop : s.devq.drop k = (p.bytes ++ extra) :: later := by rw [hdev, List.drop_left' (by simp)]
  have hsilent : ∀ bs ∈ s.devq.take k, bs = [] := by
    rw [htake]
    exact fun _ => List.eq_of_mem_replicate
  have hleft : ((s.sent o isWrite cmd data).waited k).attempts < s.cfg.nAttempts := by
    simpa [State.waited, State.sent] using hk
  have hin : ((s.sent o isWrite cmd data).waited k).rxq ++ ((s.sent o isWrite cmd data).waited k).devq.headD []
      = p.bytes ++ extra := by
    simp [State.waited, State.sent, hq, hdrop]
  rw [request_of_fits hs hu ho hd hm, txnLoop_skip k hq' hsilent hleft hu,
    txnLoop_succeeds (s := (s.sent o isWrite cmd data).waited k) hleft hu hok hp hcmd hin]
  simp [outcome, State.nextIteration, State.waited, State.sent, State.framed, State.succeeded, hdev]

/-- A packet that lay in RXQ before is taken in the first iteration, if RXQ is not flushed (R164, R180). -/
theorem request_takes_stale {p : Packet} {rest : List Byte} (hf : s.cfg.flushOnRequest = false)
    (hp : p.wf s.cfg = true) (hcmd : p.cmd = cmd) (hq : s.rxq = p.bytes ++ rest) :
    whenAtRest s (txnRun o isWrite cmd data s) = .next
      { ((s.sent o isWrite cmd data).framed p).succeeded with
        attempts := 1, rxq := rest ++ s.devq.headD [], devq := s.devq.tail } := by
  have hin : (s.sent o isWrite cmd data).rxq ++ (s.sent o isWrite cmd data).devq.headD []
      = p.bytes ++ (rest ++ s.devq.headD []) := by
    simp [State.sent, hf, hq]
  rw [request_of_fits hs hu ho hd hm,
    txnLoop_succeeds (s := s.sent o isWrite cmd data) (one_le_nAttempts_of_ok hok) hu hok hp hcmd hin]
  rfl

end Request

/-- Settles O17: a read request has no data, so it fits. -/
theorem reqrTimesOutOnASilentDevice : Obligations.ReqrTimesOutOnASilentDevice := fun _ _ ⟨hs, hu⟩ hok hsil =>
  request_timesOut hs hu hok (.inl rfl) (fun _ => rfl) (six_le_of_ok hok) hsil

/-- Settles O18: the poll loop does not look at what was sent. -/
theorem reqwTimesOutOnASilentDevice : Obligations.ReqwTimesOutOnASilentDevice := fun _ _ _ ⟨hs, hu⟩ hok hsil hm =>
  request_timesOut hs hu hok (.inr rfl) (by simp) hm hsil

/-- Settles O20: the iterations before the response are skipped, and the one that reads it matches. -/
theorem reqrSucceedsOnItsResponse : Obligations.ReqrSucceedsOnItsResponse :=
  fun _ _ _ _ _ _ ⟨hs, hu⟩ hok hq hp hcmd hk hdev =>
    request_succeeds hs hu hok (.inl rfl) (fun _ => rfl) (six_le_of_ok hok) hq hp hcmd hk hdev

/-- Settles O21: as O20, for data that fits. -/
theorem reqwSucceedsOnItsResponse : Obligations.ReqwSucceedsOnItsResponse :=
  fun _ _ _ _ _ _ _ ⟨hs, hu⟩ hok hq hm hp hcmd hk hdev =>
    request_succeeds hs hu hok (.inr rfl) (by simp) hm hq hp hcmd hk hdev

/-- Settles O22: nothing tells a stale packet from a response. -/
theorem requestTakesAStalePacket : Obligations.RequestTakesAStalePacket :=
  fun _ _ _ _ ⟨hs, hu⟩ hok hf hp hcmd hq =>
    ⟨request_takes_stale hs hu hok (.inl rfl) (fun _ => rfl) (six_le_of_ok hok) hf hp hcmd hq,
      fun _ hm => request_takes_stale hs hu hok (.inr rfl) (by simp) hm hf hp hcmd hq⟩

/-- A request that ends `Success` matched a good packet (R170, R171). -/
theorem RequestEnd.correlated {o : Op} {isWrite : Bool} {cmd : Byte} {s t : State}
    (h : RequestEnd (txnAccept o isWrite cmd s) t) (hb : t.busy = false) (hr : t.tresult = .success) :
    t.pktValid = true ∧ t.cmd = cmd ∧ t.rxbuf.read 3 = some cmd := by
  obtain ⟨u, hf, hfrm, hm, rfl⟩ := h.of_success rfl hb hr
  obtain ⟨hst, hread⟩ := txnMatched_true hm
  have hcmd : u.cmd = cmd := by rw [hf.writes]; rfl
  exact ⟨hfrm.valid_iff.mpr hst, hcmd, hread.trans (congrArg some hcmd)⟩

/-- Settles O23: both requests end as `RequestEnd` says, from their acceptance on. -/
theorem successMeansACorrelatedPacket : Obligations.SuccessMeansACorrelatedPacket := by
  intro s t cmd data hok h hb hr
  rcases h with h | ⟨hm, h⟩
  · exact (execReqr_ends hok h).2.correlated hb hr
  · exact (execReqw_ends hok hm h).2.correlated hb hr

/-! ## A transaction that awaits its response -/

theorem exec_opNone_of_polling {s : State} (hs : s.waits) (hf : s.fstate = .idle) :
    exec .opNone s = outcome (txnLoop s) :=
  congrArg outcome (proceed_of_polling hs hf)

/-- Settles O26: the packet has arrived when the next iteration begins. -/
theorem pktRespEndsTheTransaction : Obligations.PktRespEndsTheTransaction := by
  intro s p ⟨hr, ht, hf, ha, hu⟩ hok hq hp hcmd
  show exec .opNone (arrive p.bytes s) = _
  rw [exec_opNone_of_polling (s := arrive p.bytes s) ⟨hr, ht⟩ hf,
    txnLoop_succeeds (s := arrive p.bytes s) (rest := s.devq.headD []) ha hu hok hp hcmd (by simp [arrive, hq])]
  rfl

theorem frmRun_start_badStart {s : State} {b0 b1 b2 : Byte} {rest : List Byte} (hu : s.unlimited)
    (hm : 6 ≤ s.cfg.maxResponseSize) (h0 : b0 ≠ startByte) (hq : s.rxq = b0 :: b1 :: b2 :: rest) :
    frmRun (frmStart s) = .ok { s.misframed .badStartByte [b0, b1, b2] with rxq := rest } :=
  frmRun_badStart (s := frmStart s) (pre := []) (Nat.le_trans (by decide) hm) rfl hu rfl rfl (by decide) h0 hq

/-- An attempt that is discarded read at least its first byte. -/
theorem discards_ne_nil {s v : State} {input rest : List Byte} (h : s.discards v input rest) : input ≠ [] := by
  rcases h with ⟨p, -, -, rfl, -⟩ | ⟨b0, b1, b2, -, rfl, -⟩ | ⟨b1, b2, -, rfl, -⟩ | ⟨p, -, -, -, rfl, -⟩
  · exact bytes_append_ne_nil p rest
  · exact List.cons_ne_nil _ _
  · exact List.cons_ne_nil _ _
  · exact bytes_append_ne_nil p rest

/-- The attempt of the next iteration ends as `State.discards` says (R143 to R147, R169). -/
theorem frmRun_of_discards {s v : State} {input rest : List Byte} (hu : s.unlimited)
    (hm : 6 ≤ s.cfg.maxResponseSize) (h : s.discards v input rest) :
    frmRun (frmStart (s.nextIteration s input)) = .ok (s.nextIteration v rest) := by
  rcases h with ⟨p, hp, -, rfl, rfl⟩ | ⟨b0, b1, b2, h0, rfl, rfl⟩ | ⟨b1, b2, hl, rfl, rfl⟩ |
    ⟨p, hlen, hfits, hck, rfl, rfl⟩
  · exact frmRun_iteration_of_wf hu hm hp
  · rw [frmRun_start_badStart (s := s.nextIteration s (b0 :: b1 :: b2 :: rest)) hu hm h0 rfl]
    simp only [State.misframed, State.nextIteration]
  · rw [frmRun_start_invalidLength (s := s.nextIteration s (startByte :: b1 :: b2 :: rest)) hu hm hl rfl]
    simp only [State.misframed, State.nextIteration]
  · rw [frmRun_start_checksumMismatch (s := s.nextIteration s (p.bytes ++ rest)) hu hm hlen hfits hck rfl]
    simp only [State.misframed, State.nextIteration]

/-- What is discarded has ended and is no match (R170, R174). -/
theorem unmatched_of_discards {s v : State} {input rest : List Byte} (h : s.discards v input rest) :
    v.fstate = .idle ∧ txnMatched v = .ok false := by
  rcases h with ⟨p, hp, hcmd, -, rfl⟩ | ⟨b0, b1, b2, -, -, rfl⟩ | ⟨b1, b2, -, -, rfl⟩ | ⟨p, -, -, -, -, rfl⟩
  · exact ⟨rfl, by rw [txnMatched_framed hp, beq_false_of_ne hcmd]⟩
  · exact ⟨rfl, rfl⟩
  · exact ⟨rfl, rfl⟩
  · exact ⟨rfl, rfl⟩

/-- A discarded attempt uses one iteration: `Timeout` after the last, else the wait goes on (R172, R174). -/
theorem exec_opNone_of_discards {s v : State} {input rest : List Byte} (hs : s.awaitingResponse)
    (hok : s.cfg.ok = true) (hin : s.rxq ++ s.devq.headD [] = input) (h : s.discards v input rest) :
    exec .opNone s = if s.attempts + 1 = s.cfg.nAttempts then .next (s.nextIteration v rest).timedOut
      else exec .opNone (s.nextIteration v rest) := by
  obtain ⟨hr, ht, hf, ha, hu⟩ := hs
  obtain ⟨hidle, hmiss⟩ := unmatched_of_discards h
  have hrun := frmRun_of_discards hu (six_le_of_ok hok) h
  have hframe := frmRun_frame hrun
  have hwaits : (s.nextIteration v rest).waits :=
    waits_of_frmFrame (s := frmStart (s.nextIteration s input)) ⟨hr, ht⟩ hframe
  have hcfg : (s.nextIteration v rest).cfg = s.cfg := by rw [hframe]; rfl
  have hbudget : txnLoop s = txnBudget txnLoop (s.nextIteration v rest) := by
    rw [txnLoop_read ha hu hin (discards_ne_nil h), txnFinishAttempt_of_ended (hit := false) hrun hidle hmiss,
      if_neg Bool.false_ne_true]
  rw [exec_opNone_of_polling ⟨hr, ht⟩ hf, exec_opNone_of_polling hwaits hidle, hbudget, txnBudget, hcfg]
  by_cases hlast : s.attempts + 1 = s.cfg.nAttempts
  · rw [if_pos hlast, if_pos (by exact hlast)]
    rfl
  · rw [if_neg hlast, if_neg (by exact hlast)]

/-- Settles O25: whichever of the four ways the attempt ended, the budget test follows. -/
theorem discardedAttemptsUseUpTheBudget : Obligations.DiscardedAttemptsUseUpTheBudget :=
  fun _ _ _ hs hok h => exec_opNone_of_discards hs hok rfl h

/-- Settles O24: the packet that has arrived is what the next iteration reads, and it is not the last. -/
theorem mismatchedPacketIsDiscarded : Obligations.MismatchedPacketIsDiscarded := by
  intro s p hs hok hq hdev hp hcmd hleft
  have hdisc : (arrive p.bytes s).discards ((arrive p.bytes s).framed p) (p.bytes ++ []) [] :=
    .inl ⟨p, hp, hcmd, rfl, rfl⟩
  show exec .opNone (arrive p.bytes s) = _
  rw [exec_opNone_of_discards (s := arrive p.bytes s) hs hok (by simp [arrive, hq, hdev]) hdisc,
    if_neg (show ¬ (arrive p.bytes s).attempts + 1 = (arrive p.bytes s).cfg.nAttempts from Nat.ne_of_lt hleft)]
  simp [State.nextIteration, State.framed, arrive, hq, hdev]

/-! ## A request sent in part, and reset -/

/-- A limit within what is left to send lets exactly as many bytes go (R164; log 4). -/
theorem txnSend_of_quota {q n : Nat} {s : State} {bs : List Byte} (hb : s.txbuf = Mem.ofBytes bs)
    (hl : s.txcnt + n ≤ bs.length) (hm : bs.length ≤ s.cfg.maxResponseSize) (hq : s.quota = some q) (hqn : q ≤ n) :
    txnSend n s = .ok { s with
      txcnt := s.txcnt + q, txlog := s.txlog ++ (bs.drop s.txcnt).take q, quota := some 0 } := by
  induction q generalizing n s with
  | zero =>
    cases n with
    | zero => simp [txnSend, ← hq]
    | succ n => simp [txnSend, State.spent, ← hq]
  | succ q ih =>
    obtain ⟨n, rfl⟩ : ∃ m, n = m + 1 := ⟨n - 1, by omega⟩
    have hi : s.txcnt < bs.length := by omega
    have hread : bufRead s.cfg s.txbuf s.txcnt = .ok bs[s.txcnt] := by
      rw [hb]
      exact bufRead_ofBytes (by omega) (by simp [hi])
    rw [txnSend_succ_of_read (by simp [State.spent, hq]) hread,
      ih (s := s.sentByte bs[s.txcnt]) hb (by simp; omega) hm (by simp [State.sentByte, hq]) (by omega),
      List.drop_eq_getElem_cons hi, List.take_succ_cons]
    simp [State.sentByte, chSend, spend, Nat.add_assoc, Nat.add_comm 1]

/-- Under a limit short of the packet's end TXN is still transmitting when the limit is used up (10_state R33). -/
theorem txnTransmit_of_quota {q : Nat} {s : State} {bs : List Byte} (hb : s.txbuf = Mem.ofBytes bs)
    (hl : s.txlen = bs.length) (hm : bs.length ≤ s.cfg.maxResponseSize) (hq : s.quota = some q)
    (hlt : s.txcnt + q < s.txlen) :
    txnTransmit s = .ok { s with
      txcnt := s.txcnt + q, txlog := s.txlog ++ (bs.drop s.txcnt).take q, quota := some 0 } := by
  rw [txnTransmit, txnSend_of_quota hb (by omega) hm hq (by omega), except_ok_bind, if_pos hlt]

/-- `s` with `n` bytes of its request's packet sent and its limit used up (42_transactor R164; log 4). -/
def State.sentInPart (s : State) (o : Op) (isWrite : Bool) (cmd : Byte) (data : List Byte) (n : Nat) : State :=
  { s.signed o isWrite cmd data with
    txcnt := n, txlog := s.txlog ++ (requestPacket s.cfg isWrite cmd data).take n, quota := some 0 }

/-- A request whose limit ends before its last byte, with nothing flushed, stands mid-transmission (R164; log 4). -/
theorem txnRun_sentInPart {o : Op} {isWrite : Bool} {cmd : Byte} {data : List Byte} {s : State} {n : Nat}
    (ht : s.tstate = .idle) (ho : o = .reqr ∨ o = .reqw) (hd : isWrite = false → data = [])
    (hm : data.length + 6 ≤ s.cfg.maxResponseSize) (hf : s.cfg.flushOnRequest = false) (hq : s.quota = some n)
    (hn : n < data.length + 6) :
    txnRun o isWrite cmd data s = .ok (s.sentInPart o isWrite cmd data n) := by
  have hlen : (requestPacket s.cfg isWrite cmd data).length = data.length + 6 := by simp [requestPacket]
  have hfirst : s.atFirstByte o isWrite cmd data = { s.signed o isWrite cmd data with txcnt := 0 } := by
    have hf' : (s.signed o isWrite cmd data).cfg.flushOnRequest = false := hf
    rw [State.atFirstByte, txnFlush, if_neg (by simp [hf'])]
  have hsend : txnTransmit { s.signed o isWrite cmd data with txcnt := 0 }
      = .ok (s.sentInPart o isWrite cmd data n) := by
    rw [txnTransmit_of_quota (s := { s.signed o isWrite cmd data with txcnt := 0 })
      (bs := requestPacket s.cfg isWrite cmd data) rfl hlen.symm (hlen.trans_le hm) hq ((Nat.zero_add n).trans_lt hn)]
    simp [State.sentInPart, State.signed]
  have hstay : txnTransmit (s.sentInPart o isWrite cmd data n) = .ok (s.sentInPart o isWrite cmd data n) := by
    rw [txnTransmit_of_quota (s := s.sentInPart o isWrite cmd data n) (bs := requestPacket s.cfg isWrite cmd data) rfl
      hlen.symm (hlen.trans_le hm) rfl hn]
    simp [State.sentInPart]
  have hidle : (s.sentInPart o isWrite cmd data n).tstate = .idle := ht
  rw [txnRun, txnRequest_eq_atFirstByte hd hm, hfirst, hsend, except_ok_bind, proceed_of_requesting ⟨rfl, ho⟩,
    txnResume_of_transmitting hidle, hstay, except_ok_bind, if_neg (by simp [hidle])]

theorem step_of_reset {s : State} {rest : List Slot} (h : s.sched = .reset :: rest) :
    step s = .next (resetPE { s with sched := rest }) := by
  simp only [step, h]

/-- Settles O46: a reset slot is the reset, and a request cut off by its limit has sent that many bytes, which
the reset leaves. -/
theorem resetAbandonsAndKeepsTheChannel : Obligations.ResetAbandonsAndKeepsTheChannel := by
  refine ⟨fun s rest h => step_of_reset h, fun s cmd n hs hok hf hq hn => ?_⟩
  have ⟨_, _, ht⟩ := hs
  have hrun : txnRun .reqr false cmd [] s = .ok (s.sentInPart .reqr false cmd [] n) :=
    txnRun_sentInPart ht (.inl rfl) (fun _ => rfl) (six_le_of_ok hok) hf hq hn
  have hexec : exec (.reqr cmd) s = .next (s.sentInPart .reqr false cmd [] n) := by
    show whenAtRest s (txnRun .reqr false cmd [] s) = _
    rw [whenAtRest_of hs, hrun]
    rfl
  exact ⟨_, hexec, rfl, ht, rfl, rfl, rfl, rfl, ⟨rfl, rfl, rfl⟩, rfl, rfl, rfl⟩

end Sys2Proof.Machine
end

section
/-! SDEC on any valid packet (43_stream_decoder R190 to R202): the tests in their order, a payload of 15 bytes or more as a
stream frame of R106 whose samples need not be as many as its count, and from them how each decode ends. -/

namespace Sys2Proof.Machine

/-! ## A long enough payload as a stream frame (R106, R107) -/

theorem exists_sampleBytes_append (k : Nat) (bs : List Byte) (h : 2 * k ≤ bs.length) :
    ∃ ds extra, bs = sampleBytes ds ++ extra ∧ ds.length = k := by
  induction k generalizing bs with
  | zero => exact ⟨[], bs, rfl, rfl⟩
  | succ k ih =>
    match bs, h with
    | b0 :: b1 :: bs, h =>
      obtain ⟨ds, extra, hbs, hds⟩ := ih bs (by simp at h; omega)
      exact ⟨le16 b0 b1 :: ds, extra, by simp [sampleBytes, hbs], by simp [hds]⟩

/-- A payload with room for the fixed fields and `k` samples is that of a stream frame with `k` samples, whatever count it
announces: one byte, three halves, one byte, three halves, then the samples. -/
theorem exists_streamPacket {p : Packet} {k : Nat} (h : 15 + 2 * k ≤ p.payload.length) :
    ∃ f : StreamPacket, f.packet = p ∧ f.dist.length = k := by
  obtain ⟨rw, reserved, plen, cmd, data, ck⟩ := p
  have hdata : 14 + 2 * k ≤ data.length := by simp [Packet.payload] at h; omega
  obtain ⟨alarm, afterAlarm, rfl⟩ := List.exists_cons_of_length_pos (l := data) (by omega)
  obtain ⟨_, afterMv, rfl, hhalves⟩ := exists_sampleBytes_append 3 afterAlarm (by simp at hdata; omega)
  obtain ⟨pps, fwd, mv, rfl⟩ := List.length_eq_three.mp hhalves
  obtain ⟨rev, afterRev, rfl⟩ := List.exists_cons_of_length_pos (l := afterMv) (by simp at hdata; omega)
  obtain ⟨_, afterStart, rfl, hhalves⟩ := exists_sampleBytes_append 3 afterRev (by simp at hdata; omega)
  obtain ⟨total, count, start, rfl⟩ := List.length_eq_three.mp hhalves
  obtain ⟨dist, extra, rfl, hdist⟩ := exists_sampleBytes_append k afterStart (by simp at hdata; omega)
  exact ⟨⟨rw, reserved, plen, cmd, alarm, pps, fwd, mv, rev, total, count, start, dist, extra, ck⟩, rfl, hdist⟩

/-- SF_COUNT stands at payload offset 11, low byte first (R106). -/
theorem count_of_payload (f : StreamPacket) :
    le16 (f.packet.payload.getD 11 0) (f.packet.payload.getD 12 0) = f.count :=
  le16_lo8_hi8 f.count

/-! ## The tests of the decoder in their order -/

theorem sdecDecode_of_noPacket {s : State} (h : s.pktValid = false) :
    sdecDecode s = .ok (violation .noValidPacket s.undecoded) := by
  simp [sdecDecode, h, State.undecoded]

/-- A valid packet meets the command test and then the length test, and only one that passes both is read (R192 to R194). -/
theorem sdecDecode_of_packet {s : State} {p : Packet} (hp : s.packet = some p.bytes) :
    sdecDecode s =
      if p.cmd ≠ s.cfg.streamCmdId then .ok (finish { s.undecoded with sstatus := .notStreamData })
      else if s.plen.toNat < s.cfg.layout.fixed then .ok (violation .streamTruncated s.undecoded)
      else sdecFields s.undecoded >>= sdecSamples := by
  have hcmd : pay { s with sfValid := false, sstatus := .none } 0 = .ok p.cmd := pay_of_packet (s := s) hp rfl
  unfold sdecDecode
  dsimp only
  rw [if_pos (pktValid_of_packet hp), hcmd, except_ok_bind]
  rfl

/-- A count that fails a test is a contract violation; the capacity test comes first (R195, R196). -/
theorem sdecSamples_of_badCount {s : State} (h : s.cfg.streamMaxPoints < s.sfCount.toNat
      ∨ s.plen.toNat < s.cfg.layout.fixed + 2 * s.sfCount.toNat) :
    sdecSamples s = .ok (violation
      (if s.cfg.streamMaxPoints < s.sfCount.toNat then .pointCountOverCapacity else .streamTruncated) s) := by
  by_cases hcap : s.cfg.streamMaxPoints < s.sfCount.toNat
  · simp [sdecSamples, hcap]
  · simp [sdecSamples, hcap, h.resolve_left hcap]

/-! ## How the operation ends -/

/-- A contract violation before the fields are read writes no SF register (R191, R193, R236). -/
theorem violation_undecoded_accept {s : State} (h : s.busy = false) (r : FaultReason) :
    violation r (accept .sdec s).undecoded
      = { s.violated r with op := .sdec, sfValid := false, sstatus := .none } := by
  rw [← violation_of_idle r h]
  rfl

theorem finish_notStreamData_accept {s : State} (h : s.busy = false) :
    finish { (accept .sdec s).undecoded with sstatus := .notStreamData }
      = { s with op := .sdec, sfValid := false, sstatus := .notStreamData, handed := true } := by
  simp only [finish, State.undecoded, accept, h]

/-- SDEC on a valid packet ends at the command test or at the length test, or goes on to the fields and the samples (R192 to
R194). -/
theorem exec_sdec_of_packet {s : State} {p : Packet} (hbusy : s.busy = false) (hp : s.packet = some p.bytes) :
    exec .sdec s =
      if p.cmd ≠ s.cfg.streamCmdId then
        .next { s with op := .sdec, sfValid := false, sstatus := .notStreamData, handed := true }
      else if s.plen.toNat < s.cfg.layout.fixed then
        .next { s.violated .streamTruncated with op := .sdec, sfValid := false, sstatus := .none }
      else outcome (sdecFields (accept .sdec s).undecoded >>= sdecSamples) := by
  rw [exec_sdec_of_idle hbusy, sdecDecode_of_packet (s := accept .sdec s) hp, finish_notStreamData_accept hbusy,
    violation_undecoded_accept hbusy, apply_ite outcome, apply_ite outcome]
  rfl

theorem violation_fieldsWritten (r : FaultReason) (s : State) (f : StreamPacket) :
    violation r (s.fieldsWritten f) = (violation r s).fieldsWritten f := rfl

/-- A stream packet whose count fails a test leaves its fixed fields in the SF registers, of no frame, and the violation
(R194 to R196, R202). -/
theorem exec_sdec_of_badCount {s : State} {f : StreamPacket} (hbusy : s.busy = false) (hl : s.cfg.layout = Layout.r106)
    (hp : s.packet = some f.packet.bytes) (hid : f.packet.cmd = s.cfg.streamCmdId) (hfix : 15 ≤ s.plen.toNat)
    (hbad : s.cfg.streamMaxPoints < f.count.toNat ∨ s.plen.toNat < 15 + 2 * f.count.toNat) :
    exec .sdec s = .next (State.fieldsWritten
      { s.violated (if s.cfg.streamMaxPoints < f.count.toNat then .pointCountOverCapacity else .streamTruncated) with
        op := .sdec, sfValid := false, sstatus := .none } f) := by
  have hfixed : s.cfg.layout.fixed = 15 := congrArg Layout.fixed hl
  have hfields : sdecFields (accept .sdec s).undecoded = .ok ((accept .sdec s).undecoded.fieldsWritten f) :=
    sdecFields_of_frame hl hp
  have hsamples := sdecSamples_of_badCount (s := (accept .sdec s).undecoded.fieldsWritten f) (hfixed ▸ hbad)
  rw [exec_sdec_of_packet hbusy hp, if_neg (not_not_intro hid), if_neg (hfixed ▸ hfix.not_gt), hfields, except_ok_bind,
    hsamples, violation_fieldsWritten, violation_undecoded_accept hbusy]
  rfl

/-! ## The obligations -/

/-- Settles O39: what SDEC may write is `sdecFrame`, which names none of these fields. -/
theorem sdecKeepsPacketAndChannel : Obligations.SdecKeepsPacketAndChannel := by
  intro s t h
  obtain ⟨-, h⟩ := execSdec_next h
  rw [sdecDecode_frame h]
  simp

/-- Settles O36: the command test fails, before any look at the length. -/
theorem sdecReportsNotStreamData : Obligations.SdecReportsNotStreamData := by
  intro s p hbusy _ _ hp hcmd
  exact ⟨true, by rw [exec_sdec_of_packet hbusy hp, if_pos hcmd]⟩

/-- Settles O37: the command test passes and the length test fails. -/
theorem sdecFaultsOnAShortFrame : Obligations.SdecFaultsOnAShortFrame := by
  intro s p hbusy hplen _ hp hcmd hshort
  rw [exec_sdec_of_packet hbusy hp, if_neg (not_not_intro hcmd), if_pos (hplen ▸ hshort)]

/-- Settles O38: the payload holds the fixed fields of some stream frame, and its count is the one that fails. -/
theorem sdecFaultsOnTheCount : Obligations.SdecFaultsOnTheCount := by
  intro s p hbusy hl hplen hlen hp hcmd hfix
  obtain ⟨f, rfl, -⟩ := exists_streamPacket (k := 0) (Packet.payload_length_of_lenOk hlen ▸ hfix)
  rw [count_of_payload, ← hplen]
  intro count hbad
  exact ⟨_, exec_sdec_of_badCount hbusy hl hp hcmd (hplen ▸ hfix) hbad, hbusy, rfl, rfl, rfl, rfl, rfl, rfl,
    fun hfault => if_neg (Bool.eq_false_iff.mp hfault)⟩

/-- Settles O40: the payload is that of a stream frame with as many samples as it counts, and PLEN bounds their number by the
capacity; such a frame decodes by `sdecDecodesAFrame`. -/
theorem enoughCapacityDecodesEveryConsistentFrame : Obligations.EnoughCapacityDecodesEveryConsistentFrame := by
  intro s p hbusy hl hplen hwf hp hcmd _ hcount hcap
  obtain ⟨hlen, hfits, -⟩ := Packet.wf_iff.mp hwf
  obtain ⟨f, rfl, hdist⟩ := exists_streamPacket (Packet.payload_length_of_lenOk hlen ▸ hcount)
  rw [count_of_payload] at hcount hdist
  have hcapacity : f.dist.length ≤ s.cfg.streamMaxPoints := by omega
  obtain ⟨hexec, -⟩ := sdecDecodesAFrame s f hbusy hl hplen hp hlen (beq_iff_eq.mpr hdist.symm) (beq_iff_eq.mpr hcmd)
    hcapacity
  exact ⟨s.decoded f, hexec, rfl, rfl, rfl⟩

/-- Settles O35: the first test fails. -/
theorem sdecNeedsAValidPacket : Obligations.SdecNeedsAValidPacket := by
  intro s hbusy hvalid
  refine ⟨false, ?_⟩
  rw [exec_sdec_of_idle hbusy, sdecDecode_of_noPacket (s := accept .sdec s) hvalid, violation_undecoded_accept hbusy]
  rfl

end Sys2Proof.Machine
end

section
/-! FLUSH on an idle engine, and what the device sends into an emptied queue (44_host_ops R210; 20_memory R65, R66). -/

namespace Sys2Proof.Machine

theorem exec_flush_of_idle {s : State} (h : s.busy = false) : exec .flush s = .next (finish (chFlush (accept .flush s))) :=
  whenIdle_of h

theorem arrive_of_rxq_nil {s : State} (bs : List Byte) (h : s.rxq = []) : arrive bs s = { s with rxq := bs } := by
  rw [arrive, h, List.nil_append]

/-- Settles O41: acceptance and end leave BUSY as it was, between them only RXQ is written, and arriving bytes join an empty
queue. -/
theorem flushEmptiesTheReceiveQueue : Obligations.FlushEmptiesTheReceiveQueue := by
  intro s bs h
  have hend : finish (chFlush (accept .flush s)) = { s with rxq := [], op := .flush, handed := true } := by
    simp [finish, chFlush, accept, h]
  exact ⟨⟨true, by rw [exec_flush_of_idle h, hend]⟩, arrive_of_rxq_nil bs rfl⟩

end Sys2Proof.Machine
end

section
/-! An operation presented to a busy engine is refused (70_reset_and_hazards R270; log 7): the test of BUSY comes first in
both ways of taking an operation up. -/

namespace Sys2Proof.Machine

theorem whenIdle_of_busy {s : State} (x : Except Fault State) (h : s.busy = true) :
    whenIdle s x = .refused .hostBusy :=
  if_pos h

theorem whenAtRest_of_busy {s : State} (x : Except Fault State) (h : s.busy = true) :
    whenAtRest s x = .refused .hostBusy :=
  if_pos h

/-- Settles O43: all operations but OP.NONE ask that BUSY be 0, those of a unit and the sending rows among them by asking that
the engine be at rest; the remaining rows come from the device. -/
theorem busyEngineRefusesOperations : Obligations.BusyEngineRefusesOperations := by
  intro s i hbusy hside hne
  cases i with
  | cks | sdec | flush | opReserved => exact whenIdle_of_busy _ hbusy
  | rdpkt | reqr | reqw | pktRdreq | pktWrreq => exact whenAtRest_of_busy _ hbusy
  | opNone => exact absurd rfl hne
  | pkt | pktResp | pktStream => simp [Instr.side] at hside

end Sys2Proof.Machine
end
